-- ==== Sys2Proof/Word.lean ====
section
/-! DEFINITION. The plain types of the block: characters, texts, line symbols (00_scope R8, R12, R14). -/

namespace Sys2Proof

/-- Eight bits of a request or of a table word. -/
abbrev Byte := BitVec 8

/-- A character, `CHAR_W` = 8 bits (R8, R12). -/
abbrev Chr := BitVec 8

/-- A text: a finite sequence of characters indexed from 0 (R12). -/
abbrev Text := List Chr

/-- A line symbol. Its width `LINE_W` is a parameter of the configuration (R9), so it is a natural
number below `2 ^ LINE_W` whose bits are read with `Nat.testBit` (log 3). -/
abbrev Line := Nat

end Sys2Proof
end

