-- ==== Sys2Proof/Config.lean ====
section
/-! DEFINITION. The configuration of the block (00_scope R8, R9, R10; 10_state R34 to R39) and the
model's free values. -/

namespace Sys2Proof

/-- The two requesters (00_scope R17b, 60_exceptions R257). -/
inductive Requester where
  | pollq
  | reqq
deriving DecidableEq, Repr, Inhabited

/-- Who takes steps (R17): the two requesters, the peer on the line, and the exchange sequencer, whose
move names the requester it serves if the lock is FREE (`LOCK_GRANT`, 20_memory R82; log 6). The time
counter moves when it is read (log 5). -/
inductive Agent where
  | pollq
  | reqq
  | peer
  | sequencer (q : Requester)
deriving DecidableEq, Repr, Inhabited

/-- `PAIR_ORDER` (R9, 20_memory R62): which pair of a character is first on the line. -/
inductive PairOrder where
  | lspFirst
  | mspFirst
deriving DecidableEq, Repr

/-- What a full receive queue loses. The spec gives no rule for a finite `RXQ_CAP`
(93_implementation_defined U17) and asks the model for a policy parameter: log 15. -/
inductive DropPolicy where
  | dropNewest
  | dropOldest
deriving DecidableEq, Repr

/-- A field descriptor (30_encoding R110). Only a Binary descriptor has `inv`, so the check
`inv_binary_only` of R114 holds of every value. -/
inductive Descr where
  | decimal (off w : Nat) (ign skip : Bool)
  | binary (k lo n : Nat) (inv ign : Bool)
  | parityCount (k lo n : Nat) (ign : Bool)
deriving DecidableEq, Repr

/-- The constant `ign` bit of a descriptor (10_state R39). -/
def Descr.ign : Descr → Bool
  | .decimal _ _ g _ => g
  | .binary _ _ _ _ g => g
  | .parityCount _ _ _ g => g

def Descr.isDecimal : Descr → Bool
  | .decimal .. => true
  | _ => false

/-- How many values a field of this descriptor can hold: `cur` lies below it (10_state R41). -/
def Descr.values : Descr → Nat
  | .decimal _ w _ _ => 2 ^ (4 * w)
  | .binary _ _ n _ _ => 2 ^ n
  | .parityCount _ _ n _ => n + 1

/-- The concrete layouts the source names (R8 `N_LAYOUT_KINDS`): generic memory dump,
input-control-board, real-time beverage telemetry, system-circuitry telemetry. -/
inductive LayoutKind where
  | memoryDump
  | inputControlBoard
  | beverage
  | circuitry
deriving DecidableEq, Repr

/-- The response lengths the source gives for a kind (10_state R37). They are no check of a
configuration: R9 leaves `RESP_LEN[s]` OPEN and 95_test_vectors uses others (log 32). -/
def LayoutKind.sourceLength : LayoutKind → Nat → Bool
  | .memoryDump, n => n == 64
  | .inputControlBoard, n => n == 4
  | .beverage, n => n == 44
  | .circuitry, n => 44 ≤ n

/-- The constants of one store (10_state R34, R36, R37, R38), with the kind of its layout (R8). -/
structure StoreConfig where
  kind    : LayoutKind
  cmd     : Text
  respLen : Nat
  expiry  : Nat
  layout  : List Descr
deriving DecidableEq, Repr

/-- `NF[s]`: the number of fields. -/
def StoreConfig.nf (c : StoreConfig) : Nat := c.layout.length

/-- `NW[s]`: the number of Decimal descriptors (R38). -/
def StoreConfig.nw (c : StoreConfig) : Nat := c.layout.countP Descr.isDecimal

/-- Every quantity of R9. `N_STORES` is the length of `stores`. `LOCK_GRANT` is the list of requesters
of which one may get the lock while the other waits for it too (20_memory R82); by default any. -/
structure Config where
  lineW     : Nat
  pLo       : Nat
  pHi       : Nat
  fill      : Nat
  pairOrder : PairOrder
  term      : Text
  retryMax  : Nat
  prefixLen : Nat
  rxqCap    : Option Nat
  rxqFull   : DropPolicy
  tsW       : Nat
  tickW     : Nat
  modW      : Nat
  valW      : Nat
  cmdMax    : Nat
  lockGrant : List Requester
  stores    : List StoreConfig
deriving DecidableEq, Repr

namespace Config

/-- `CHAR_W` (R8): bits of a character; the width of `Chr`. -/
def charW : Nat := 8

/-- `GROUPS` (R8): line symbols per character. -/
def groups : Nat := 4

/-- `GROUP_W` (R8): payload bits per line symbol. -/
def groupW : Nat := 2

/-- `TERM_LEN` (R8): characters of the terminator. -/
def termLen : Nat := 2

/-- `N_LAYOUT_KINDS` (R8): constructors of `LayoutKind`. -/
def nLayoutKinds : Nat := 4

/-- `N_INTERP` (R8): constructors of `Descr`. -/
def nInterp : Nat := 3

/-- The layout `LP` of 95_test_vectors section 5 (invented there for testing). -/
def exampleLayout : List Descr :=
  [.decimal 0 4 false false, .binary 0 2 1 false false, .binary 0 0 1 true false,
   .parityCount 0 8 8 false, .binary 0 12 4 false true]

/-- A store of the configuration `CFG` of 95_test_vectors section 5: command `"IC:"`. -/
def exampleStore : StoreConfig :=
  { kind := .inputControlBoard, cmd := [0x49, 0x43, 0x3A], respLen := 4, expiry := 1000,
    layout := exampleLayout }

/-- The defaults of R9 (D1 to D6, D11, D12, D14, D25, D27: log 2) and, for the OPEN parameters,
the example configuration `CFG` of 95_test_vectors section 5 (DESIGN CHOICE, unsafe: log 1). -/
def atReset : Config :=
  { lineW := 8, pLo := 2, pHi := 5, fill := 0xFF, pairOrder := .lspFirst, term := [0x0D, 0x0A],
    retryMax := 500, prefixLen := 3, rxqCap := none, rxqFull := .dropNewest, tsW := 32,
    tickW := 32, modW := 32, valW := 32, cmdMax := 32,
    lockGrant := [.pollq, .reqq], stores := List.replicate 6 exampleStore }

/-- FREE VALUE (log 4): what the peer has sent by the `n`-th receive iteration for which the state
lists no arrivals (00_scope R17: the oracle; 93 U3, U7). -/
opaque peerSends : Nat → List Line

/-- FREE VALUE (log 5): how many counts pass before the `n`-th `Now()` for which the state lists no
amount (10_state R30; 93 U5). -/
opaque timePasses : Nat → Nat

/-- FREE VALUE (log 6): the agent that moves in the `n`-th step for which the state lists none
(20_memory R82; 93 U6). -/
opaque movesNext : Nat → Agent

/-- FREE VALUE (log 16): STRIP of a text shorter than the terminator, for which 40_transport R153
states no result. -/
opaque stripShort : Text → Text

/-- FREE VALUE (log 17): HEXW outside its operand domain (41_field_decoder R171). -/
opaque hexwOutside : Text → Nat → Nat → Option Nat

/-- FREE VALUE (log 18): DECODE of a text whose length is not `RESP_LEN[s]`
(41_field_decoder R177, 95_test_vectors V-F33: "not defined"). -/
opaque decodeOutside : Nat → Text → Option (List (Option Nat))

end Config

end Sys2Proof
end

