-- ==== Sys2Proof/Machine/Line.lean ====
section
/-! DEFINITION. Line symbols and characters (20_memory R62, R63; 30_encoding R91 to R94, R97;
40_transport R131, R133): what the decoder of requests and the meanings share. -/

namespace Sys2Proof.Machine

/-! ### Bits -/

/-- `v[i] <- b` on a natural number (00_scope R11). -/
def setBit (v i : Nat) (b : Bool) : Nat := if v.testBit i = b then v else v ^^^ (1 <<< i)

/-- `c[i] <- b` on a character; no bit of a character has an index above 7. -/
def setChrBit (c : Chr) (i : Nat) (b : Bool) : Chr := BitVec.ofNat 8 (setBit c.toNat i b)

/-! ### Unit T: characters and line symbols -/

/-- The pair that line position `g` (0 to 3) carries (R62). -/
def pairIndex (c : Config) (g : Nat) : Nat :=
  match c.pairOrder with
  | .lspFirst => g
  | .mspFirst => 3 - g

/-- Format LS on transmit (30_encoding R91): `FILL`, with bit `P_LO` the lower and bit `P_HI` the
upper bit of the pair; `LINE_W` bits of `FILL` are on the line (log 28). -/
def lineSymbol (c : Config) (lo hi : Bool) : Line :=
  setBit (setBit (c.fill % 2 ^ c.lineW) c.pLo lo) c.pHi hi

/-- The line symbol of pair `p` of a character (R63). -/
def pairOnLine (c : Config) (ch : Chr) (p : Nat) : Line :=
  lineSymbol c (ch.getLsbD (2 * p)) (ch.getLsbD (2 * p + 1))

/-- ENC (R131): the four line symbols of a character, in line order. -/
def encodeChr (c : Config) (ch : Chr) : List Line :=
  [pairOnLine c ch (pairIndex c 0), pairOnLine c ch (pairIndex c 1),
   pairOnLine c ch (pairIndex c 2), pairOnLine c ch (pairIndex c 3)]

/-- The line symbols of a text, characters in index order (R64, 30_encoding R94). -/
def encodeText (c : Config) (t : Text) : List Line := t.flatMap (encodeChr c)

/-- Writes the two payload bits of a line symbol as pair `p` of a character; the other bits of the
symbol are not looked at (R136). -/
def putPair (c : Config) (acc : Chr) (p : Nat) (b : Line) : Chr :=
  setChrBit (setChrBit acc (2 * p) (b.testBit c.pLo)) (2 * p + 1) (b.testBit c.pHi)

/-- DEC (R133): the character of four line symbols in line order. -/
def decodeChr (c : Config) (b0 b1 b2 b3 : Line) : Chr :=
  putPair c (putPair c (putPair c (putPair c 0 (pairIndex c 0) b0) (pairIndex c 1) b1)
    (pairIndex c 2) b2) (pairIndex c 3) b3

/-- A line symbol that ENC can give under this configuration: its bits that are no payload are `FILL`'s
(30_encoding R91, R92). -/
def isSent (c : Config) (b : Line) : Bool :=
  lineSymbol c (b.testBit c.pLo) (b.testBit c.pHi) == b

end Sys2Proof.Machine
end

