-- ==== Sys2Proof/Syntax.lean ====
section
/-! DEFINITION. The operations and formats of the block: one constructor per row of
spec/opcode_table.json, and the form in which a request carries one (30_encoding R90, R118). -/

namespace Sys2Proof

/-- One constructor per row of spec/opcode_table.json. Host and step operations are R118's; the
line and descriptor forms are R91 to R94, R115, R121 (log 9). -/
inductive Instr where
  -- host operations
  | reset
  | xchg (q : Requester) (cmd : Text)
  | linkrd
  | poll (s : Nat) (tick : Int)
  | valueOf (s f : Nat)
  | hasPending (s f : Nat)
  | setmod (s m : Nat)
  -- step operations of unit T
  | enc (c : Chr)
  | decb (b : Line)
  | dec (b0 b1 b2 b3 : Line)
  | drain
  | txcmd (cmd : Text)
  | rxresp
  | strip (raw : Text)
  | acq (q : Requester)
  | rel
  -- step operations of unit F
  | hexw (t : Text) (off w : Nat)
  | fdec (word : Nat)
  | fbin (word lo n : Nat) (inv : Bool)
  | fpar (word lo n : Nat)
  | decode (s : Nat) (t : Text)
  -- step operation of unit D
  | upd (s f new now : Nat)
  -- forms of the line
  | ls (h l : Bool)
  | sym0
  | sym1
  | sym2
  | sym3
  | lsRx (b : Line)
  | cf (c : Chr)
  | term
  -- packed descriptors
  | ldDecimal (skip ign : Bool) (off w : Nat)
  | lbBinary (inv ign : Bool) (k lo n : Nat)
  | lbParityCount (ign : Bool) (k lo n : Nat)
  | lReserved (x : Nat)
deriving DecidableEq, Repr

/-- The format a request's bytes are in (R90). The three readings of a line symbol (by its payload
bits, as one of the four default symbols, as received) and the packed descriptors have one form
each (log 7, log 8). -/
inductive Form where
  | ho
  | ls
  | sym
  | lsRx
  | cf
  | xf
  | descr
deriving DecidableEq, Repr

/-- A request at a port: a format and its bytes (log 7). -/
structure Request where
  form  : Form
  bytes : List Byte
deriving DecidableEq, Repr

end Sys2Proof
end

