-- ==== Sys2Proof/WellFormed.lean ====
section
/-! DEFINITION. Well-formed layouts (30_encoding R114), configurations (00_scope R9, R10) and
operands (30_encoding R118, R121; 42_debouncer R224), each check under its own name. -/

namespace Sys2Proof

/-- The checks of R114 that a record of R110 can fail (`inv_binary_only` cannot fail). -/
inductive LayoutCheck where
  | wordsFirst
  | chunkWidth
  | chunkInRange
  | wordExists
  | spanWidth
  | spanInWord
  | ignoreClosed
  | valueFits
deriving DecidableEq, Repr

/-- The width in bits, `4 * w`, of word `k` of a layout; 0 where there is no such word. -/
def wordBits (layout : List Descr) (k : Nat) : Nat :=
  match layout[k]? with
  | some (.decimal _ w _ _) => 4 * w
  | _ => 0

/-- Whether word `k` of a layout is skipped (10_state R39). -/
def wordSkipped (layout : List Descr) (k : Nat) : Bool :=
  match layout[k]? with
  | some (.decimal _ _ _ s) => s
  | _ => false

/-- `words_first`: no Decimal descriptor stands after a descriptor of another kind. -/
def wordsFirst : List Descr → Bool
  | [] => true
  | d :: ds => if d.isDecimal then wordsFirst ds else ds.all (fun e => !e.isDecimal)

/-- A span of `n` bits at bit `lo` of word `k`: `word_exists`, `span_width`, `span_in_word`. -/
def spanOk (chk : LayoutCheck) (c : StoreConfig) (k lo n : Nat) : Bool :=
  match chk with
  | .wordExists => decide (k < c.nw)
  | .spanWidth => decide (1 ≤ n ∧ n ≤ 32)
  | .spanInWord => decide (lo + n ≤ wordBits c.layout k)
  | _ => true

/-- One check of R114 on one descriptor of store `c`. -/
def descrOk (valW : Nat) (c : StoreConfig) (chk : LayoutCheck) : Descr → Bool
  | .decimal off w ign skip =>
    match chk with
    | .chunkWidth => decide (1 ≤ w ∧ w ≤ 8)
    | .chunkInRange => decide (off + w ≤ c.respLen)
    | .valueFits => decide (4 * w ≤ valW)
    | .ignoreClosed => !skip || ign
    | _ => true
  | .binary k lo n _ ign =>
    if chk = .ignoreClosed then !wordSkipped c.layout k || ign else spanOk chk c k lo n
  | .parityCount k lo n ign =>
    if chk = .ignoreClosed then !wordSkipped c.layout k || ign else spanOk chk c k lo n

/-- One check of R114 on a whole layout. -/
def layoutOk (valW : Nat) (c : StoreConfig) (chk : LayoutCheck) : Bool :=
  match chk with
  | .wordsFirst => wordsFirst c.layout
  | _ => c.layout.all (descrOk valW c chk)

def layoutChecks : List LayoutCheck :=
  [.wordsFirst, .chunkWidth, .chunkInRange, .wordExists, .spanWidth, .spanInWord, .ignoreClosed,
   .valueFits]

/-- The checks of R10 and of the types of R9 (`payloadTypes`, `lockGrant`, `storeCount`,
`expiryRange`). -/
inductive ConfigCheck where
  | payloadPositions
  | payloadTypes
  | lockGrant
  | terminatorLength
  | retryBound
  | responseLength
  | commandLength
  | storeCount
  | expiryRange
  | layout (c : LayoutCheck)
deriving DecidableEq, Repr

/-- One check on a configuration (R10) or on a type of R9: `P_LO`, `P_HI` in 0..7, `FILL` of 8 bits;
a `LOCK_GRANT` that grants the lock to somebody; 6 to 14 stores; an expiry below `2 ^ TS_W`. -/
def Config.ok (c : Config) : ConfigCheck → Bool
  | .payloadPositions => decide (c.pLo ≠ c.pHi ∧ c.pLo < c.lineW ∧ c.pHi < c.lineW)
  | .payloadTypes => decide (c.pLo ≤ 7 ∧ c.pHi ≤ 7 ∧ c.fill < 2 ^ 8)
  | .lockGrant => !c.lockGrant.isEmpty
  | .terminatorLength => decide (c.term.length = Config.termLen)
  | .retryBound =>
    c.stores.all fun s => decide (4 * (c.prefixLen + Config.termLen + s.respLen) ≤ c.retryMax)
  | .responseLength => c.stores.all fun s => decide (c.prefixLen < s.respLen)
  | .commandLength => c.stores.all fun s => decide (s.cmd.length ≤ c.cmdMax)
  | .storeCount => decide (6 ≤ c.stores.length ∧ c.stores.length ≤ 14)
  | .expiryRange => c.stores.all fun s => decide (s.expiry < 2 ^ c.tsW)
  | .layout chk => c.stores.all fun s => layoutOk c.valW s chk

def configChecks : List ConfigCheck :=
  [.payloadPositions, .payloadTypes, .lockGrant, .terminatorLength, .retryBound, .responseLength,
   .commandLength, .storeCount, .expiryRange] ++ layoutChecks.map .layout

/-- A well-formed configuration (R10). -/
def Config.wf (c : Config) : Bool := configChecks.all c.ok

/-- The checks on operands: an index in range (R121, R224), a value of its format's width (R118). -/
inductive OperandCheck where
  | storeIndex
  | fieldIndex
  | commandLength
  | tickRange
  | modulusRange
  | lineSymbolRange
  | valueRange
  | timeRange
deriving DecidableEq, Repr

def Config.storeIndexOk (c : Config) (s : Nat) : OperandCheck × Bool :=
  (.storeIndex, decide (s < c.stores.length))

def Config.fieldIndexOk (c : Config) (s f : Nat) : OperandCheck × Bool :=
  (.fieldIndex, match c.stores[s]? with
    | some sc => decide (f < sc.nf)
    | none => false)

def Config.commandOk (c : Config) (cmd : Text) : OperandCheck × Bool :=
  (.commandLength, decide (cmd.length ≤ c.cmdMax))

def Config.tickOk (c : Config) (tick : Int) : OperandCheck × Bool :=
  (.tickRange, decide (-(2 ^ c.tickW : Int) ≤ 2 * tick ∧ 2 * tick < 2 ^ c.tickW))

def Config.symbolOk (c : Config) (b : Line) : OperandCheck × Bool :=
  (.lineSymbolRange, decide (b < 2 ^ c.lineW))

def Config.valueOk (c : Config) (v : Nat) : OperandCheck × Bool :=
  (.valueRange, decide (v < 2 ^ c.valW))

/-- `new` is a value DECODE can give field `f` of store `s` (42_debouncer R202, 10_state R41). -/
def Config.fieldValueOk (c : Config) (s f v : Nat) : OperandCheck × Bool :=
  (.valueRange, match (c.stores[s]?).bind fun sc => sc.layout[f]? with
    | some d => decide (v < d.values)
    | none => true)

/-- The checks an operation's operands must pass under a configuration. A `word` operand fits
`VAL_W` bits (`value_fits` of R114). An operation whose operands lie outside the domain its rule
names but inside their format is not refused: logs 16 to 19. -/
def Instr.checks (c : Config) : Instr → List (OperandCheck × Bool)
  | .xchg _ cmd => [c.commandOk cmd]
  | .poll s tick => [c.storeIndexOk s, c.tickOk tick]
  | .valueOf s f => [c.storeIndexOk s, c.fieldIndexOk s f]
  | .hasPending s f => [c.storeIndexOk s, c.fieldIndexOk s f]
  | .setmod s m => [c.storeIndexOk s, (.modulusRange, decide (m < 2 ^ c.modW))]
  | .decb b => [c.symbolOk b]
  | .dec b0 b1 b2 b3 => [c.symbolOk b0, c.symbolOk b1, c.symbolOk b2, c.symbolOk b3]
  | .txcmd cmd => [c.commandOk cmd]
  | .fdec word => [c.valueOk word]
  | .fbin word _ _ _ => [c.valueOk word]
  | .fpar word _ _ => [c.valueOk word]
  | .decode s _ => [c.storeIndexOk s]
  | .upd s f new now =>
    [c.storeIndexOk s, c.fieldIndexOk s f, c.valueOk new,
     c.fieldValueOk s f new, (.timeRange, decide (now < 2 ^ c.tsW))]
  | .lsRx b => [c.symbolOk b]
  | .reset | .linkrd | .enc _ | .drain | .rxresp | .strip _ | .acq _ | .rel | .hexw _ _ _
  | .ls _ _ | .sym0 | .sym1 | .sym2 | .sym3 | .cf _ | .term | .ldDecimal _ _ _ _
  | .lbBinary _ _ _ _ _ | .lbParityCount _ _ _ _ | .lReserved _ => []

/-- The first check an operation's operands fail, if any. -/
def Instr.failedCheck (c : Config) (i : Instr) : Option OperandCheck :=
  ((i.checks c).find? fun k => !k.2).map Prod.fst

/-- A well-formed operation: every operand in the range its format gives it. -/
def Instr.wf (c : Config) (i : Instr) : Bool := (i.checks c).all Prod.snd

end Sys2Proof
end

