-- ==== Sys2Proof/Decode.lean ====
section
/-! DEFINITION. Decoding a request into an operation and encoding it back. The operation numbers are
30_encoding R118's; the line forms are R91 to R94 under the parameters of the configuration; the packed
descriptors are R115. The bytes that carry operands after an operation number, and a line symbol wider
or narrower than 8 bits, are the model's convention (log 7). -/

namespace Sys2Proof

open Sys2Proof.Machine (lineSymbol isSent encodeChr encodeText decodeChr)

/-! ### Numbers and texts in bytes -/

/-- The number whose bytes these are, least significant first. -/
def leNat : List Byte → Nat
  | [] => 0
  | b :: bs => b.toNat + 256 * leNat bs

/-- The `k` low bytes of `v`, least significant first. -/
def leBytes : Nat → Nat → List Byte
  | 0, _ => []
  | k + 1, v => BitVec.ofNat 8 v :: leBytes k (v / 256)

/-- The number whose bytes these are, most significant first. -/
def beNat (bs : List Byte) : Nat := leNat bs.reverse

/-- The `k` low bytes of `v`, most significant first. -/
def beBytes (k v : Nat) : List Byte := (leBytes k v).reverse

/-- The first `k` bytes and the rest, if there are so many. -/
def splitBytes (k : Nat) (bs : List Byte) : Option (List Byte × List Byte) :=
  if k ≤ bs.length then some (bs.take k, bs.drop k) else none

/-- A numeric operand: 8 bytes, least significant first. -/
def readNum (bs : List Byte) : Option (Nat × List Byte) :=
  (splitBytes 8 bs).map fun p => (leNat p.1, p.2)

def writeNum (v : Nat) : List Byte := leBytes 8 v

/-- A signed operand: 8 bytes, two's complement. -/
def readInt (bs : List Byte) : Option (Int × List Byte) :=
  (readNum bs).map fun p => (if p.1 < 2 ^ 63 then (p.1 : Int) else (p.1 : Int) - 2 ^ 64, p.2)

def writeInt (v : Int) : List Byte := writeNum (v % 2 ^ 64).toNat

/-- A text operand: its length as a number, then its characters. -/
def readText (bs : List Byte) : Option (Text × List Byte) :=
  (readNum bs).bind fun p => splitBytes p.1 p.2

def writeText (t : Text) : List Byte := writeNum t.length ++ t

/-- One byte that is 0 or 1. -/
def readBool : List Byte → Option (Bool × List Byte)
  | [] => none
  | b :: bs => if b = 0 then some (false, bs) else if b = 1 then some (true, bs) else none

def writeBool (v : Bool) : List Byte := [if v then 1 else 0]

/-- A requester: `POLLQ` is 0, `REQQ` is 1. -/
def readRequester (bs : List Byte) : Option (Requester × List Byte) :=
  (readBool bs).map fun p => (if p.1 then .reqq else .pollq, p.2)

def writeRequester (q : Requester) : List Byte := writeBool (q = .reqq)

/-! ### Operations (form HO) -/

/-- The operands of the operation with number `op` (R118); none for an unassigned number. -/
def readOperands (op : Nat) (bs : List Byte) : Option (Instr × List Byte) :=
  match op with
  | 0x00 => some (.reset, bs)
  | 0x01 => (readRequester bs).bind fun q => (readText q.2).map fun t => (.xchg q.1 t.1, t.2)
  | 0x02 => some (.linkrd, bs)
  | 0x10 => (readNum bs).bind fun s => (readInt s.2).map fun k => (.poll s.1 k.1, k.2)
  | 0x11 => (readNum bs).bind fun s => (readNum s.2).map fun f => (.valueOf s.1 f.1, f.2)
  | 0x12 => (readNum bs).bind fun s => (readNum s.2).map fun f => (.hasPending s.1 f.1, f.2)
  | 0x13 => (readNum bs).bind fun s => (readNum s.2).map fun m => (.setmod s.1 m.1, m.2)
  | 0x80 => (splitBytes 1 bs).map fun p => (.enc (p.1.headD 0), p.2)
  | 0x81 => (readNum bs).map fun b => (.decb b.1, b.2)
  | 0x82 =>
    (readNum bs).bind fun b0 => (readNum b0.2).bind fun b1 => (readNum b1.2).bind fun b2 =>
      (readNum b2.2).map fun b3 => (.dec b0.1 b1.1 b2.1 b3.1, b3.2)
  | 0x83 => some (.drain, bs)
  | 0x84 => (readText bs).map fun t => (.txcmd t.1, t.2)
  | 0x85 => some (.rxresp, bs)
  | 0x86 => (readText bs).map fun t => (.strip t.1, t.2)
  | 0x87 => (readRequester bs).map fun q => (.acq q.1, q.2)
  | 0x88 => some (.rel, bs)
  | 0x90 =>
    (readText bs).bind fun t => (readNum t.2).bind fun off => (readNum off.2).map fun w =>
      (.hexw t.1 off.1 w.1, w.2)
  | 0x91 => (readNum bs).map fun w => (.fdec w.1, w.2)
  | 0x92 =>
    (readNum bs).bind fun w => (readNum w.2).bind fun lo => (readNum lo.2).bind fun n =>
      (readBool n.2).map fun v => (.fbin w.1 lo.1 n.1 v.1, v.2)
  | 0x93 =>
    (readNum bs).bind fun w => (readNum w.2).bind fun lo => (readNum lo.2).map fun n =>
      (.fpar w.1 lo.1 n.1, n.2)
  | 0x94 => (readNum bs).bind fun s => (readText s.2).map fun t => (.decode s.1 t.1, t.2)
  | 0xA0 =>
    (readNum bs).bind fun s => (readNum s.2).bind fun f => (readNum f.2).bind fun v =>
      (readNum v.2).map fun now => (.upd s.1 f.1 v.1 now.1, now.2)
  | _ => none

/-- An operation number and its operands at the head of some bytes, and the bytes after it. -/
def readHost : List Byte → Option (Instr × List Byte)
  | [] => none
  | op :: bs => readOperands op.toNat bs

/-! ### Line symbols (forms LS, SYM, LS.RX, CF, XF) -/

/-- The bytes of a line symbol in a request: 1 with the default `LINE_W`, enough of them with any. -/
def symbolSize (c : Config) : Nat := (c.lineW + 7) / 8

/-- Line symbols in a request, in line order, each least significant byte first (log 7). -/
def symbolBytes (c : Config) (l : List Line) : List Byte := l.flatMap (leBytes (symbolSize c))

/-- Exactly `n` line symbols. -/
def readSymbols (c : Config) : Nat → List Byte → Option (List Line)
  | 0, bs => if bs = [] then some [] else none
  | n + 1, bs =>
    (splitBytes (symbolSize c) bs).bind fun p => (readSymbols c n p.2).map (leNat p.1 :: ·)

/-- Exactly `n` line symbols that ENC can give (R92: "No other value is ever transmitted"). -/
def readSent (c : Config) (n : Nat) (bs : List Byte) : Option (List Line) :=
  (readSymbols c n bs).filter fun l => l.all (isSent c)

/-- The form LS: a symbol by its payload bits (R91). -/
def decodeLs (c : Config) (bs : List Byte) : Option Instr :=
  match readSent c 1 bs with
  | some [b] => some (.ls (b.testBit c.pHi) (b.testBit c.pLo))
  | _ => none

/-- The four symbols under their own names (R92). -/
def decodeNamedSymbol (c : Config) (bs : List Byte) : Option Instr :=
  match readSent c 1 bs with
  | some [b] =>
    match b.testBit c.pHi, b.testBit c.pLo with
    | false, false => some .sym0
    | false, true => some .sym1
    | true, false => some .sym2
    | true, true => some .sym3
  | _ => none

/-- A symbol as it is received (R91, 40_transport R136). -/
def decodeReceived (c : Config) (bs : List Byte) : Option Instr :=
  match readSymbols c 1 bs with
  | some [b] => some (.lsRx b)
  | _ => none

/-- A character frame, first symbol first (R93, R97). -/
def decodeFrame (c : Config) (bs : List Byte) : Option Instr :=
  match readSent c 4 bs with
  | some [b0, b1, b2, b3] => some (.cf (decodeChr c b0 b1 b2 b3))
  | _ => none

/-- The frame of the terminator (R94). -/
def terminatorFrame (c : Config) : List Byte := symbolBytes c (encodeText c c.term)

/-! ### Packed descriptors (R115) -/

/-- Bits `hi` down to `lo` of `v`, as a number (00_scope R11). -/
def bitsOf (v hi lo : Nat) : Nat := v / 2 ^ lo % 2 ^ (hi + 1 - lo)

/-- A packed descriptor word (R115): kind in bits 31:30; the bits R115 gives as 0 must be 0, and
`inv` on a ParityCount descriptor is refused (R121). -/
def decodeDescr (v : Nat) : Option Instr :=
  match bitsOf v 31 30 with
  | 0 =>
    if bitsOf v 15 0 = 0 then
      some (.ldDecimal (bitsOf v 29 29 = 1) (bitsOf v 28 28 = 1) (bitsOf v 27 20) (bitsOf v 19 16))
    else none
  | 1 =>
    if bitsOf v 8 0 = 0 then
      some (.lbBinary (bitsOf v 29 29 = 1) (bitsOf v 28 28 = 1) (bitsOf v 27 20) (bitsOf v 19 15)
        (bitsOf v 14 9))
    else none
  | 2 =>
    if bitsOf v 29 29 = 0 ∧ bitsOf v 8 0 = 0 then
      some (.lbParityCount (bitsOf v 28 28 = 1) (bitsOf v 27 20) (bitsOf v 19 15) (bitsOf v 14 9))
    else none
  | _ => some (.lReserved (bitsOf v 29 0))

/-- The word of a packed descriptor (R115). -/
def descrWord (kind b29 b28 : Nat) (rest : Nat) : Nat :=
  kind * 2 ^ 30 + b29 * 2 ^ 29 + b28 * 2 ^ 28 + rest

/-! ### Requests -/

/-- The operation a request carries under a configuration; none where its bytes are not of its
form. -/
def decode (c : Config) (r : Request) : Option Instr :=
  match r.form with
  | .ho =>
    match readHost r.bytes with
    | some (i, []) => some i
    | _ => none
  | .ls => decodeLs c r.bytes
  | .sym => decodeNamedSymbol c r.bytes
  | .lsRx => decodeReceived c r.bytes
  | .cf => decodeFrame c r.bytes
  | .xf => if r.bytes = terminatorFrame c then some .term else none
  | .descr => if r.bytes.length = 4 then decodeDescr (beNat r.bytes) else none

/-- A host-form request: operation number (R118), then operands. -/
def hostRequest (op : Byte) (operands : List Byte) : Request := ⟨.ho, op :: operands⟩

/-- The request that carries an operation under a configuration. -/
def encode (c : Config) : Instr → Request
  | .reset => hostRequest 0x00 []
  | .xchg q cmd => hostRequest 0x01 (writeRequester q ++ writeText cmd)
  | .linkrd => hostRequest 0x02 []
  | .poll s tick => hostRequest 0x10 (writeNum s ++ writeInt tick)
  | .valueOf s f => hostRequest 0x11 (writeNum s ++ writeNum f)
  | .hasPending s f => hostRequest 0x12 (writeNum s ++ writeNum f)
  | .setmod s m => hostRequest 0x13 (writeNum s ++ writeNum m)
  | .enc ch => hostRequest 0x80 [ch]
  | .decb b => hostRequest 0x81 (writeNum b)
  | .dec b0 b1 b2 b3 => hostRequest 0x82 (writeNum b0 ++ writeNum b1 ++ writeNum b2 ++ writeNum b3)
  | .drain => hostRequest 0x83 []
  | .txcmd cmd => hostRequest 0x84 (writeText cmd)
  | .rxresp => hostRequest 0x85 []
  | .strip raw => hostRequest 0x86 (writeText raw)
  | .acq q => hostRequest 0x87 (writeRequester q)
  | .rel => hostRequest 0x88 []
  | .hexw t off w => hostRequest 0x90 (writeText t ++ writeNum off ++ writeNum w)
  | .fdec word => hostRequest 0x91 (writeNum word)
  | .fbin word lo n inv =>
    hostRequest 0x92 (writeNum word ++ writeNum lo ++ writeNum n ++ writeBool inv)
  | .fpar word lo n => hostRequest 0x93 (writeNum word ++ writeNum lo ++ writeNum n)
  | .decode s t => hostRequest 0x94 (writeNum s ++ writeText t)
  | .upd s f new now =>
    hostRequest 0xA0 (writeNum s ++ writeNum f ++ writeNum new ++ writeNum now)
  | .ls h l => ⟨.ls, symbolBytes c [lineSymbol c l h]⟩
  | .sym0 => ⟨.sym, symbolBytes c [lineSymbol c false false]⟩
  | .sym1 => ⟨.sym, symbolBytes c [lineSymbol c true false]⟩
  | .sym2 => ⟨.sym, symbolBytes c [lineSymbol c false true]⟩
  | .sym3 => ⟨.sym, symbolBytes c [lineSymbol c true true]⟩
  | .lsRx b => ⟨.lsRx, symbolBytes c [b]⟩
  | .cf ch => ⟨.cf, symbolBytes c (encodeChr c ch)⟩
  | .term => ⟨.xf, terminatorFrame c⟩
  | .ldDecimal skip ign off w =>
    ⟨.descr, beBytes 4 (descrWord 0 skip.toNat ign.toNat (off * 2 ^ 20 + w * 2 ^ 16))⟩
  | .lbBinary inv ign k lo n =>
    ⟨.descr, beBytes 4 (descrWord 1 inv.toNat ign.toNat (k * 2 ^ 20 + lo * 2 ^ 15 + n * 2 ^ 9))⟩
  | .lbParityCount ign k lo n =>
    ⟨.descr, beBytes 4 (descrWord 2 0 ign.toNat (k * 2 ^ 20 + lo * 2 ^ 15 + n * 2 ^ 9))⟩
  | .lReserved x => ⟨.descr, beBytes 4 (3 * 2 ^ 30 + x)⟩

/-- A number that fits the 8 bytes of an operand. -/
abbrev fitsNum (v : Nat) : Prop := v < 2 ^ 64

/-- The operand values the encoding admits: 64-bit numbers, texts whose length is one, a received
symbol that fits a symbol's bytes, and the fields of a packed descriptor at their widths (R115). -/
abbrev Instr.encodable (c : Config) : Instr → Prop
  | .xchg _ cmd => fitsNum cmd.length
  | .poll s tick => fitsNum s ∧ -(2 ^ 63 : Int) ≤ tick ∧ tick < 2 ^ 63
  | .valueOf s f => fitsNum s ∧ fitsNum f
  | .hasPending s f => fitsNum s ∧ fitsNum f
  | .setmod s m => fitsNum s ∧ fitsNum m
  | .decb b => fitsNum b
  | .dec b0 b1 b2 b3 => fitsNum b0 ∧ fitsNum b1 ∧ fitsNum b2 ∧ fitsNum b3
  | .txcmd cmd => fitsNum cmd.length
  | .strip raw => fitsNum raw.length
  | .hexw t off w => fitsNum t.length ∧ fitsNum off ∧ fitsNum w
  | .fdec word => fitsNum word
  | .fbin word lo n _ => fitsNum word ∧ fitsNum lo ∧ fitsNum n
  | .fpar word lo n => fitsNum word ∧ fitsNum lo ∧ fitsNum n
  | .decode s t => fitsNum s ∧ fitsNum t.length
  | .upd s f new now => fitsNum s ∧ fitsNum f ∧ fitsNum new ∧ fitsNum now
  | .lsRx b => b < 256 ^ symbolSize c
  | .ldDecimal _ _ off w => off < 2 ^ 8 ∧ w < 2 ^ 4
  | .lbBinary _ _ k lo n => k < 2 ^ 8 ∧ lo < 2 ^ 5 ∧ n < 2 ^ 6
  | .lbParityCount _ k lo n => k < 2 ^ 8 ∧ lo < 2 ^ 5 ∧ n < 2 ^ 6
  | .lReserved x => x < 2 ^ 30
  | .reset | .linkrd | .enc _ | .drain | .rxresp | .acq _ | .rel | .ls _ _ | .sym0 | .sym1
  | .sym2 | .sym3 | .cf _ | .term => True

/-! ### Words as spec/opcode_table.json numbers them -/

/-- The most bytes of zeros an operation's operands can need. -/
def operandZeros : Nat := 40

/-- The request for the table word `w` of `nbits` bits, followed by operand bytes of zeros. The
table gives several rows the same bits, so the width and the value choose the form (log 8): 32 bits
are a character frame where they have its pattern and a packed descriptor otherwise; 64 bits are the
terminator frame; 8 bits are an operation number where it is assigned, one of the four symbols ENC
gives where they are one, and otherwise a received line symbol, the one row that is left. -/
def tableRequest (c : Config) (nbits w : Nat) : Request :=
  if nbits = 32 then
    if (decodeFrame c (beBytes 4 w)).isSome then ⟨.cf, beBytes 4 w⟩ else ⟨.descr, beBytes 4 w⟩
  else if nbits = 64 then
    if leBytes 8 w = terminatorFrame c then ⟨.xf, leBytes 8 w⟩ else ⟨.xf, beBytes 8 w⟩
  else
    let word := leBytes (nbits / 8) w
    let padded := word ++ List.replicate operandZeros 0
    match readHost padded with
    | some (_, rest) => ⟨.ho, padded.take (padded.length - rest.length)⟩
    | none =>
      if (decodeNamedSymbol c word).isSome then ⟨.sym, word⟩
      else if nbits = 8 then ⟨.lsRx, word⟩ else ⟨.ho, word⟩

/-- The operation the decoder reads from a table word, whose bits are the table's: under the default
parameters (log 8). -/
def decodeTableWord (nbits w : Nat) : Option Instr :=
  decode Config.atReset (tableRequest Config.atReset nbits w)

end Sys2Proof
end

