-- ==== Sys2Proof/Machine/State.lean ====
section
/-! DEFINITION. The state of the block (10_state R20 to R50) as plain data, the model's own fields
beside it, and the state after reset. -/

namespace Sys2Proof.Machine

/-- `T.lock` (R21): FREE or its owner. -/
inductive Lock where
  | free
  | held (q : Requester)
deriving DecidableEq, Repr

/-- `T.phase` (R24). -/
inductive Phase where
  | idle
  | drain
  | tx
  | rx
  | strip
deriving DecidableEq, Repr

/-- The statuses (60_exceptions R241). -/
inductive Status where
  | ok
  | timeout
  | missLength
  | missGarbled
  | notDue
deriving DecidableEq, Repr

/-- The code numbers of R241. -/
def Status.code : Status → Nat
  | .ok => 0
  | .timeout => 1
  | .missLength => 2
  | .missGarbled => 3
  | .notDue => 4

/-- What an operation hands back to its requester (30_encoding R118, column "result"). -/
inductive Result where
  /-- no result -/
  | none
  /-- one bit: LINKRD, POLL, HAS_PENDING, UPD -/
  | bit (b : Bool)
  /-- a value: VALUE_OF, FDEC, FBIN, FPAR -/
  | value (v : Nat)
  /-- a status and a text: XCHG, RXRESP -/
  | exchange (st : Status) (t : Text)
  /-- line symbols: ENC, and the forms of the line (log 9) -/
  | symbols (l : List Line)
  /-- an optional character: DECB -/
  | optChr (c : Option Chr)
  /-- a character: DEC -/
  | chr (c : Chr)
  /-- a text: STRIP -/
  | text (t : Text)
  /-- a word, or GARBLED: HEXW -/
  | word (w : Option Nat)
  /-- a value per un-ignored field, or GARBLED: DECODE -/
  | fields (m : Option (List (Option Nat)))
  /-- the record of a packed descriptor (30_encoding R110, R115; log 9) -/
  | descr (d : Descr)
deriving DecidableEq, Repr

/-- The transport framer `T` (R21, R22, R24 to R28). -/
structure Framer where
  lock   : Lock
  link   : Bool
  phase  : Phase
  txbuf  : Text
  txi    : Nat
  txg    : Nat
  rxacc  : Chr
  rxs    : Nat
  rxtext : Text
  tries  : Nat
deriving DecidableEq, Repr

/-- A field-state record (R40 to R46). -/
structure FieldRec where
  cur  : Nat
  prev : Nat
  ts   : Nat
  pts  : Nat
  pend : Bool
  ign  : Bool
deriving DecidableEq, Repr

/-- A store `S[s]`: its polling modulus (R35) and its field-state array (R40). -/
structure Store where
  mod    : Nat
  fields : List FieldRec
deriving DecidableEq, Repr

/-- The model's own account of the environment (00_scope R17): scripts of what the peer, the clock
and the scheduler will do, each with a counter into the free value that goes on where the script
ends (logs 4, 5, 6), the requests each agent has issued (log 27), and in `seqPort` the parts of an
exchange that the sequencer is to run one at a time (30_encoding R118 "tested alone"; log 10). -/
structure Env where
  arrivals  : List (List Line)
  arrivalN  : Nat
  clock     : List Nat
  clockN    : Nat
  sched     : List Agent
  schedN    : Nat
  pollPort  : List Request
  reqPort   : List Request
  peerPort  : List Request
  seqPort   : List Request
deriving DecidableEq, Repr

/-- The state (R20): `T`, the stores, `RXQ` (R23), `TXS` (R29), the time counter (R30); the
configuration, which no step changes (log 1); and the model's own `out`, `status` (log 13), `env`. -/
structure State where
  cfg    : Config
  t      : Framer
  rxq    : List Line
  txs    : List Line
  time   : Nat
  stores : List Store
  out    : Result
  status : Status
  env    : Env
deriving DecidableEq, Repr

/-- Nothing in the block stops it: every condition the spec names is a returned status, a next state
(60_exceptions R240; log 25). So there is no fault. -/
inductive Fault where
deriving DecidableEq, Repr

/-- Why a step has no meaning (30_encoding R121, 42_debouncer R224, 93_implementation_defined U13
to U16). Each is safe: the model stops where the spec gives no meaning. -/
inductive Refusal where
  /-- An arm of `exec` without a meaning; raised by none (safe). -/
  | notModelled (mnemonic : String)
  /-- Raised by `step`: the configuration fails a check of 00_scope R10 or 30_encoding R114 (safe). -/
  | illFormedConfiguration
  /-- Raised by `step`: an unassigned operation number, or bytes that are not of the request's form
  (R121; safe). -/
  | badRequest
  /-- Raised by `step` and by the store operations: an index out of range or an operand wider than
  its format (R121, R224; safe). -/
  | badOperand (c : OperandCheck)
  /-- Raised by `step`: an operation issued by an agent it is not routed to (60_exceptions R257,
  93 U15; safe). -/
  | wrongRequester
  /-- Raised by RESET while the lock is taken (70_reset R271, 93 U16; safe). -/
  | resetDuringExchange
  /-- Raised by L.reserved: descriptor kind 0b11 (30_encoding R115, R121; safe). -/
  | reservedDescriptor
deriving DecidableEq, Repr

/-- `T` after RESET (R50, R270). -/
def Framer.reset : Framer :=
  { lock := .free, link := false, phase := .idle, txbuf := [], txi := 0, txg := 0, rxacc := 0,
    rxs := 0, rxtext := [], tries := 0 }

/-- A field record after RESET: zeros, and `ign` from the layout (R46, R50). -/
def FieldRec.reset (d : Descr) : FieldRec :=
  { cur := 0, prev := 0, ts := 0, pts := 0, pend := false, ign := d.ign }

/-- A store after RESET (R50). -/
def Store.reset (c : StoreConfig) : Store :=
  { mod := 0, fields := c.layout.map FieldRec.reset }

/-- An environment of which nothing is listed: everything it does is a free value. -/
def Env.unlisted : Env :=
  { arrivals := [], arrivalN := 0, clock := [], clockN := 0, sched := [], schedN := 0,
    pollPort := [], reqPort := [], peerPort := [], seqPort := [] }

/-- The state right after RESET of a block with configuration `c`, its time counter at `time`, in
the environment `env` (R50, R270). -/
def State.resetFor (c : Config) (time : Nat) (env : Env) : State :=
  { cfg := c, t := .reset, rxq := [], txs := [], time := time, stores := c.stores.map Store.reset,
    out := .none, status := .ok, env := env }

/-- The state right after reset, for the configuration of log 1, the time counter at 0 (log 5). -/
def State.reset : State := State.resetFor Config.atReset 0 Env.unlisted

end Sys2Proof.Machine
end

