-- ==== Sys2Proof/Machine/Operands.lean ====
section
/-! DEFINITION. The pure functions of the rules: the decoder and texts (40_transport R134, R147,
R153, R157), hex chunks and field values (41_field_decoder R171 to R178), the gate of a poll
(42_debouncer R206). Line symbols and characters are in Machine/Line.lean. -/

namespace Sys2Proof.Machine

/-! ### Unit T: the decoder and texts -/

/-- Where DECB writes the lower bit of the pair when `T.rxs` is `s` (R134). -/
def decbOffset (c : Config) (s : Nat) : Nat :=
  match c.pairOrder with
  | .lspFirst => s
  | .mspFirst => 6 - s

/-- DECB (R134) on the decoder state (`T.rxacc`, `T.rxs`): the new state and the character, if the
symbol completed one. -/
def decbStep (c : Config) (acc : Chr) (s : Nat) (b : Line) : Chr × Nat × Option Chr :=
  let acc' := setChrBit (setChrBit acc (decbOffset c s) (b.testBit c.pLo)) (decbOffset c s + 1)
    (b.testBit c.pHi)
  if s + 2 = 8 then (acc', 0, some acc') else (acc', s + 2, none)

/-- `endswith(t, u)` (00_scope R12). -/
def endsWith (t u : Text) : Bool := decide (u.length ≤ t.length) && t.drop (t.length - u.length) == u

/-- STRIP (R153) of a text that holds at least a terminator, with the fallback of R154; of a shorter
text the result is free (log 16). -/
def stripText (c : Config) (raw : Text) : Text :=
  if raw.length < Config.termLen then Config.stripShort raw
  else
    let body := raw.take (raw.length - Config.termLen)
    if c.prefixLen < body.length then body.drop c.prefixLen else body

/-- R157: the receive phase as a function of what each iteration observed, `some b` a line symbol
and `none` an empty queue; an iteration beyond the list observed an empty queue. -/
def rxObserved (c : Config) : Nat → List (Option Line) → Text → Chr → Nat → Status × Text
  | 0, _, _, _, _ => (.timeout, [])
  | n + 1, ev, text, acc, s =>
    if endsWith text c.term then (.ok, text)
    else
      match ev.headD none with
      | none => rxObserved c n ev.tail text acc s
      | some b =>
        let d := decbStep c acc s b
        rxObserved c n ev.tail (text ++ d.2.2.toList) d.1 d.2.1

/-- `rx(ev)` of R157. -/
def rxOf (c : Config) (ev : List (Option Line)) : Status × Text :=
  rxObserved c (c.retryMax + 1) ev [] 0 0

/-! ### Unit F: words and field values -/

/-- `ishex` and `hexdigit` (R172). -/
def hexDigit (c : Chr) : Option Nat :=
  let n := c.toNat
  if 0x30 ≤ n ∧ n ≤ 0x39 then some (n - 0x30)
  else if 0x41 ≤ n ∧ n ≤ 0x46 then some (n - 0x41 + 10)
  else if 0x61 ≤ n ∧ n ≤ 0x66 then some (n - 0x61 + 10)
  else none

/-- The loop of HEXW (R171): digits after a value `v`, most significant first; none is GARBLED. -/
def hexDigits : Text → Nat → Option Nat
  | [], v => some v
  | c :: cs, v =>
    match hexDigit c with
    | none => none
    | some d => hexDigits cs (v * 16 + d)

/-- HEXW (R171) on its domain. -/
def hexWord (t : Text) (off w : Nat) : Option Nat := hexDigits ((t.drop off).take w) 0

/-- The operand domain of HEXW (R171). -/
def hexwDomain (t : Text) (off w : Nat) : Bool := decide (off + w ≤ t.length ∧ 1 ≤ w ∧ w ≤ 8)

/-- FDEC (R173): the word itself; a word of a well-formed layout fits `VAL_W` bits. -/
def decimalValue (word : Nat) : Nat := word

/-- `word[lo+n-1:lo]` (00_scope R11, 30_encoding R99). -/
def spanBits (word lo n : Nat) : Nat := word / 2 ^ lo % 2 ^ n

/-- FBIN (R174): the span, every bit complemented if inverted (R99). -/
def binaryValue (word lo n : Nat) (inv : Bool) : Nat :=
  if inv then spanBits word lo n ^^^ (2 ^ n - 1) else spanBits word lo n

/-- FPAR (R175): how many of the bits `lo` to `lo + n - 1` of a word are 1. -/
def parityValue (word lo : Nat) : Nat → Nat
  | 0 => 0
  | n + 1 => parityValue word lo n + (word.testBit (lo + n)).toNat

/-- Pass 1 of DECODE (R177): per descriptor the word of a Decimal descriptor that is not skipped
and nothing otherwise; none as a whole is GARBLED (R178, R180). -/
def layoutWords (t : Text) : List Descr → Option (List (Option Nat))
  | [] => some []
  | .decimal off w _ false :: ds =>
    match hexWord t off w with
    | none => none
    | some v => (layoutWords t ds).map (some v :: ·)
  | _ :: ds => (layoutWords t ds).map (none :: ·)

/-- `W[k]`. Under a well-formed layout every word that is read was parsed (R177, check
`ignore_closed`). -/
def wordAt (words : List (Option Nat)) (k : Nat) : Nat := (words.getD k none).getD 0

/-- Pass 2 of DECODE (R177) for the field with index `f`. -/
def fieldValue (words : List (Option Nat)) (f : Nat) : Descr → Option Nat
  | .decimal _ _ ign _ => if ign then none else some (decimalValue (wordAt words f))
  | .binary k lo n inv ign => if ign then none else some (binaryValue (wordAt words k) lo n inv)
  | .parityCount k lo n ign => if ign then none else some (parityValue (wordAt words k) lo n)

/-- Pass 2 of DECODE for the fields from index `f` on. -/
def fieldValues (words : List (Option Nat)) : Nat → List Descr → List (Option Nat)
  | _, [] => []
  | f, d :: ds => fieldValue words f d :: fieldValues words (f + 1) ds

/-- DECODE (R177) of a text of the store's length: a value per un-ignored field, or GARBLED. -/
def decodeResponse (c : StoreConfig) (t : Text) : Option (List (Option Nat)) :=
  (layoutWords t c.layout).map fun words => fieldValues words 0 c.layout

/-! ### Unit D: the gate -/

/-- `due` (R206): the modulus is not 0 and divides the tick. -/
def due (m : Nat) (tick : Int) : Bool := decide (m ≠ 0 ∧ tick % (m : Int) = 0)

end Sys2Proof.Machine
end

