-- ==== Sys2Proof/Machine/Flags.lean ====
section
/-! DEFINITION. The flags of the block (10_state R33): the mark that sets `pend` (42_debouncer R201,
R202), the reads that clear it (R220, R222), and the expiry compare (60_exceptions R259). -/

namespace Sys2Proof.Machine

/-- The age of a field (R201, R203): modulo `2 ^ TS_W`. -/
def age (c : Config) (r : FieldRec) (now : Nat) : Nat :=
  (now + 2 ^ c.tsW - r.ts % 2 ^ c.tsW) % 2 ^ c.tsW

/-- The mark condition (R201); both comparisons are as the rule has them, the age's strict. -/
def marks (c : Config) (expiry : Nat) (r : FieldRec) (new now : Nat) : Bool :=
  decide (new ≠ r.cur ∨ expiry < age c r now)

/-- What a mark writes (R202). -/
def FieldRec.marked (r : FieldRec) (new now : Nat) : FieldRec :=
  { r with pts := r.ts, ts := now, prev := r.cur, cur := new, pend := true }

/-- UPD on one record (R202), and whether it was marked. A record with `ign = 1` is passed over
(R46, R212). -/
def FieldRec.update (c : Config) (expiry : Nat) (r : FieldRec) (new now : Nat) : FieldRec × Bool :=
  if r.ign then (r, false)
  else if marks c expiry r new now then (r.marked new now, true) else (r, false)

/-- Reading a field clears its flag (R220, R222). -/
def FieldRec.cleared (r : FieldRec) : FieldRec := { r with pend := false }

/-- The update loop of a POLL (R205, R211): fields in ascending index, one `now`; an ignored field
has no new value. The second result is the OR of the marks made. -/
def updateFields (c : Config) (expiry now : Nat) :
    List FieldRec → List (Option Nat) → List FieldRec × Bool
  | r :: rs, v :: vs =>
    let rest := updateFields c expiry now rs vs
    match v with
    | none => (r :: rest.1, rest.2)
    | some new =>
      let u := r.update c expiry new now
      (u.1 :: rest.1, u.2 || rest.2)
  | rs, _ => (rs, false)

end Sys2Proof.Machine
end

