-- ==== Sys2Proof/Machine/Ops.lean ====
section
/-! DEFINITION. The operations over the state that the meanings share: the line primitives of
00_scope R14, the parts of an exchange (40_transport R139 to R152), status returns (60_exceptions
R240, R241), stores and fields, and the requests a step takes. -/

namespace Sys2Proof.Machine

/-! ### Named updates of the state -/

def State.withT (s : State) (t : Framer) : State := { s with t := t }
def State.withRxq (s : State) (q : List Line) : State := { s with rxq := q }
def State.withTxs (s : State) (l : List Line) : State := { s with txs := l }
def State.withTime (s : State) (n : Nat) : State := { s with time := n }
def State.withStores (s : State) (l : List Store) : State := { s with stores := l }
/-- Hands a result back to the requester. -/
def State.withOut (s : State) (r : Result) : State := { s with out := r }
def State.withStatus (s : State) (st : Status) : State := { s with status := st }
def State.withEnv (s : State) (e : Env) : State := { s with env := e }
/-- `T.phase <- p`. -/
def State.withPhase (s : State) (p : Phase) : State := s.withT { s.t with phase := p }
/-- `T.link <- b`. -/
def State.withLink (s : State) (b : Bool) : State := s.withT { s.t with link := b }

/-! ### The line (00_scope R14) -/

/-- `TxPut` of several symbols in order. -/
def State.txPut (s : State) (l : List Line) : State := s.withTxs (s.txs ++ l)

/-- `RxClear()`. -/
def State.rxClear (s : State) : State := s.withRxq []

/-- One symbol arrives at the receive queue; a symbol has `LINE_W` bits. With a finite `RXQ_CAP`
the policy parameter says what a full queue loses (log 15). -/
def queueOne (c : Config) (q : List Line) (b : Line) : List Line :=
  match c.rxqCap with
  | none => q ++ [b % 2 ^ c.lineW]
  | some cap =>
    if q.length < cap then q ++ [b % 2 ^ c.lineW]
    else
      match c.rxqFull with
      | .dropNewest => q
      | .dropOldest => (q ++ [b % 2 ^ c.lineW]).drop (q.length + 1 - cap)

/-- Symbols arrive at the receive queue in order. -/
def State.peerPut (s : State) (l : List Line) : State :=
  s.withRxq (l.foldl (queueOne s.cfg) s.rxq)

/-- What the peer sends by the next receive iteration: the head of the script, or the free value
where the script has ended (00_scope R17, R157; log 4). -/
def State.peerMoves (s : State) : State :=
  match s.env.arrivals with
  | l :: rest => (s.withEnv { s.env with arrivals := rest }).peerPut l
  | [] =>
    (s.withEnv { s.env with arrivalN := s.env.arrivalN + 1 }).peerPut
      (Config.peerSends s.env.arrivalN)

/-- `Now()` (R14, 10_state R30): time passes by an amount nothing constrains, modulo `2 ^ TS_W`, and
the counter is read (log 5). -/
def State.readClock (s : State) : State :=
  match s.env.clock with
  | d :: rest =>
    (s.withEnv { s.env with clock := rest }).withTime ((s.time + d) % 2 ^ s.cfg.tsW)
  | [] =>
    (s.withEnv { s.env with clockN := s.env.clockN + 1 }).withTime
      ((s.time + Config.timePasses s.env.clockN) % 2 ^ s.cfg.tsW)

/-! ### Parts of an exchange -/

/-- The acquire step once the lock is FREE (40_transport R140): test and set are one step. -/
def State.acquire (s : State) (q : Requester) : State :=
  s.withT { s.t with lock := .held q, phase := .drain }

/-- DRAIN (R143). -/
def State.drainLine (s : State) : State := s.rxClear.withPhase .tx

/-- TXCMD (R144). The indices keep the values of the loop's last pass (log 22). -/
def State.transmit (s : State) (cmd : Text) : State :=
  (s.txPut (encodeText s.cfg (cmd ++ s.cfg.term))).withT
    { s.t with txbuf := cmd ++ s.cfg.term, txi := (cmd ++ s.cfg.term).length - 1,
               txg := Config.groups - 1, phase := .rx }

/-- DECB on the framer (R134): the framer after it, and the character if one was completed. -/
def Framer.decb (c : Config) (t : Framer) (b : Line) : Framer × Option Chr :=
  let d := decbStep c t.rxacc t.rxs b
  ({ t with rxacc := d.1, rxs := d.2.1 }, d.2.2)

/-- What the peer sends arrives, then one iteration of the receive loop (ITER, R146): pop and decode
the oldest symbol, or idle on an empty queue; either way `T.tries` counts it. -/
def State.iterate (s : State) : State :=
  let p := s.peerMoves
  match p.rxq with
  | [] => p.withT { p.t with tries := p.t.tries + 1 }
  | b :: q =>
    let d := p.t.decb p.cfg b
    (p.withRxq q).withT
      { d.1 with rxtext := d.1.rxtext ++ d.2.toList, tries := d.1.tries + 1 }

/-- The first line of RXRESP (R145). -/
def State.startRx (s : State) : State :=
  s.withT { s.t with rxtext := [], rxacc := 0, rxs := 0, tries := 0 }

/-- What was decoded so far, the text and the partial character, is dropped (R149; 10_state R26;
log 23). -/
def State.dropDecoded (s : State) : State := s.withT { s.t with rxtext := [], rxacc := 0, rxs := 0 }

/-- The loop of RXRESP (R145) with `n` iterations left before `T.tries` exceeds `RETRY_MAX`: the
terminator test is at the head of each pass (R147), the retry test after each iteration (R250). On
TIMEOUT what was decoded is dropped (R149). -/
def State.rxLoop : Nat → State → Status × Text × State
  | 0, s => (.timeout, [], s.dropDecoded.withPhase .idle)
  | n + 1, s =>
    if endsWith s.t.rxtext s.cfg.term then (.ok, s.t.rxtext, s.withPhase .strip)
    else State.rxLoop n s.iterate

/-- RXRESP (R145, R149): at most `RETRY_MAX + 1` iterations. -/
def State.receive (s : State) : Status × Text × State :=
  State.rxLoop (s.cfg.retryMax + 1) s.startRx

/-- REL (R152). -/
def State.release (s : State) : State := s.withT { s.t with lock := .free, phase := .idle }

/-- RETURNING A STATUS (60_exceptions R240, R241), which is what the block does in place of taking
an exception: nothing is saved and no control moves; `OK` writes `T.link <- 1` (40_transport R148),
`TIMEOUT` writes `T.link <- 0` (R149), the other three write nothing. The ghost `status` records
which it was (R244; log 13). There is no return from it (R252). -/
def State.returnStatus (s : State) (st : Status) : State :=
  match st with
  | .ok => (s.withLink true).withStatus .ok
  | .timeout => (s.withLink false).withStatus .timeout
  | .missLength => s.withStatus .missLength
  | .missGarbled => s.withStatus .missGarbled
  | .notDue => s.withStatus .notDue

/-- The state in which an exchange's receive phase starts. -/
def State.sent (s : State) (q : Requester) (cmd : Text) : State :=
  ((s.acquire q).drainLine).transmit cmd

/-- The end of XCHG after RXRESP answered `(st, raw)` (R139): the link flag, STRIP, REL. -/
def State.endExchange (s : State) (st : Status) (raw : Text) : Status × Text × State :=
  match st with
  | .ok => (.ok, stripText s.cfg raw, (s.returnStatus .ok).release)
  | _ => (.timeout, [], (s.returnStatus .timeout).release)

/-- XCHG from the moment the lock is FREE (R139): status, response text, state. -/
def State.exchange (s : State) (q : Requester) (cmd : Text) : Status × Text × State :=
  let r := (s.sent q cmd).receive
  r.2.2.endExchange r.1 r.2.1

/-- A part of an exchange runs in its phase, while the lock is taken (10_state R24, 20_memory R61,
R78, R81). -/
def State.inPhase (s : State) (p : Phase) : Bool := s.t.lock != .free && s.t.phase == p

/-- REL ends an exchange: after its response (STRIP) or its timeout (IDLE, R145). -/
def State.atEnd (s : State) : Bool := s.inPhase .strip || s.inPhase .idle

/-! ### Stores and fields -/

/-- Field `f` of store `k`, with the store's constants; none for an index out of range (R224). -/
def State.fieldAt (s : State) (k f : Nat) : Option (StoreConfig × FieldRec) :=
  match s.cfg.stores[k]?, s.stores[k]? with
  | some c, some st => (st.fields[f]?).map fun r => (c, r)
  | _, _ => none

/-- `FieldWrite(s, f, rec)` (00_scope R13). -/
def State.writeField (s : State) (k f : Nat) (r : FieldRec) : State :=
  s.withStores (s.stores.modify k fun st => { st with fields := st.fields.set f r })

/-- The refusal of an index out of range (R121, R224). -/
def badIndex (c : OperandCheck) : Host.Outcome State Fault Refusal := .refused (.badOperand c)

/-- RESET (70_reset R270): every element of R50; the time counter and the environment are inputs and
keep what they hold (R30, R272; log 26). -/
def State.resetBlock (s : State) : State := State.resetFor s.cfg s.time s.env

/-! ### Requests and the agents' turns -/

/-- The requests an agent has issued and the block has not taken. -/
def Env.port (e : Env) : Agent → List Request
  | .pollq => e.pollPort
  | .reqq => e.reqPort
  | .peer => e.peerPort
  | .sequencer _ => e.seqPort

def Env.withPort (e : Env) (a : Agent) (l : List Request) : Env :=
  match a with
  | .pollq => { e with pollPort := l }
  | .reqq => { e with reqPort := l }
  | .peer => { e with peerPort := l }
  | .sequencer _ => { e with seqPort := l }

/-- No agent has issued anything: the block does nothing (70_reset R272). -/
def Env.quiet (e : Env) : Bool :=
  e.pollPort.isEmpty && e.reqPort.isEmpty && e.peerPort.isEmpty && e.seqPort.isEmpty

/-- Whose turn it is: the head of the script, or the free value where it has ended (log 6). -/
def State.turn (s : State) : Agent × State :=
  match s.env.sched with
  | a :: rest => (a, s.withEnv { s.env with sched := rest })
  | [] => (Config.movesNext s.env.schedN, s.withEnv { s.env with schedN := s.env.schedN + 1 })

/-- The oldest request of an agent is taken. -/
def State.taken (s : State) (a : Agent) (rest : List Request) : State :=
  s.withEnv (s.env.withPort a rest)

def Requester.agent : Requester → Agent
  | .pollq => .pollq
  | .reqq => .reqq

def Requester.other : Requester → Requester
  | .pollq => .reqq
  | .reqq => .pollq

/-- Which agents an operation is routed to (30_encoding R118, 60_exceptions R257, 20_memory R72, R81,
93 U15; log 12): the peer sends received symbols; REQQ issues its exchanges and nothing else; the parts
of an exchange and the forms of the line are the sequencer's; everything else is POLLQ's. -/
def mayIssue (a : Agent) : Instr → Bool
  | .lsRx _ => a == .peer
  | .xchg q _ => a == Requester.agent q
  | .enc _ | .decb _ | .dec _ _ _ _ | .drain | .txcmd _ | .rxresp | .strip _ | .acq _ | .rel | .ls _ _
  | .sym0 | .sym1 | .sym2 | .sym3 | .cf _ | .term =>
    a == .sequencer .pollq || a == .sequencer .reqq
  | .reset | .linkrd | .poll _ _ | .valueOf _ _ | .hasPending _ _ | .setmod _ _ | .hexw _ _ _
  | .fdec _ | .fbin _ _ _ _ | .fpar _ _ _ | .decode _ _ | .upd _ _ _ _ | .ldDecimal _ _ _ _
  | .lbBinary _ _ _ _ _ | .lbParityCount _ _ _ _ | .lReserved _ => a == .pollq

/-- The agent a table word is placed with. -/
def issuerOf (i : Instr) : Agent :=
  if mayIssue .pollq i then .pollq
  else if mayIssue .reqq i then .reqq
  else if mayIssue (.sequencer .pollq) i then .sequencer .pollq
  else .peer

/-- Whether a POLL passes its gate (42_debouncer R206). -/
def State.pollDue (s : State) (k : Nat) (tick : Int) : Bool :=
  match s.stores[k]? with
  | some st => due st.mod tick
  | none => false

/-- An operation that runs an exchange: XCHG, and a POLL that is due. -/
def State.runsExchange (s : State) : Instr → Bool
  | .xchg _ _ => true
  | .poll k tick => s.pollDue k tick
  | _ => false

/-- The exchange a requester has at the head of its port: it waits for the lock, or, if it owns the
lock, it is under way (R140). -/
def State.asking (s : State) (q : Requester) : Option Instr :=
  match s.env.port (Requester.agent q) with
  | [] => none
  | r :: _ =>
    (decode s.cfg r).filter fun i => mayIssue (Requester.agent q) i && i.wf s.cfg && s.runsExchange i

/-- A requester may take the lock: it is FREE, and `LOCK_GRANT` allows it if the other waits too
(00_scope R9, 20_memory R82). -/
def State.mayTake (s : State) (q : Requester) : Bool :=
  s.t.lock == .free && ((s.asking (Requester.other q)).isNone || s.cfg.lockGrant.contains q)

/-- The agent is a requester that owns the lock: its exchange is under way, and it "takes no other step
meanwhile" (R140, 00_scope R15, R17b). -/
def State.ownsLock (s : State) : Agent → Bool
  | .pollq => s.t.lock == .held .pollq
  | .reqq => s.t.lock == .held .reqq
  | _ => false

/-- Whether an operation waits at its port (40_transport R140, 10_state R24; log 11): for the lock, for
its phase of an exchange, or for the end of its requester's own exchange. -/
def waits (s : State) (a : Agent) (i : Instr) : Bool :=
  s.ownsLock a ||
    match i with
    | .xchg q _ => !s.mayTake q
    | .poll k tick => s.pollDue k tick && !s.mayTake .pollq
    | .acq q => !s.mayTake q
    | .drain => !s.inPhase .drain
    | .txcmd _ => !s.inPhase .tx
    | .rxresp => !s.inPhase .rx
    | .rel => !s.atEnd
    | _ => false

/-- A request placed at the head of an agent's port, and the next turn given to that agent. -/
def State.issueNext (s : State) (a : Agent) (r : Request) : State :=
  s.withEnv { s.env.withPort a (r :: s.env.port a) with sched := a :: s.env.sched }

end Sys2Proof.Machine
end

