-- ==== Sys2Proof/Machine/Debouncer.lean ====
section
/-! DEFINITION. The meanings of unit D: UPD, POLL, SETMOD, VALUE_OF, HAS_PENDING (42_debouncer). -/

namespace Sys2Proof.Machine

/-- UPD (R202). -/
def execUpd (k f new now : Nat) (s : State) : Host.Outcome State Fault Refusal :=
  match s.fieldAt k f with
  | none => badIndex .fieldIndex
  | some p =>
    let u := p.2.update s.cfg p.1.expiry new now
    .next ((s.writeField k f u.1).withOut (.bit u.2))

/-- The end of a POLL of store `k` whose exchange left the state `s` (R205): every abandoned poll
returns 0 and writes no store (R208, R209, R225); an accepted one reads the time once (R210) and
updates every un-ignored field (R211). -/
def State.finishPoll (s : State) (k : Nat) (c : StoreConfig) (st : Status) (text : Text) : State :=
  match st with
  | .ok =>
    if text.length ≠ c.respLen then (s.returnStatus .missLength).withOut (.bit false)
    else
      match decodeResponse c text with
      | none => (s.returnStatus .missGarbled).withOut (.bit false)
      | some new =>
        let n := s.readClock
        let u := updateFields n.cfg c.expiry n.time ((n.stores.getD k ⟨0, []⟩).fields) new
        (n.withStores (n.stores.modify k fun x => { x with fields := u.1 })).withOut (.bit u.2)
  | _ => s.withOut (.bit false)

/-- POLL (R205): the gate, then one exchange, then its end, in the order of 60_exceptions R248. A
due POLL waits while the lock is taken. -/
def execPoll (k : Nat) (tick : Int) (s : State) : Host.Outcome State Fault Refusal :=
  match s.cfg.stores[k]?, s.stores[k]? with
  | some c, some st =>
    if !due st.mod tick then .next ((s.returnStatus .notDue).withOut (.bit false))
    else if s.t.lock = .free then
      let r := s.exchange .pollq c.cmd
      .next (r.2.2.finishPoll k c r.1 r.2.1)
    else .next s
  | _, _ => badIndex .storeIndex

/-- SETMOD (R216). -/
def execSetmod (k m : Nat) (s : State) : Host.Outcome State Fault Refusal :=
  match s.stores[k]? with
  | none => badIndex .storeIndex
  | some _ => .next ((s.withStores (s.stores.modify k fun x => { x with mod := m })).withOut .none)

/-- VALUE_OF (R220): the current value, and the flag is cleared. -/
def execValueOf (k f : Nat) (s : State) : Host.Outcome State Fault Refusal :=
  match s.fieldAt k f with
  | none => badIndex .fieldIndex
  | some p => .next ((s.writeField k f p.2.cleared).withOut (.value p.2.cur))

/-- HAS_PENDING (R222): the flag, which is cleared. -/
def execHasPending (k f : Nat) (s : State) : Host.Outcome State Fault Refusal :=
  match s.fieldAt k f with
  | none => badIndex .fieldIndex
  | some p => .next ((s.writeField k f p.2.cleared).withOut (.bit p.2.pend))

end Sys2Proof.Machine
end

