-- ==== Sys2Proof/Machine/Fields.lean ====
section
/-! DEFINITION. The meanings of unit F: HEXW, FDEC, FBIN, FPAR, DECODE (41_field_decoder). They write
no state but the result (R170). -/

namespace Sys2Proof.Machine

/-- HEXW (R171); outside its operand domain the result is free (log 17). -/
def execHexw (t : Text) (off w : Nat) (s : State) : Host.Outcome State Fault Refusal :=
  .next (s.withOut (.word
    (if hexwDomain t off w then hexWord t off w else Config.hexwOutside t off w)))

/-- FDEC (R173). -/
def execFdec (word : Nat) (s : State) : Host.Outcome State Fault Refusal :=
  .next (s.withOut (.value (decimalValue word)))

/-- FBIN (R174); bits of a number beyond its word are 0 (log 19). -/
def execFbin (word lo n : Nat) (inv : Bool) (s : State) : Host.Outcome State Fault Refusal :=
  .next (s.withOut (.value (binaryValue word lo n inv)))

/-- FPAR (R175); bits of a number beyond its word are 0 (log 19). -/
def execFpar (word lo n : Nat) (s : State) : Host.Outcome State Fault Refusal :=
  .next (s.withOut (.value (parityValue word lo n)))

/-- DECODE (R177); of a text that has not the store's length the result is free (log 18). -/
def execDecode (k : Nat) (t : Text) (s : State) : Host.Outcome State Fault Refusal :=
  match s.cfg.stores[k]? with
  | none => badIndex .storeIndex
  | some c =>
    .next (s.withOut (.fields
      (if t.length = c.respLen then decodeResponse c t else Config.decodeOutside k t)))

end Sys2Proof.Machine
end

