-- ==== Sys2Proof/Machine/Formats.lean ====
section
/-! DEFINITION. The meanings of the table's line and descriptor forms, which are data and no
operations (30_encoding R90; log 9): a form of the line is read as the line symbols it stands for, a
packed descriptor as its record, and each is handed back; only TXCMD puts symbols on the line
(20_memory R60). A received symbol is appended to the receive queue by the peer. -/

namespace Sys2Proof.Machine

/-- The line symbol of a pair (30_encoding R91), handed back. -/
def State.showSymbol (s : State) (h l : Bool) : State :=
  s.withOut (.symbols [lineSymbol s.cfg l h])

/-- LS (R91): the line symbol with payload bits `h` and `l`. -/
def execLs (h l : Bool) (s : State) : Host.Outcome State Fault Refusal := .next (s.showSymbol h l)

/-- SYM0 (R92): the symbol of pair 0b00. -/
def execSym0 (s : State) : Host.Outcome State Fault Refusal := .next (s.showSymbol false false)

/-- SYM1 (R92): the symbol of pair 0b01. -/
def execSym1 (s : State) : Host.Outcome State Fault Refusal := .next (s.showSymbol false true)

/-- SYM2 (R92): the symbol of pair 0b10. -/
def execSym2 (s : State) : Host.Outcome State Fault Refusal := .next (s.showSymbol true false)

/-- SYM3 (R92): the symbol of pair 0b11. -/
def execSym3 (s : State) : Host.Outcome State Fault Refusal := .next (s.showSymbol true true)

/-- LS.RX (R136, 10_state R23): the peer appends a line symbol to `RXQ`; no requester gets a
result. -/
def execLsRx (b : Line) (s : State) : Host.Outcome State Fault Refusal := .next (s.peerPut [b])

/-- CF (R93): the four line symbols of the character. -/
def execCf (c : Chr) (s : State) : Host.Outcome State Fault Refusal :=
  .next (s.withOut (.symbols (encodeChr s.cfg c)))

/-- TERM (R94): the eight line symbols of the terminator. -/
def execTerm (s : State) : Host.Outcome State Fault Refusal :=
  .next (s.withOut (.symbols (encodeText s.cfg s.cfg.term)))

/-- LD.Decimal (R110, R115). -/
def execLdDecimal (skip ign : Bool) (off w : Nat) (s : State) :
    Host.Outcome State Fault Refusal :=
  .next (s.withOut (.descr (.decimal off w ign skip)))

/-- LB.Binary (R110, R115). -/
def execLbBinary (inv ign : Bool) (k lo n : Nat) (s : State) :
    Host.Outcome State Fault Refusal :=
  .next (s.withOut (.descr (.binary k lo n inv ign)))

/-- LB.ParityCount (R110, R115). -/
def execLbParityCount (ign : Bool) (k lo n : Nat) (s : State) :
    Host.Outcome State Fault Refusal :=
  .next (s.withOut (.descr (.parityCount k lo n ign)))

/-- L.reserved (R115, R121): "Kind 0b11 is reserved and refused". -/
def execLReserved (_x : Nat) (_s : State) : Host.Outcome State Fault Refusal :=
  .refused .reservedDescriptor

end Sys2Proof.Machine
end

