-- ==== Sys2Proof/Machine/Framer.lean ====
section
/-! DEFINITION. The meanings of unit T: ENC, DEC, DECB, ACQ, DRAIN, TXCMD, RXRESP, STRIP, REL, XCHG,
LINKRD (40_transport). DRAIN, TXCMD, RXRESP and REL, issued alone, run in their phase of an exchange
and wait in any other state, as ACQ does while the lock is taken (10_state R24, 20_memory R61, R77;
log 10). -/

namespace Sys2Proof.Machine

/-- XCHG (R138, R139): waits while the lock is taken; its result is a status and a text. -/
def execXchg (q : Requester) (cmd : Text) (s : State) : Host.Outcome State Fault Refusal :=
  if s.t.lock = .free then
    let r := s.exchange q cmd
    .next (r.2.2.withOut (.exchange r.1 r.2.1))
  else .next s

/-- LINKRD (R156). -/
def execLinkrd (s : State) : Host.Outcome State Fault Refusal := .next (s.withOut (.bit s.t.link))

/-- ENC (R131). -/
def execEnc (c : Chr) (s : State) : Host.Outcome State Fault Refusal :=
  .next (s.withOut (.symbols (encodeChr s.cfg c)))

/-- DECB (R134). -/
def execDecb (b : Line) (s : State) : Host.Outcome State Fault Refusal :=
  let d := s.t.decb s.cfg b
  .next ((s.withT d.1).withOut (.optChr d.2))

/-- DEC (R133). -/
def execDec (b0 b1 b2 b3 : Line) (s : State) : Host.Outcome State Fault Refusal :=
  .next (s.withOut (.chr (decodeChr s.cfg b0 b1 b2 b3)))

/-- ACQ (R140): waits while the lock is taken. -/
def execAcq (q : Requester) (s : State) : Host.Outcome State Fault Refusal :=
  if s.t.lock = .free then .next ((s.acquire q).withOut .none) else .next s

/-- DRAIN (R143). -/
def execDrain (s : State) : Host.Outcome State Fault Refusal :=
  if s.inPhase .drain then .next (s.drainLine.withOut .none) else .next s

/-- TXCMD (R144). -/
def execTxcmd (cmd : Text) (s : State) : Host.Outcome State Fault Refusal :=
  if s.inPhase .tx then .next ((s.transmit cmd).withOut .none) else .next s

/-- RXRESP (R145). It writes neither `T.link` nor the lock; XCHG does (R148, R149, R152). -/
def execRxresp (s : State) : Host.Outcome State Fault Refusal :=
  if s.inPhase .rx then
    let r := s.receive
    .next (r.2.2.withOut (.exchange r.1 r.2.1))
  else .next s

/-- STRIP (R153, R154). -/
def execStrip (raw : Text) (s : State) : Host.Outcome State Fault Refusal :=
  .next (s.withOut (.text (stripText s.cfg raw)))

/-- REL (R152). -/
def execRel (s : State) : Host.Outcome State Fault Refusal :=
  if s.atEnd then .next (s.release.withOut .none) else .next s

end Sys2Proof.Machine
end

