-- ==== Sys2Proof/Machine/System.lean ====
section
/-! DEFINITION. The meaning of RESET (70_reset_and_hazards R270, R271). -/

namespace Sys2Proof.Machine

/-- RESET (R270); it has no meaning while an exchange runs (R271, 93 U16). -/
def execReset (s : State) : Host.Outcome State Fault Refusal :=
  if s.t.lock = .free then .next s.resetBlock else .refused .resetDuringExchange

end Sys2Proof.Machine
end

