-- ==== Sys2Proof/Machine/Dispatch.lean ====
section
/-! DEFINITION. One arm per constructor of `Instr`: each calls its meaning. -/

namespace Sys2Proof.Machine

def exec (i : Instr) (s : State) : Host.Outcome State Fault Refusal :=
  match i with
  | .reset => Sys2Proof.Machine.execReset s
  | .xchg q cmd => Sys2Proof.Machine.execXchg q cmd s
  | .linkrd => Sys2Proof.Machine.execLinkrd s
  | .poll k tick => Sys2Proof.Machine.execPoll k tick s
  | .valueOf k f => Sys2Proof.Machine.execValueOf k f s
  | .hasPending k f => Sys2Proof.Machine.execHasPending k f s
  | .setmod k m => Sys2Proof.Machine.execSetmod k m s
  | .enc c => Sys2Proof.Machine.execEnc c s
  | .decb b => Sys2Proof.Machine.execDecb b s
  | .dec b0 b1 b2 b3 => Sys2Proof.Machine.execDec b0 b1 b2 b3 s
  | .drain => Sys2Proof.Machine.execDrain s
  | .txcmd cmd => Sys2Proof.Machine.execTxcmd cmd s
  | .rxresp => Sys2Proof.Machine.execRxresp s
  | .strip raw => Sys2Proof.Machine.execStrip raw s
  | .acq q => Sys2Proof.Machine.execAcq q s
  | .rel => Sys2Proof.Machine.execRel s
  | .hexw t off w => Sys2Proof.Machine.execHexw t off w s
  | .fdec word => Sys2Proof.Machine.execFdec word s
  | .fbin word lo n inv => Sys2Proof.Machine.execFbin word lo n inv s
  | .fpar word lo n => Sys2Proof.Machine.execFpar word lo n s
  | .decode k t => Sys2Proof.Machine.execDecode k t s
  | .upd k f new now => Sys2Proof.Machine.execUpd k f new now s
  | .ls h l => Sys2Proof.Machine.execLs h l s
  | .sym0 => Sys2Proof.Machine.execSym0 s
  | .sym1 => Sys2Proof.Machine.execSym1 s
  | .sym2 => Sys2Proof.Machine.execSym2 s
  | .sym3 => Sys2Proof.Machine.execSym3 s
  | .lsRx b => Sys2Proof.Machine.execLsRx b s
  | .cf c => Sys2Proof.Machine.execCf c s
  | .term => Sys2Proof.Machine.execTerm s
  | .ldDecimal skip ign off w => Sys2Proof.Machine.execLdDecimal skip ign off w s
  | .lbBinary inv ign k lo n => Sys2Proof.Machine.execLbBinary inv ign k lo n s
  | .lbParityCount ign k lo n => Sys2Proof.Machine.execLbParityCount ign k lo n s
  | .lReserved x => Sys2Proof.Machine.execLReserved x s

end Sys2Proof.Machine
end

