-- ==== Sys2Proof/Machine/Sequencer.lean ====
section
/-! DEFINITION. The exchange sequencer as an agent that takes steps of its own (00_scope R17a): it runs
the exchange a requester waits for, one part at each of its turns, in the order of 40_transport R139
(30_encoding R120: "exactly the sequence of its parts"). A requester's own turn runs the same parts
without a turn of another agent between them; 20_memory R72 admits both (log 14). -/

namespace Sys2Proof.Machine

/-- The command text of an exchange: XCHG's operand, or the store's (42_debouncer R207). -/
def commandOf (c : Config) : Instr → Text
  | .xchg _ cmd => cmd
  | .poll k _ =>
    match c.stores[k]? with
    | some sc => sc.cmd
    | none => []
  | _ => []

/-- What an exchange's end is handed to: XCHG returns it, POLL goes on with it (42_debouncer R205). -/
def deliver (i : Instr) (r : Status × Text × State) : State :=
  match i with
  | .poll k _ =>
    match r.2.2.cfg.stores[k]? with
    | some c => r.2.2.finishPoll k c r.1 r.2.1
    | none => r.2.2
  | _ => r.2.2.withOut (.exchange r.1 r.2.1)

/-- The request at the head of a requester's port is taken. -/
def State.takeHead (s : State) (q : Requester) : State :=
  s.taken (Requester.agent q) (s.env.port (Requester.agent q)).tail

/-- The last part of the exchange `i` of `q`, after RXRESP answered `(st, raw)`: the link flag, STRIP,
REL, and the rest of the operation. -/
def State.conclude (s : State) (q : Requester) (i : Instr) (st : Status) (raw : Text) : State :=
  (deliver i (s.endExchange st raw)).takeHead q

/-- The exchange under way: the owner of the lock and what it has at the head of its port. -/
def State.underWay (s : State) : Option (Requester × Instr) :=
  match s.t.lock with
  | .free => none
  | .held q => (s.asking q).map fun i => (q, i)

/-- One part of the exchange `i` of `q`, by the phase (10_state R24): DRAIN, TXCMD, RXRESP, the end. On
TIMEOUT the end follows at once, so that the lock is taken in no phase IDLE. -/
def State.advance (s : State) (q : Requester) (i : Instr) : State :=
  match s.t.phase with
  | .drain => s.drainLine
  | .tx => s.transmit (commandOf s.cfg i)
  | .rx =>
    let r := s.receive
    match r.1 with
    | .ok => r.2.2
    | _ => r.2.2.conclude q i r.1 r.2.1
  | .strip => s.conclude q i .ok s.t.rxtext
  | .idle => s.conclude q i .timeout []

/-- The sequencer's move at its turn: one part of the exchange under way; or, with no exchange under
way and no part of its own to run, ACQ for the requester `q` if it waits and may take the lock. None
where the move is a part at its port, and of another agent. -/
def State.sequencerMove (s : State) : Agent → Option State
  | .sequencer q =>
    match s.underWay with
    | some x => some (s.advance x.1 x.2)
    | none =>
      if s.env.seqPort.isEmpty then
        some (if s.mayTake q && (s.asking q).isSome then s.acquire q else s)
      else none
  | _ => none

end Sys2Proof.Machine
end

