-- ==== Sys2Proof/Machine/Step.lean ====
section
/-! DEFINITION. One step: an agent moves (00_scope R15, R17): the sequencer goes on with an exchange, or
the oldest request an agent has issued runs. -/

namespace Sys2Proof.Machine

/-- One step. An ill-formed configuration is refused (R10). With no request issued nothing happens
(70_reset R272). Otherwise the agent whose turn it is moves: the sequencer by a part of an exchange; any
agent by its oldest request, which is decoded and checked, waits where it must, and runs. -/
def step (s : State) : Host.Outcome State Fault Refusal :=
  if !s.cfg.wf then .refused .illFormedConfiguration
  else if s.env.quiet then .next s
  else
    match s.turn.2.sequencerMove s.turn.1 with
    | some t => .next t
    | none =>
      match s.turn.2.env.port s.turn.1 with
      | [] => .next s.turn.2
      | r :: rest =>
        match decode s.cfg r with
        | none => .refused .badRequest
        | some i =>
          if !mayIssue s.turn.1 i then .refused .wrongRequester
          else
            match i.failedCheck s.cfg with
            | some c => .refused (.badOperand c)
            | none =>
              if waits s.turn.2 s.turn.1 i then .next s.turn.2
              else exec i (s.turn.2.taken s.turn.1 rest)

/-- The phase a part of an exchange runs in. -/
def phaseOf : Instr → Option Phase
  | .drain => some .drain
  | .txcmd _ => some .tx
  | .rxresp => some .rx
  | .rel => some .strip
  | _ => none

/-- The state in which nothing makes an operation wait: for a part of an exchange, POLLQ's lock in the
part's phase with no exchange of POLLQ's own at its port; for any other, a FREE lock. -/
def State.readyFor (s : State) (i : Instr) : State :=
  match phaseOf i with
  | some p =>
    (s.withT { s.t with lock := .held .pollq, phase := p }).withEnv { s.env with pollPort := [] }
  | none => if s.t.lock = .free then s else s.release

/-- The state in which the next step runs the operation of a table word, read under the state's
configuration: what would make it wait is out of the way, the request is at the head of its agent's
port, and the agent has the turn (log 27). -/
def State.withFetchWord (s : State) (nbits w : Nat) : State :=
  let r := tableRequest s.cfg nbits w
  match decode s.cfg r with
  | some i => (s.readyFor i).issueNext (issuerOf i) r
  | none => s.issueNext .pollq r

end Sys2Proof.Machine
end

