-- ==== Sys2Proof/Safety.lean ====
section
/-! DEFINITION. What a sound state of the block is: the ranges 10_state and 30_encoding give its
elements (R21 to R48), as an invariant; and the terms claims use. -/

namespace Sys2Proof.Machine

/-- A record within its widths (R41 to R44), its `ign` the descriptor's (R46), and all zero if
ignored (R48 item 1). -/
structure FieldRec.Sound (c : Config) (d : Descr) (r : FieldRec) : Prop where
  ign   : r.ign = d.ign
  cur   : r.cur < 2 ^ c.valW
  prev  : r.prev < 2 ^ c.valW
  ts    : r.ts < 2 ^ c.tsW
  pts   : r.pts < 2 ^ c.tsW
  still : r.ign = true → r = FieldRec.reset d

/-- A store within its widths (R35), one record per descriptor (R40). -/
structure Store.Sound (c : Config) (sc : StoreConfig) (st : Store) : Prop where
  mod    : st.mod < 2 ^ c.modW
  fields : List.Forall₂ (FieldRec.Sound c) sc.layout st.fields

/-- The framer within its ranges (R25 to R28, R32). The decoded text has at most
`floor(RETRY_MAX / 4)` characters (R27), and four iterations were made for each (40_transport R150); in
phase STRIP it is a response, which ends in `TERM` (R145). With the lock FREE the sequencer is IDLE
(R24). -/
structure Framer.Sound (c : Config) (t : Framer) : Prop where
  txbuf  : t.txbuf.length ≤ c.cmdMax + Config.termLen
  txi    : t.txi ≤ c.cmdMax + Config.termLen
  txg    : t.txg < Config.groups
  rxs    : t.rxs = 0 ∨ t.rxs = 2 ∨ t.rxs = 4 ∨ t.rxs = 6
  rxtext : t.rxtext.length ≤ c.retryMax / 4
  taken  : 4 * t.rxtext.length ≤ t.tries
  tries  : t.tries ≤ c.retryMax + 1
  raw    : t.phase = .strip → t.tries ≤ c.retryMax ∧ endsWith t.rxtext c.term = true
  rest   : t.lock = .free → t.phase = .idle

/-- The receive queue holds at most `RXQ_CAP` symbols (R23). -/
def withinCap (c : Config) (q : List Line) : Prop :=
  match c.rxqCap with
  | none => True
  | some cap => q.length ≤ cap

/-- The invariant of the block. -/
structure State.Inv (s : State) : Prop where
  cfg    : s.cfg.wf = true
  framer : Framer.Sound s.cfg s.t
  rxq    : ∀ b ∈ s.rxq, b < 2 ^ s.cfg.lineW
  rxqCap : withinCap s.cfg s.rxq
  txs    : ∀ b ∈ s.txs, b < 2 ^ s.cfg.lineW
  time   : s.time < 2 ^ s.cfg.tsW
  stores : List.Forall₂ (Store.Sound s.cfg) s.cfg.stores s.stores

/-- Every field's current value lies in the range of its descriptor (R41, R48 item 3). -/
def State.ValuesInRange (s : State) : Prop :=
  List.Forall₂ (fun (sc : StoreConfig) (st : Store) =>
    List.Forall₂ (fun (d : Descr) (r : FieldRec) => r.cur < Descr.values d) sc.layout st.fields)
    s.cfg.stores s.stores

/-- The lock is FREE exactly when the sequencer is IDLE (10_state R24). -/
def State.Rested (s : State) : Prop := s.t.lock = .free ∧ s.t.phase = .idle

/-- An operation of a requester, no step operation and no form of the table (30_encoding R118). -/
def Instr.isHost : Instr → Bool
  | .reset | .xchg _ _ | .linkrd | .poll _ _ | .valueOf _ _ | .hasPending _ _ | .setmod _ _ => true
  | .enc _ | .decb _ | .dec _ _ _ _ | .drain | .txcmd _ | .rxresp | .strip _ | .acq _ | .rel
  | .hexw _ _ _ | .fdec _ | .fbin _ _ _ _ | .fpar _ _ _ | .decode _ _ | .upd _ _ _ _ | .ls _ _
  | .sym0 | .sym1 | .sym2 | .sym3 | .lsRx _ | .cf _ | .term | .ldDecimal _ _ _ _
  | .lbBinary _ _ _ _ _ | .lbParityCount _ _ _ _ | .lReserved _ => false

/-- A state without what no step reads: the results handed out and the ghost status
(60_exceptions R244). -/
def State.forget (s : State) : State := (s.withOut .none).withStatus .ok

/-- `f` on the next state, if there is one. -/
def mapNext (f : State → State) :
    Host.Outcome State Fault Refusal → Host.Outcome State Fault Refusal
  | .next s => .next (f s)
  | .fault r => .fault r
  | .refused r => .refused r

/-- A POLL of store `k` in state `s` is accepted with response text `text` (42_debouncer R205): it is
due, the lock is FREE, its exchange ends in OK with a text of the store's length that decodes to
`new`; and it leaves the state `t`. -/
def PollAccepts (s : State) (k : Nat) (tick : Int) (c : StoreConfig) (text : Text)
    (new : List (Option Nat)) (t : State) : Prop :=
  s.cfg.stores[k]? = some c ∧ s.pollDue k tick = true ∧ s.t.lock = .free ∧
  (∃ x, exec (.xchg .pollq c.cmd) s = .next x ∧ x.out = .exchange .ok text) ∧
  text.length = c.respLen ∧ decodeResponse c text = some new ∧ exec (.poll k tick) s = .next t

/-- The record of field `f` of store `k`. -/
def State.recordAt (s : State) (k f : Nat) : Option FieldRec :=
  (s.stores[k]?).bind fun st => st.fields[f]?

/-- The age of a field in integers (42_debouncer R201, R203). -/
def modularAge (c : Config) (r : FieldRec) (now : Nat) : Int := ((now : Int) - r.ts) % 2 ^ c.tsW

/-- The request at the head of the port of the agent whose turn it is (log 6), the sequencer having no
exchange of a requester to go on with. -/
def State.NextRequest (s : State) (r : Request) (rest : List Request) : Prop :=
  s.turn.2.sequencerMove s.turn.1 = none ∧ s.turn.2.env.port s.turn.1 = r :: rest

/-! ### What a receive phase observes (40_transport R157) -/

/-- What the peer sends by receive iteration `i + 1` from here (log 4), as it is queued: the `i`-th list
of the script, or the free value where the script has ended. -/
def State.arrivalAt (s : State) (i : Nat) : List Line :=
  (match s.env.arrivals[i]? with
    | some l => l
    | none => Config.peerSends (s.env.arrivalN + (i - s.env.arrivals.length))).map
    (· % 2 ^ s.cfg.lineW)

/-- The observations of `n` iterations, of which the first is iteration `i + 1`, on the queue `q`, when
`arr j` arrives by iteration `j + 1`; and the queue after them. -/
def observe (arr : Nat → List Line) : Nat → Nat → List Line → List (Option Line) × List Line
  | 0, _, q => ([], q)
  | n + 1, i, q =>
    match q ++ arr i with
    | [] => let o := observe arr n (i + 1) []; (none :: o.1, o.2)
    | b :: q' => let o := observe arr n (i + 1) q'; (some b :: o.1, o.2)

end Sys2Proof.Machine
end

