-- ==== Sys2Proof/Certificates/Slice0/Obligations.lean ====
section
/-! DEFINITION. The statements of this model, from the numbered rules of spec/. A statement that
equates a next state with named updates of `s` (`s.withOut r`, ...) states its frame with it: every
element the updates do not name is as before. -/

open Sys2Proof Sys2Proof.Machine

/-! ### Requests and steps -/

/-- For every well-formed configuration, every operation and every operand value the encoding admits,
decoding what `encode` wrote gives the operation back (the bytes of operands are the model's convention,
log 7). -/
def Obligations.DecodeUndoesEncode : Prop :=
  ∀ (c : Config) (i : Instr), c.wf = true → i.encodable c → decode c (encode c i) = some i

/-- Words of spec/opcode_table.json and of the spec's examples (30_encoding R118, R92, R115;
40_transport R131; 95_test_vectors 3.3) decode to what they stand for. Of these, the model's choices: how
a bare table word is read is log 8, namely that the operands of an operation number are bytes of zeros
(0x01 as XCHG of POLLQ and the empty command, 0x10 as POLL of store 0 at tick 0, 0x93 as FPAR 0 0 0, 0xA0
as UPD 0 0 0 0), that 0x00, 0x88 and the like are read as operation numbers and not as LS.RX, that 0xDF is
read as SYM1 and not as LS or LS.RX, that 0x5A, neither a number nor one of the four symbols, is read as
LS.RX, and that a 32-bit word is read as a frame where it is one and as a descriptor otherwise; how
operands and symbols lie in bytes is log 7; the parameters are the defaults (log 2). -/
def Obligations.TableWordsDecodeToTheirRows : Prop :=
  decodeTableWord 8 0x00 = some .reset ∧
  decodeTableWord 8 0x01 = some (.xchg .pollq []) ∧
  decodeTableWord 8 0x10 = some (.poll 0 0) ∧
  decodeTableWord 8 0x88 = some .rel ∧
  decodeTableWord 8 0x93 = some (.fpar 0 0 0) ∧
  decodeTableWord 8 0xA0 = some (.upd 0 0 0 0) ∧
  decodeTableWord 8 0xDF = some .sym1 ∧
  decodeTableWord 8 0x5A = some (.lsRx 0x5A) ∧
  decode Config.atReset ⟨.ls, [0xFB]⟩ = some (.ls true false) ∧
  decodeTableWord 32 0xFBDBDFDF = some (.cf 0x52) ∧
  decodeTableWord 32 0x30420000 = some (.ldDecimal true true 4 2) ∧
  decodeTableWord 32 0x60001000 = some (.lbBinary true false 0 0 8) ∧
  decodeTableWord 32 0x80041000 = some (.lbParityCount false 0 8 8) ∧
  decodeTableWord 32 0xC0000001 = some (.lReserved 1)

/-- 30_encoding R118, R121: a request with an unassigned operation number is refused. -/
def Obligations.UnassignedNumbersRefused : Prop :=
  ∀ (s : State) (n : Byte) (bs : List Byte) (rest : List Request),
    s.cfg.wf = true → s.NextRequest ⟨.ho, n :: bs⟩ rest →
    n.toNat ∉ [0x00, 0x01, 0x02, 0x10, 0x11, 0x12, 0x13, 0x80, 0x81, 0x82, 0x83, 0x84, 0x85, 0x86,
      0x87, 0x88, 0x90, 0x91, 0x92, 0x93, 0x94, 0xA0] →
    step s = .refused .badRequest

/-- A step runs the operation its request decodes to, in the state in which the turn is used and the
request is taken; an operation that waits (40_transport R140; logs 10, 11) stays where it is. -/
def Obligations.StepRunsTheDecodedOperation : Prop :=
  ∀ (s : State) (r : Request) (rest : List Request) (i : Instr),
    s.cfg.wf = true → s.NextRequest r rest → decode s.cfg r = some i →
    mayIssue s.turn.1 i = true → i.wf s.cfg = true →
    step s =
      if waits s s.turn.1 i then .next s.turn.2 else exec i (s.turn.2.taken s.turn.1 rest)

/-- 10_state R50: "the block starts in `IDLE` and does nothing until a requester issues an
operation"; 00_scope R10: an ill-formed configuration is refused. -/
def Obligations.QuietBlockDoesNothing : Prop :=
  ∀ s : State,
    (s.cfg.wf = true → s.env.pollPort = [] → s.env.reqPort = [] → s.env.peerPort = [] →
      s.env.seqPort = [] → step s = .next s) ∧
    (s.cfg.wf = false → step s = .refused .illFormedConfiguration)

/-- 42_debouncer R224, 30_encoding R121: POLL, SETMOD, VALUE_OF and HAS_PENDING (and DECODE, UPD) with
a store index not below `N_STORES`, and the accessors (and UPD) with a field index not below `NF[s]`,
are refused, whoever issues them; POLLQ is told that the operand is bad. -/
def Obligations.OutOfRangeIndicesRefused : Prop :=
  ∀ (s : State) (r : Request) (rest : List Request) (i : Instr) (k f m v now : Nat) (tick : Int)
    (text : Text),
    s.cfg.wf = true → s.NextRequest r rest → decode s.cfg r = some i →
    ((i = .poll k tick ∨ i = .setmod k m ∨ i = .valueOf k f ∨ i = .hasPending k f ∨
        i = .decode k text ∨ i = .upd k f v now) ∧ s.cfg.stores.length ≤ k ∨
      (i = .valueOf k f ∨ i = .hasPending k f ∨ i = .upd k f v now) ∧
        ∀ c, s.cfg.stores[k]? = some c → c.layout.length ≤ f) →
    (∃ e, step s = .refused e) ∧ (s.turn.1 = .pollq → ∃ c, step s = .refused (.badOperand c))

/-- 60_exceptions R257, 20_memory R72, 93 U15 (that the model enforces the routing is log 12): the request
task is refused everything but its own exchanges: every operation on a store, LINKRD, RESET, POLLQ's
exchanges, the parts of an exchange and of a poll, and the data forms. -/
def Obligations.RequestTaskMayOnlyExchange : Prop :=
  ∀ (s : State) (r : Request) (rest : List Request) (i : Instr),
    s.cfg.wf = true → s.turn.1 = .reqq → s.NextRequest r rest → decode s.cfg r = some i →
    (∀ cmd, i ≠ .xchg .reqq cmd) → step s = .refused .wrongRequester

/-- In a sound state a well-formed request of an agent it is routed to always has a next state, but
for RESET while the lock is taken (70_reset R271) and the reserved descriptor (30_encoding R121). That a
bare form of the line or of a descriptor has one (log 9), that STRIP, HEXW and DECODE outside their
domains have one (logs 16, 17, 18), that FBIN and FPAR of a span beyond the word have one (log 19), that
UPD of an ignored field has one (log 20), and that a request that waits has one (log 11) are the model's
choices. -/
def Obligations.WellFormedRequestsComplete : Prop :=
  ∀ (s : State) (r : Request) (rest : List Request) (i : Instr),
    s.Inv → s.NextRequest r rest → decode s.cfg r = some i → mayIssue s.turn.1 i = true →
    i.wf s.cfg = true → (i = .reset → s.t.lock = .free) → (∀ x, i ≠ .lReserved x) →
    ∃ t, step s = .next t

/-! ### Reset and invariants -/

/-- 70_reset R270: what RESET leaves in every element of the state; the time counter is not reset. -/
def Obligations.ResetPutsEveryElementAtItsResetValue : Prop :=
  ∀ s : State, s.t.lock = .free →
    ∃ t, exec .reset s = .next t ∧
      t.t = { lock := .free, link := false, phase := .idle, txbuf := [], txi := 0, txg := 0,
              rxacc := 0, rxs := 0, rxtext := [], tries := 0 } ∧
      t.rxq = [] ∧ t.txs = [] ∧ t.cfg = s.cfg ∧ t.time = s.time ∧
      t.stores.length = s.cfg.stores.length ∧
      ∀ (k : Nat) (c : StoreConfig), s.cfg.stores[k]? = some c →
        ∃ st : Store, t.stores[k]? = some st ∧ st.mod = 0 ∧
          st.fields.length = c.layout.length ∧
          ∀ (f : Nat) (d : Descr), c.layout[f]? = some d →
            st.fields[f]? = some (⟨0, 0, 0, 0, false, d.ign⟩ : FieldRec)

/-- The state after RESET of every well-formed configuration is sound, its values in range, the lock
FREE and the sequencer IDLE; so is the machine's own reset state (its time counter 0 and its
configuration are the model's choice, logs 1 and 5). -/
def Obligations.ResetStateIsSound : Prop :=
  (∀ (c : Config) (time : Nat) (env : Env), c.wf = true → time < 2 ^ c.tsW →
    (State.resetFor c time env).Inv ∧ (State.resetFor c time env).ValuesInRange ∧
    (State.resetFor c time env).Rested) ∧
  State.reset.Inv ∧ State.reset.ValuesInRange ∧ State.reset.Rested

/-- Every step from a sound state leads to a sound state. -/
def Obligations.StepKeepsTheInvariant : Prop :=
  ∀ s s' : State, s.Inv → step s = .next s' → s'.Inv

/-- 20_memory R83: the constants cannot change. -/
def Obligations.StepKeepsTheConfiguration : Prop :=
  ∀ s s' : State, step s = .next s' → s'.cfg = s.cfg

/-- 10_state R41, R48 item 3: under every step the current value of every field stays in the range of its
descriptor. -/
def Obligations.StepKeepsValuesInRange : Prop :=
  ∀ s s' : State, s.Inv → s.ValuesInRange → step s = .next s' → s'.ValuesInRange

/-- 10_state R24, 40_transport R152: an operation of a requester that starts with the lock FREE and
the sequencer IDLE ends so. -/
def Obligations.HostOperationsLeaveTheBlockAtRest : Prop :=
  ∀ (i : Instr) (s s' : State), Instr.isHost i = true → s.Rested → exec i s = .next s' → s'.Rested

/-- 60_exceptions R244: no step depends on the ghost status, nor on the results handed out. -/
def Obligations.NoStepReadsResultsOrGhostStatus : Prop :=
  ∀ s : State, mapNext State.forget (step s) = mapNext State.forget (step s.forget)

/-! ### Unit T -/

/-- 40_transport R131, 30_encoding R91: ENC, every bit of every symbol (with `LINE_W` other than 8 the
bits that are no payload are the model's reading of `FILL`, log 28). -/
def Obligations.EncSplitsACharacterIntoPairs : Prop :=
  ∀ (s : State) (c : Chr), s.cfg.wf = true →
    ∃ e : List Line, exec (.enc c) s = .next (s.withOut (.symbols e)) ∧ e.length = 4 ∧
      ∀ g < 4, ∀ i,
        (e.getD g 0).testBit i =
          if i = s.cfg.pLo then
            c.getLsbD (2 * if s.cfg.pairOrder = .lspFirst then g else 3 - g)
          else if i = s.cfg.pHi then
            c.getLsbD (2 * (if s.cfg.pairOrder = .lspFirst then g else 3 - g) + 1)
          else decide (i < s.cfg.lineW) && s.cfg.fill.testBit i

/-- 40_transport R133, R136: DEC reads the two payload bits of each symbol and nothing else. -/
def Obligations.DecReadsThePayloadBits : Prop :=
  ∀ (s : State) (b0 b1 b2 b3 : Line),
    ∃ c : Chr, exec (.dec b0 b1 b2 b3) s = .next (s.withOut (.chr c)) ∧
      ∀ g < 4,
        c.getLsbD (2 * if s.cfg.pairOrder = .lspFirst then g else 3 - g)
          = ([b0, b1, b2, b3].getD g 0).testBit s.cfg.pLo ∧
        c.getLsbD (2 * (if s.cfg.pairOrder = .lspFirst then g else 3 - g) + 1)
          = ([b0, b1, b2, b3].getD g 0).testBit s.cfg.pHi

/-- 40_transport R135: for every character, DEC of ENC is the character. -/
def Obligations.DecUndoesEnc : Prop :=
  ∀ (s : State) (c : Chr), s.cfg.wf = true →
    ∃ b0 b1 b2 b3 : Line, exec (.enc c) s = .next (s.withOut (.symbols [b0, b1, b2, b3])) ∧
      exec (.dec b0 b1 b2 b3) s = .next (s.withOut (.chr c))

/-- 40_transport R134: DECB writes the two payload bits at the decoder's offset and moves it on; the
fourth symbol completes a character. -/
def Obligations.DecbTakesInOnePair : Prop :=
  ∀ (s : State) (b : Line), (s.t.rxs = 0 ∨ s.t.rxs = 2 ∨ s.t.rxs = 4 ∨ s.t.rxs = 6) →
    ∃ (acc : Chr) (rxs : Nat) (r : Option Chr),
      exec (.decb b) s =
        .next ((s.withT { s.t with rxacc := acc, rxs := rxs }).withOut (.optChr r)) ∧
      (s.t.rxs = 6 → rxs = 0 ∧ r = some acc) ∧
      (s.t.rxs ≠ 6 → rxs = s.t.rxs + 2 ∧ r = none) ∧
      ∀ j < 8, acc.getLsbD j =
        if j = (if s.cfg.pairOrder = .lspFirst then s.t.rxs else 6 - s.t.rxs) then
          b.testBit s.cfg.pLo
        else if j = (if s.cfg.pairOrder = .lspFirst then s.t.rxs else 6 - s.t.rxs) + 1 then
          b.testBit s.cfg.pHi
        else s.t.rxacc.getLsbD j

/-- 30_encoding R120: DEC is four DECB from `T.rxs = 0`, whatever `T.rxacc` held. -/
def Obligations.FourDecbMakeOneDec : Prop :=
  ∀ (s : State) (b0 b1 b2 b3 : Line), s.t.rxs = 0 →
    ∃ (s1 s2 s3 s4 : State) (c : Chr),
      exec (.decb b0) s = .next s1 ∧ s1.out = .optChr none ∧
      exec (.decb b1) s1 = .next s2 ∧ s2.out = .optChr none ∧
      exec (.decb b2) s2 = .next s3 ∧ s3.out = .optChr none ∧
      exec (.decb b3) s3 = .next s4 ∧ s4.out = .optChr (some c) ∧ s4.t.rxs = 0 ∧
      exec (.dec b0 b1 b2 b3) s = .next (s.withOut (.chr c))

/-- 30_encoding R91: the form LS stands for the line symbol that carries the pair at `P_HI`, `P_LO` and
`FILL` elsewhere (that a bare form is handed back as its symbols is log 9; the bits that are no payload,
with `LINE_W` other than 8, are log 28). -/
def Obligations.LineSymbolFormIsItsPairAndFill : Prop :=
  ∀ (s : State) (h l : Bool), s.cfg.wf = true →
    ∃ b : Line, exec (.ls h l) s = .next (s.withOut (.symbols [b])) ∧
      ∀ i, b.testBit i =
        if i = s.cfg.pLo then l else if i = s.cfg.pHi then h
        else decide (i < s.cfg.lineW) && s.cfg.fill.testBit i

/-- 30_encoding R92, R93, R94: for all parameters the named symbols are the line symbols of their pairs,
a character frame is what ENC gives, and the terminator frame is the frames of its two characters; with
the default parameters they are the bytes the tables give (that a bare form is handed back as its symbols
is log 9). -/
def Obligations.LineFormsAreTheirSymbols : Prop :=
  ∀ s : State, s.cfg.wf = true →
    (∃ b0 b1 b2 b3 : Line,
      exec (.ls false false) s = .next (s.withOut (.symbols [b0])) ∧
      exec (.ls false true) s = .next (s.withOut (.symbols [b1])) ∧
      exec (.ls true false) s = .next (s.withOut (.symbols [b2])) ∧
      exec (.ls true true) s = .next (s.withOut (.symbols [b3])) ∧
      exec .sym0 s = .next (s.withOut (.symbols [b0])) ∧
      exec .sym1 s = .next (s.withOut (.symbols [b1])) ∧
      exec .sym2 s = .next (s.withOut (.symbols [b2])) ∧
      exec .sym3 s = .next (s.withOut (.symbols [b3]))) ∧
    (∀ c : Chr, ∃ e : List Line, exec (.enc c) s = .next (s.withOut (.symbols e)) ∧
      exec (.cf c) s = .next (s.withOut (.symbols e))) ∧
    (∃ (a b : Chr) (ea eb : List Line), s.cfg.term = [a, b] ∧
      exec (.enc a) s = .next (s.withOut (.symbols ea)) ∧
      exec (.enc b) s = .next (s.withOut (.symbols eb)) ∧
      exec .term s = .next (s.withOut (.symbols (ea ++ eb)))) ∧
    (s.cfg.lineW = 8 → s.cfg.pLo = 2 → s.cfg.pHi = 5 → s.cfg.fill = 0xFF →
      exec .sym0 s = .next (s.withOut (.symbols [0xDB])) ∧
      exec .sym1 s = .next (s.withOut (.symbols [0xDF])) ∧
      exec .sym2 s = .next (s.withOut (.symbols [0xFB])) ∧
      exec .sym3 s = .next (s.withOut (.symbols [0xFF])) ∧
      (s.cfg.pairOrder = .lspFirst →
        (∀ c : Chr, exec (.cf c) s = .next (s.withOut (.symbols ((List.range 4).map fun g =>
          0xDB + 0x04 * (c.getLsbD (2 * g)).toNat + 0x20 * (c.getLsbD (2 * g + 1)).toNat)))) ∧
        (s.cfg.term = [0x0D, 0x0A] → exec .term s = .next (s.withOut (.symbols
          [0xDF, 0xFF, 0xDB, 0xDB, 0xFB, 0xFB, 0xDB, 0xDB])))))

/-- 10_state R23: the peer appends to the receive queue. What a full queue of finite capacity loses
is a parameter of the model (93 U17, log 15); that LS.RX is the peer's append is log 9. -/
def Obligations.ReceivedSymbolIsQueued : Prop :=
  ∀ (s : State) (b : Line), b < 2 ^ s.cfg.lineW →
    ∃ q : List Line, exec (.lsRx b) s = .next (s.withRxq q) ∧
      (s.cfg.rxqCap = none → q = s.rxq ++ [b]) ∧
      ∀ cap, s.cfg.rxqCap = some cap →
        (s.rxq.length < cap → q = s.rxq ++ [b]) ∧
        (cap ≤ s.rxq.length → s.cfg.rxqFull = .dropNewest → q = s.rxq) ∧
        (s.rxq.length = cap → s.cfg.rxqFull = .dropOldest → q = (s.rxq ++ [b]).drop 1)

/-- 40_transport R143: DRAIN, in its phase of an exchange (10_state R24; that it waits in any other state
is log 10). -/
def Obligations.DrainEmptiesTheReceiveQueue : Prop :=
  ∀ s : State, s.t.lock ≠ .free → s.t.phase = .drain →
    exec .drain s = .next (((s.withRxq []).withT { s.t with phase := .tx }).withOut .none)

/-- 40_transport R144: TXCMD puts the frames of the command and then of the terminator on the line,
`4 * (len(cmd) + 2)` symbols, and reads nothing from it. The last values of the indices are the
model's reading (log 22); that TXCMD waits outside its phase is log 10. -/
def Obligations.TxcmdSendsTheCommandThenTheTerminator : Prop :=
  ∀ (s : State) (cmd : Text), s.cfg.wf = true → s.t.lock ≠ .free → s.t.phase = .tx →
    exec (.txcmd cmd) s =
      .next (((s.withTxs (s.txs ++ (cmd ++ s.cfg.term).flatMap (encodeChr s.cfg))).withT
        { s.t with txbuf := cmd ++ s.cfg.term, txi := cmd.length + 1, txg := 3,
                   phase := .rx }).withOut .none) ∧
    ((cmd ++ s.cfg.term).flatMap (encodeChr s.cfg)).length = 4 * (cmd.length + 2)

/-- 40_transport R140, R152: ACQ takes a FREE lock in one step, REL frees it at the end of an exchange;
while the lock is taken ACQ, XCHG and a due POLL wait; a requester whose exchange is under way takes no
other step; and of two requesters that wait, one that `LOCK_GRANT` does not allow (00_scope R9, 20_memory
R82) does not take it. Ports and turns are the model's (logs 6, 11). -/
def Obligations.LockIsTakenHeldAndFreed : Prop :=
  ∀ (s : State) (q : Requester),
    (s.t.lock = .free → exec (.acq q) s =
      .next ((s.withT { s.t with lock := .held q, phase := .drain }).withOut .none)) ∧
    (s.t.lock ≠ .free → exec (.acq q) s = .next s ∧
      (∀ cmd, exec (.xchg q cmd) s = .next s) ∧
      (∀ k tick c st, s.cfg.stores[k]? = some c → s.stores[k]? = some st → st.mod ≠ 0 →
        (st.mod : Int) ∣ tick → exec (.poll k tick) s = .next s) ∧
      (s.t.phase = .strip ∨ s.t.phase = .idle → exec .rel s =
        .next ((s.withT { s.t with lock := .free, phase := .idle }).withOut .none))) ∧
    ∀ (r : Request) (rest : List Request) (i : Instr),
      s.cfg.wf = true → s.turn.1 = Requester.agent q → s.NextRequest r rest →
      decode s.cfg r = some i → mayIssue s.turn.1 i = true → i.wf s.cfg = true →
      (s.t.lock = .held q → step s = .next s.turn.2) ∧
      (s.runsExchange i = true → (s.asking (Requester.other q)).isSome = true →
        q ∉ s.cfg.lockGrant → step s = .next s.turn.2)

/-- 20_memory R61, R77 (d), R81: the line is reached only inside an exchange, while the lock is taken.
While it is taken, no move of a requester or of the peer changes the framer or what is sent, and none of
a requester changes the receive queue; while it is FREE, nothing is sent or read at the sequencer's moves,
nor at a requester's but for a whole exchange (or RESET, which empties both sequences). DRAIN, TXCMD,
RXRESP and REL outside their phase change nothing (that they wait there is log 10). -/
def Obligations.OnlyAnExchangeReachesTheLine : Prop :=
  (∀ s t : State, step s = .next t →
    (∀ q, s.turn.1 = Requester.agent q → s.t.lock ≠ .free →
      t.t = s.t ∧ t.rxq = s.rxq ∧ t.txs = s.txs) ∧
    (s.turn.1 = .peer → t.t = s.t ∧ t.txs = s.txs) ∧
    (∀ q, s.turn.1 = .sequencer q → s.t.lock = .free → t.rxq = s.rxq ∧ t.txs = s.txs) ∧
    ∀ q r rest i, s.turn.1 = Requester.agent q → s.t.lock = .free → s.NextRequest r rest →
      decode s.cfg r = some i → s.runsExchange i = false → i ≠ .reset →
      t.t = s.t ∧ t.rxq = s.rxq ∧ t.txs = s.txs) ∧
  ∀ (s : State) (cmd : Text),
    (s.t.lock = .free ∨ s.t.phase ≠ .drain → exec .drain s = .next s) ∧
    (s.t.lock = .free ∨ s.t.phase ≠ .tx → exec (.txcmd cmd) s = .next s) ∧
    (s.t.lock = .free ∨ s.t.phase ≠ .rx → exec .rxresp s = .next s) ∧
    (s.t.lock = .free ∨ s.t.phase ≠ .strip ∧ s.t.phase ≠ .idle → exec .rel s = .next s)

/-- 40_transport R145, R147, R149, R150, 60_exceptions R250: RXRESP ends with a text of at most
`floor(RETRY_MAX / 4)` characters that ends in `TERM` within `RETRY_MAX` iterations, or in TIMEOUT after
`RETRY_MAX + 1`, where the text, the partial character and its offset are dropped (of the last two that
they are dropped by being set to 0 is log 23); what it leaves alone. -/
def Obligations.RxrespEndsAtTheTerminatorOrTheRetryBound : Prop :=
  ∀ s : State, s.t.lock ≠ .free → s.t.phase = .rx → ∃ t, exec .rxresp s = .next t ∧
    ((∃ raw, t.out = .exchange .ok raw ∧ t.t.rxtext = raw ∧ endsWith raw s.cfg.term = true ∧
        raw.length ≤ s.cfg.retryMax / 4 ∧ t.t.phase = .strip ∧ t.t.tries ≤ s.cfg.retryMax) ∨
      (t.out = .exchange .timeout [] ∧ t.t.rxtext = [] ∧ t.t.rxacc = 0 ∧ t.t.rxs = 0 ∧
        t.t.phase = .idle ∧ t.t.tries = s.cfg.retryMax + 1)) ∧
    t.cfg = s.cfg ∧ t.txs = s.txs ∧ t.time = s.time ∧ t.stores = s.stores ∧ t.status = s.status ∧
    t.t.lock = s.t.lock ∧ t.t.link = s.t.link ∧ t.t.txbuf = s.t.txbuf ∧ t.t.txi = s.t.txi ∧
    t.t.txg = s.t.txg

/-- 40_transport R157: RXRESP returns `rx(ev)` for the observations its iterations make, and leaves in
the queue what they did not read; the symbols observed are, in order, a prefix of what was queued followed
by what the peer appended. What the peer appends by each iteration is the script of arrivals and then the
free value (log 4), and so much of both is used up as iterations are made. -/
def Obligations.RxrespIsTheFunctionOfItsObservations : Prop :=
  ∀ s : State, s.t.lock ≠ .free → s.t.phase = .rx → s.cfg.rxqCap = none →
    ∃ (t : State) (st : Status) (raw : Text),
      exec .rxresp s = .next t ∧ t.out = .exchange st raw ∧
      rxOf s.cfg (observe s.arrivalAt t.t.tries 0 s.rxq).1 = (st, raw) ∧
      t.rxq = (observe s.arrivalAt t.t.tries 0 s.rxq).2 ∧
      (observe s.arrivalAt t.t.tries 0 s.rxq).1.filterMap id ++ t.rxq
        = s.rxq ++ (List.range t.t.tries).flatMap s.arrivalAt ∧
      t.env.arrivals = s.env.arrivals.drop t.t.tries ∧
      t.env.arrivalN = s.env.arrivalN + (t.t.tries - s.env.arrivals.length)

/-- 40_transport R153, R154: STRIP removes the terminator, and the prefix from a body longer than it.
A text without a terminator is outside its domain and is answered too (log 16). -/
def Obligations.StripRemovesTerminatorAndPrefix : Prop :=
  ∀ s : State, s.cfg.wf = true →
    (∀ body : Text, exec (.strip (body ++ s.cfg.term)) s = .next (s.withOut (.text
      (if s.cfg.prefixLen < body.length then body.drop s.cfg.prefixLen else body)))) ∧
    ∀ raw : Text, ∃ text, exec (.strip raw) s = .next (s.withOut (.text text))

/-- 40_transport R156: LINKRD. -/
def Obligations.LinkrdReadsTheLinkFlag : Prop :=
  ∀ s : State, exec .linkrd s = .next (s.withOut (.bit s.t.link))

/-- 30_encoding R120, 40_transport R139: XCHG is exactly ACQ, DRAIN, TXCMD, RXRESP, the write of
`T.link` (with STRIP on OK), REL, in that order (but for the model's own `out` and ghost status). -/
def Obligations.XchgIsItsPartsInOrder : Prop :=
  ∀ (s : State) (q : Requester) (cmd : Text), s.t.lock = .free →
    ∃ (s1 s2 s3 s4 t : State) (st : Status) (raw : Text),
      exec (.acq q) s = .next s1 ∧ exec .drain s1 = .next s2 ∧ exec (.txcmd cmd) s2 = .next s3 ∧
      exec .rxresp s3 = .next s4 ∧ s4.out = .exchange st raw ∧ exec (.xchg q cmd) s = .next t ∧
      ((st = .ok ∧ ∃ (s5 s6 : State) (text : Text),
          exec (.strip raw) (s4.withT { s4.t with link := true }) = .next s5 ∧
          s5.out = .text text ∧ exec .rel s5 = .next s6 ∧
          t = (s6.withStatus .ok).withOut (.exchange .ok text)) ∨
        (st = .timeout ∧ ∃ s6 : State,
          exec .rel (s4.withT { s4.t with link := false }) = .next s6 ∧
          t = (s6.withStatus .timeout).withOut (.exchange .timeout [])))

/-- 00_scope R17 (a), 30_encoding R120, 20_memory R72: the sequencer runs the exchange a requester waits for
(an XCHG, or a POLL that is due) in steps of its own, ACQ, DRAIN, TXCMD, RXRESP and the end, and the
operation ends as it ends in the requester's own step, but for the account of turns (log 14). -/
def Obligations.SequencerRunsAnExchangeInItsParts : Prop :=
  ∀ (s : State) (q : Requester) (i : Instr) (sched : List Agent),
    s.cfg.wf = true → s.asking q = some i → s.mayTake q = true → s.env.seqPort = [] →
    s.env.sched = List.replicate 5 (.sequencer q) ++ sched →
    ∃ s1 s2 s3 s4 t u : State,
      step s = .next s1 ∧ step s1 = .next s2 ∧ step s2 = .next s3 ∧ step s3 = .next s4 ∧
      s1.t.lock = .held q ∧ s1.t.phase = .drain ∧ s2.t.phase = .tx ∧ s3.t.phase = .rx ∧
      exec i (s.takeHead q) = .next t ∧
      (s4.t.phase = .strip ∧ step s4 = .next u ∨ s4.t.phase = .idle ∧ u = s4) ∧
      u = t.withEnv { t.env with sched := u.env.sched, schedN := u.env.schedN }

/-- 40_transport R139, R148, R149, R151, R155: an exchange ends in OK with `T.link = 1` or in TIMEOUT
with `T.link = 0`, the empty text and all that was decoded dropped (of the partial character and its
offset, that it is by 0: log 23), the lock FREE and the sequencer IDLE, after at most `RETRY_MAX + 1`
iterations, with the command frame sent and no store or time touched. -/
def Obligations.XchgEndsWithItsStatusInTheLinkFlag : Prop :=
  ∀ (s : State) (q : Requester) (cmd : Text), s.t.lock = .free →
    ∃ t, exec (.xchg q cmd) s = .next t ∧
      ((∃ text, t.out = .exchange .ok text ∧ t.t.link = true ∧ t.status = .ok ∧
          t.t.tries ≤ s.cfg.retryMax) ∨
        (t.out = .exchange .timeout [] ∧ t.t.link = false ∧ t.status = .timeout ∧
          t.t.rxtext = [] ∧ t.t.rxacc = 0 ∧ t.t.rxs = 0 ∧ t.t.tries = s.cfg.retryMax + 1)) ∧
      t.t.lock = .free ∧ t.t.phase = .idle ∧
      t.txs = s.txs ++ (cmd ++ s.cfg.term).flatMap (encodeChr s.cfg) ∧
      t.stores = s.stores ∧ t.time = s.time ∧ t.cfg = s.cfg

/-- 40_transport R141: the requester only names the owner of the lock; the exchange is the same. -/
def Obligations.XchgIsTheSameForBothRequesters : Prop :=
  ∀ (s : State) (cmd : Text), exec (.xchg .pollq cmd) s = exec (.xchg .reqq cmd) s

/-- From end to end (40_transport R139 to R154, 30_encoding R95): whatever the parameters, with an
unbounded receive queue, a peer that by the script of arrivals (log 4) answers, after some idle
iterations, with the frames of a text in which `TERM` first occurs at its end, one symbol per iteration
and soon enough for the retry bound, gets that text delivered: the exchange returns OK with the terminator
and the prefix removed, `T.link` is 1, and nothing is left in the receive queue. (A bounded queue, several
symbols per iteration and idle iterations between symbols are left to `RxrespIsTheFunctionOfItsObservations`
and to the bound on iterations.) -/
def Obligations.XchgDeliversTheResponse : Prop :=
  ∀ (s : State) (q : Requester) (cmd body : Text) (idle : Nat) (rest : List (List Line)),
    s.cfg.wf = true → s.cfg.rxqCap = none → s.t.lock = .free →
    (∀ n < (body ++ s.cfg.term).length,
      endsWith ((body ++ s.cfg.term).take n) s.cfg.term = false) →
    s.env.arrivals = List.replicate idle [] ++
      ((body ++ s.cfg.term).flatMap (encodeChr s.cfg)).map (fun b => [b]) ++ rest →
    idle + 4 * (body.length + 2) ≤ s.cfg.retryMax →
    ∃ t, exec (.xchg q cmd) s = .next t ∧
      t.out = .exchange .ok
        (if s.cfg.prefixLen < body.length then body.drop s.cfg.prefixLen else body) ∧
      t.t.link = true ∧ t.rxq = [] ∧ t.env.arrivals = rest ∧
      t.t.tries = idle + 4 * (body.length + 2)

/-- 40_transport R158 case 1: a peer that stays silent for the whole receive phase ends the exchange
in TIMEOUT after `RETRY_MAX + 1` iterations, with `T.link = 0`. -/
def Obligations.SilentPeerTimesOut : Prop :=
  ∀ (s : State) (q : Requester) (cmd : Text) (rest : List (List Line)),
    s.cfg.wf = true → s.t.lock = .free →
    s.env.arrivals = List.replicate (s.cfg.retryMax + 1) [] ++ rest →
    ∃ t, exec (.xchg q cmd) s = .next t ∧ t.out = .exchange .timeout [] ∧ t.t.link = false ∧
      t.t.tries = s.cfg.retryMax + 1 ∧ t.rxq = [] ∧ t.env.arrivals = rest

/-! ### Unit F -/

/-- 41_field_decoder R171, R172, 20_memory R65: the hex digits are '0' to '9', 'A' to 'F' and 'a' to 'f'
with the values 0 to 15, and no other character is one; HEXW on its domain is the number whose hexadecimal digits
the characters are, most significant first, and GARBLED if one of them is no digit; outside its
domain it is answered too (log 17). -/
def Obligations.HexwReadsDigitsMostSignificantFirst : Prop :=
  (∀ c : Chr, hexDigit c =
    if 0x30 ≤ c.toNat ∧ c.toNat ≤ 0x39 then some (c.toNat - 0x30)
    else if 0x41 ≤ c.toNat ∧ c.toNat ≤ 0x46 then some (c.toNat - 0x37)
    else if 0x61 ≤ c.toNat ∧ c.toNat ≤ 0x66 then some (c.toNat - 0x57)
    else none) ∧
  ∀ (s : State) (t : Text) (off w : Nat),
    (off + w ≤ t.length → 1 ≤ w → w ≤ 8 →
      (∀ ds : List Nat, ds.length = w →
        (∀ i < w, (t[off + i]?).bind hexDigit = ds[i]?) →
        exec (.hexw t off w) s = .next (s.withOut (.word
          (some ((List.range w).map fun i => ds.getD i 0 * 16 ^ (w - 1 - i)).sum)))) ∧
      ((∃ i < w, (t[off + i]?).bind hexDigit = none) →
        exec (.hexw t off w) s = .next (s.withOut (.word none)))) ∧
    ∃ r, exec (.hexw t off w) s = .next (s.withOut (.word r))

/-- 41_field_decoder R173: FDEC. -/
def Obligations.FdecIsTheWord : Prop :=
  ∀ (s : State) (word : Nat), exec (.fdec word) s = .next (s.withOut (.value word))

/-- 41_field_decoder R174: FBIN tests each bit of the span and complements all of them if `inv` (of a span
that reaches beyond the word this is the model's reading, log 19). -/
def Obligations.FbinTestsTheBitsOfTheWord : Prop :=
  ∀ (s : State) (word lo n : Nat) (inv : Bool),
    ∃ v, exec (.fbin word lo n inv) s = .next (s.withOut (.value v)) ∧ v < 2 ^ n ∧
      ∀ j < n, v.testBit j = (word.testBit (lo + j) ^^ inv)

/-- 41_field_decoder R175: FPAR counts the ones of the span (of a span that reaches beyond the word this is
the model's reading, log 19). -/
def Obligations.FparCountsTheOnesOfTheSpan : Prop :=
  ∀ (s : State) (word lo n : Nat),
    ∃ v, exec (.fpar word lo n) s = .next (s.withOut (.value v)) ∧ v ≤ n ∧
      v = ((List.range n).filter fun j => word.testBit (lo + j)).length

/-- 41_field_decoder R177, R178, R180: DECODE of a text of the store's length is GARBLED exactly when
a chunk that is parsed (also one whose field is ignored) holds a character that is no hex digit;
otherwise it gives every un-ignored field its value from the parsed words and no ignored field one.
A text of another length is answered too (log 18). -/
def Obligations.DecodeGivesEveryTrackedFieldItsValue : Prop :=
  ∀ (s : State) (k : Nat) (c : StoreConfig) (t : Text),
    s.cfg.wf = true → s.cfg.stores[k]? = some c →
    (t.length = c.respLen →
      ((∃ off w ign, Descr.decimal off w ign false ∈ c.layout ∧ hexWord t off w = none) →
        exec (.decode k t) s = .next (s.withOut (.fields none))) ∧
      ((∀ off w ign, Descr.decimal off w ign false ∈ c.layout → (hexWord t off w).isSome) →
        ∃ m : List (Option Nat), exec (.decode k t) s = .next (s.withOut (.fields (some m))) ∧
          m.length = c.layout.length ∧
          ∀ (f : Nat) (d : Descr), c.layout[f]? = some d →
            (d.ign = true → m[f]? = some none) ∧
            (∀ off w skip, d = .decimal off w false skip → m[f]? = some (hexWord t off w)) ∧
            (∀ j lo n inv off w ign skip, d = .binary j lo n inv false →
              c.layout[j]? = some (.decimal off w ign skip) →
              m[f]? = some ((hexWord t off w).map fun v => binaryValue v lo n inv)) ∧
            (∀ j lo n off w ign skip, d = .parityCount j lo n false →
              c.layout[j]? = some (.decimal off w ign skip) →
              m[f]? = some ((hexWord t off w).map fun v => parityValue v lo n)))) ∧
    ∃ r, exec (.decode k t) s = .next (s.withOut (.fields r))

/-- 41_field_decoder R179: in every decode an un-ignored, not inverted Binary field is the bits
`lo+n-1 .. lo` of the un-ignored Decimal field of its word. -/
def Obligations.BitAndDecimalViewsAgree : Prop :=
  ∀ (s : State) (k : Nat) (c : StoreConfig) (t : Text) (m : List (Option Nat))
    (f j lo n off w : Nat) (skip : Bool),
    s.cfg.wf = true → s.cfg.stores[k]? = some c → t.length = c.respLen →
    exec (.decode k t) s = .next (s.withOut (.fields (some m))) →
    c.layout[f]? = some (.binary j lo n false false) →
    c.layout[j]? = some (.decimal off w false skip) →
    ∃ v, m[j]? = some (some v) ∧ m[f]? = some (some (v / 2 ^ lo % 2 ^ n))

/-! ### Unit D -/

/-- 42_debouncer R202, R201, R203: UPD of a field that is not ignored marks it if its value differs
or its age modulo `2 ^ TS_W` exceeds the expiry, and otherwise writes nothing. -/
def Obligations.UpdMarksOnChangeOrExpiry : Prop :=
  ∀ (s : State) (k f new now : Nat) (c : StoreConfig) (r : FieldRec),
    s.cfg.stores[k]? = some c → s.recordAt k f = some r → r.ign = false →
    exec (.upd k f new now) s =
      if new ≠ r.cur ∨ (c.expiry : Int) < modularAge s.cfg r now then
        .next ((s.writeField k f ⟨new, r.cur, now, r.ts, true, false⟩).withOut (.bit true))
      else .next (s.withOut (.bit false))

/-- 10_state R46: no element of an ignored field's record is ever written. UPD passes it over and
returns 0 (that the operation issued alone does so is the model's reading, log 20). -/
def Obligations.UpdPassesIgnoredFieldsOver : Prop :=
  ∀ (s : State) (k f new now : Nat) (c : StoreConfig) (r : FieldRec),
    s.cfg.stores[k]? = some c → s.recordAt k f = some r → r.ign = true →
    exec (.upd k f new now) s = .next (s.withOut (.bit false))

/-- 42_debouncer R220: VALUE_OF. -/
def Obligations.ValueOfReadsTheValueAndClearsTheFlag : Prop :=
  ∀ (s : State) (k f : Nat) (c : StoreConfig) (r : FieldRec),
    s.cfg.stores[k]? = some c → s.recordAt k f = some r →
    exec (.valueOf k f) s =
      .next ((s.writeField k f { r with pend := false }).withOut (.value r.cur))

/-- 42_debouncer R222: HAS_PENDING. -/
def Obligations.HasPendingReadsTheFlagAndClearsIt : Prop :=
  ∀ (s : State) (k f : Nat) (c : StoreConfig) (r : FieldRec),
    s.cfg.stores[k]? = some c → s.recordAt k f = some r →
    exec (.hasPending k f) s =
      .next ((s.writeField k f { r with pend := false }).withOut (.bit r.pend))

/-- What `writeField` writes and leaves: the frame of UPD, VALUE_OF and HAS_PENDING. -/
def Obligations.FieldOperationsTouchOneRecord : Prop :=
  ∀ (i : Instr) (s s' : State) (k f new now : Nat),
    (i = .upd k f new now ∨ i = .valueOf k f ∨ i = .hasPending k f) → exec i s = .next s' →
    s'.cfg = s.cfg ∧ s'.t = s.t ∧ s'.rxq = s.rxq ∧ s'.txs = s.txs ∧ s'.time = s.time ∧
    s'.env = s.env ∧ s'.status = s.status ∧ s'.stores.length = s.stores.length ∧
    (∀ k' : Nat, (s'.stores[k']?).map Store.mod = (s.stores[k']?).map Store.mod) ∧
    ∀ k' f' : Nat, (k' ≠ k ∨ f' ≠ f) → s'.recordAt k' f' = s.recordAt k' f'

/-- 42_debouncer R216: SETMOD writes the one modulus and nothing else. -/
def Obligations.SetmodWritesTheModulus : Prop :=
  ∀ (s : State) (k m : Nat) (st : Store), s.stores[k]? = some st →
    exec (.setmod k m) s =
      .next ((s.withStores (s.stores.set k { st with mod := m })).withOut .none)

/-- 42_debouncer R206: a POLL that is not due does nothing (but for the model's own `out` and ghost
status), whatever the lock. -/
def Obligations.PollNotDueDoesNothing : Prop :=
  ∀ (s : State) (k : Nat) (tick : Int) (c : StoreConfig) (st : Store),
    s.cfg.stores[k]? = some c → s.stores[k]? = some st →
    ¬ (st.mod ≠ 0 ∧ ∃ n : Int, tick = n * st.mod) →
    exec (.poll k tick) s = .next ((s.withStatus .notDue).withOut (.bit false))

/-- 42_debouncer R205 to R210, 60_exceptions R244, R248: a due POLL runs one exchange of POLLQ with
the store's command and ends in the first condition that holds: TIMEOUT, MISS_LENGTH, MISS_GARBLED,
each returning 0 and writing nothing more; otherwise it is accepted. -/
def Obligations.DuePollExchangesOnceAndChecksInOrder : Prop :=
  ∀ (s : State) (k : Nat) (tick : Int) (c : StoreConfig),
    s.cfg.stores[k]? = some c → s.pollDue k tick = true → s.t.lock = .free →
    ∃ (x t : State) (st : Status) (text : Text),
      exec (.xchg .pollq c.cmd) s = .next x ∧ x.out = .exchange st text ∧
      exec (.poll k tick) s = .next t ∧
      ((st = .timeout ∧ t = x.withOut (.bit false)) ∨
        (st = .ok ∧ text.length ≠ c.respLen ∧
          t = (x.withStatus .missLength).withOut (.bit false)) ∨
        (st = .ok ∧ text.length = c.respLen ∧ decodeResponse c text = none ∧
          t = (x.withStatus .missGarbled).withOut (.bit false)) ∨
        (st = .ok ∧ ∃ new, PollAccepts s k tick c text new t ∧ t.t = x.t ∧ t.rxq = x.rxq ∧
          t.txs = x.txs ∧ t.status = .ok))

/-- 42_debouncer R205, R210 to R212: an accepted POLL updates every un-ignored field from one decode
and one reading of the time and no other record, and returns whether one was marked. -/
def Obligations.AcceptedPollUpdatesEveryTrackedField : Prop :=
  ∀ (s t : State) (k : Nat) (tick : Int) (c : StoreConfig) (text : Text) (new : List (Option Nat)),
    s.Inv → PollAccepts s k tick c text new t →
    (∀ (f : Nat) (r : FieldRec), s.recordAt k f = some r →
      (r.ign = true → t.recordAt k f = some r) ∧
      (r.ign = false → ∃ v, new[f]? = some (some v) ∧
        t.recordAt k f = some
          (if v ≠ r.cur ∨ (c.expiry : Int) < modularAge s.cfg r t.time then
            ⟨v, r.cur, t.time, r.ts, true, false⟩
          else r))) ∧
    (∀ k' f : Nat, k' ≠ k → t.recordAt k' f = s.recordAt k' f) ∧
    (∀ k' : Nat, (t.stores[k']?).map Store.mod = (s.stores[k']?).map Store.mod) ∧
    ∃ changed, t.out = .bit changed ∧
      (changed = true ↔ ∃ f r v, s.recordAt k f = some r ∧ r.ign = false ∧
        new[f]? = some (some v) ∧
        (v ≠ r.cur ∨ (c.expiry : Int) < modularAge s.cfg r t.time))

/-- 42_debouncer R210, 20_memory R85, 10_state R30: an accepted POLL reads the time once: the counter
has moved on by one amount, modulo `2 ^ TS_W`, the next listed one or, where none is listed, the free
value; and that one is used up (the account of amounts is the model's, log 5). -/
def Obligations.AcceptedPollReadsTheTimeOnce : Prop :=
  ∀ (s t : State) (k : Nat) (tick : Int) (c : StoreConfig) (text : Text) (new : List (Option Nat)),
    PollAccepts s k tick c text new t →
    (∀ d rest, s.env.clock = d :: rest →
      t.time = (s.time + d) % 2 ^ s.cfg.tsW ∧ t.env.clock = rest ∧ t.env.clockN = s.env.clockN) ∧
    (s.env.clock = [] →
      t.time = (s.time + Config.timePasses s.env.clockN) % 2 ^ s.cfg.tsW ∧ t.env.clock = [] ∧
      t.env.clockN = s.env.clockN + 1)

/-- 42_debouncer R225, R208, R209: a POLL that ends in NOT_DUE, TIMEOUT, MISS_LENGTH or MISS_GARBLED
leaves every element of every store, and the time, as they were. -/
def Obligations.AbandonedPollLeavesTheStores : Prop :=
  ∀ (s t : State) (k : Nat) (tick : Int), exec (.poll k tick) s = .next t → t.status ≠ .ok →
    t.stores = s.stores ∧ t.time = s.time

/-- 42_debouncer R213: the debounce law. After an accepted POLL, an accepted POLL with the same text
whose fields have not expired, between which at most `pend` flags changed, marks no field, returns 0
and leaves every record as it was; so if every `pend` was cleared in between, every one is 0. -/
def Obligations.DebounceLaw : Prop :=
  ∀ (s1 t1 s2 t2 : State) (k : Nat) (tick1 tick2 : Int) (c : StoreConfig) (text : Text)
    (new1 new2 : List (Option Nat)),
    PollAccepts s1 k tick1 c text new1 t1 → PollAccepts s2 k tick2 c text new2 t2 →
    (s2.stores[k]?).map (fun st => st.fields.map FieldRec.cleared)
      = (t1.stores[k]?).map (fun st => st.fields.map FieldRec.cleared) →
    (∀ (f : Nat) (r : FieldRec), s2.recordAt k f = some r → r.ign = false →
      modularAge s2.cfg r t2.time ≤ (c.expiry : Int)) →
    t2.out = .bit false ∧ t2.stores = s2.stores ∧
    ((∀ (f : Nat) (r : FieldRec), s2.recordAt k f = some r → r.pend = false) →
      ∀ (f : Nat) (r : FieldRec), t2.recordAt k f = some r → r.pend = false)

/-- 42_debouncer R214: the heartbeat law. An accepted POLL that decodes for an un-ignored field the
value it holds, the age being more than the expiry, marks it: `pend = 1`, `cur` unchanged,
`prev = cur`, `ts = now`, and `changed = 1`. -/
def Obligations.HeartbeatLaw : Prop :=
  ∀ (s t : State) (k f : Nat) (tick : Int) (c : StoreConfig) (text : Text)
    (new : List (Option Nat)) (r : FieldRec),
    PollAccepts s k tick c text new t → s.recordAt k f = some r → r.ign = false →
    new[f]? = some (some r.cur) → (c.expiry : Int) < modularAge s.cfg r t.time →
    t.out = .bit true ∧
    t.recordAt k f = some ⟨r.cur, r.cur, t.time, r.ts, true, false⟩

/-! ### Descriptors, stops and frames -/

/-- 30_encoding R110, R115: a packed descriptor reads as its record (that a step on one hands the
record back is the model's choice, log 9). -/
def Obligations.PackedDescriptorsReadAsTheirRecords : Prop :=
  ∀ s : State,
    (∀ skip ign off w, exec (.ldDecimal skip ign off w) s =
      .next (s.withOut (.descr (.decimal off w ign skip)))) ∧
    (∀ inv ign k lo n, exec (.lbBinary inv ign k lo n) s =
      .next (s.withOut (.descr (.binary k lo n inv ign)))) ∧
    ∀ ign k lo n, exec (.lbParityCount ign k lo n) s =
      .next (s.withOut (.descr (.parityCount k lo n ign)))

/-- 30_encoding R115, R121: kind 0b11 is refused; 70_reset R271, 93 U16: RESET while an exchange runs
is refused. -/
def Obligations.ReservedDescriptorAndLateResetAreRefused : Prop :=
  ∀ s : State, (∀ x, exec (.lReserved x) s = .refused .reservedDescriptor) ∧
    (s.t.lock ≠ .free → exec .reset s = .refused .resetDuringExchange)

/-- 10_state R33, 41_field_decoder R170: the pure operations write nothing but their result; nor do the
forms of the line and the packed descriptors, which the spec does not call operations (that a bare one is
handed back is log 9). -/
def Obligations.PureOperationsOnlyHandBackAResult : Prop :=
  ∀ (s s' : State) (i : Instr) (c : Chr) (b0 b1 b2 b3 : Line) (t : Text) (off w word lo n k : Nat)
    (inv ign skip h l : Bool),
    (i = .linkrd ∨ i = .enc c ∨ i = .dec b0 b1 b2 b3 ∨ i = .strip t ∨ i = .hexw t off w ∨
      i = .fdec word ∨ i = .fbin word lo n inv ∨ i = .fpar word lo n ∨ i = .decode k t ∨
      i = .ls h l ∨ i = .sym0 ∨ i = .sym1 ∨ i = .sym2 ∨ i = .sym3 ∨ i = .cf c ∨ i = .term ∨
      i = .ldDecimal skip ign off w ∨ i = .lbBinary inv ign k lo n ∨
      i = .lbParityCount ign k lo n) →
    exec i s = .next s' → s' = s.withOut s'.out

/-- 20_memory R60, R71: the operations of unit T touch no store and not the time; those that read nothing
from the line leave the receive queue, those that send nothing leave `TXS`; so with the peer's append (that
LS.RX is that is log 9), which leaves the framer too. -/
def Obligations.FramerOperationsLeaveTheStores : Prop :=
  ∀ (s s' : State) (i : Instr) (q : Requester) (cmd : Text) (b : Line),
    (i = .xchg q cmd ∨ i = .acq q ∨ i = .drain ∨ i = .txcmd cmd ∨ i = .rxresp ∨ i = .rel ∨
      i = .decb b ∨ i = .lsRx b) →
    exec i s = .next s' →
    s'.stores = s.stores ∧ s'.time = s.time ∧ s'.cfg = s.cfg ∧
    ((i = .acq q ∨ i = .txcmd cmd ∨ i = .rel ∨ i = .decb b) → s'.rxq = s.rxq) ∧
    ((i = .acq q ∨ i = .drain ∨ i = .rxresp ∨ i = .rel ∨ i = .decb b ∨ i = .lsRx b) →
      s'.txs = s.txs) ∧
    (i = .lsRx b → s'.t = s.t)
end

