-- ==== Sys2Proof/Laws/Bits.lean ====
section
/-! SUPPORT. The bits of line symbols and characters: what `setBit`, ENC, DEC and DECB do, bit by
bit. -/

namespace Sys2Proof.Machine

theorem testBit_setBit (v i j : Nat) (b : Bool) :
    (setBit v i b).testBit j = if j = i then b else v.testBit j := by
  unfold setBit
  split
  · rename_i h
    split
    · subst_vars; rfl
    · rfl
  · rename_i h
    rw [Nat.one_shiftLeft, Nat.testBit_xor, Nat.testBit_two_pow]
    by_cases hj : j = i
    · subst hj
      cases b <;> cases hv : v.testBit j <;> simp_all
    · have : ¬ i = j := fun h => hj h.symm
      simp [hj, this]

theorem setBit_lt {v i w : Nat} (b : Bool) (hv : v < 2 ^ w) (hi : i < w) : setBit v i b < 2 ^ w := by
  apply Nat.lt_pow_two_of_testBit
  intro j hj
  rw [testBit_setBit, if_neg (by omega)]
  exact Nat.testBit_lt_two_pow (Nat.lt_of_lt_of_le hv (Nat.pow_le_pow_right (by decide) hj))

theorem getLsbD_setChrBit (c : Chr) {i : Nat} (hi : i < 8) (j : Nat) (b : Bool) :
    (setChrBit c i b).getLsbD j = if j = i then b else c.getLsbD j := by
  have hlt : setBit c.toNat i b < 2 ^ 8 := setBit_lt b c.isLt hi
  rw [setChrBit, ← BitVec.testBit_toNat, BitVec.toNat_ofNat, Nat.mod_eq_of_lt hlt, testBit_setBit,
    BitVec.testBit_toNat]

theorem setChrBit_out (c : Chr) {i : Nat} (hi : 8 ≤ i) (b : Bool) : setChrBit c i b = c := by
  apply BitVec.eq_of_getLsbD_eq
  intro j hj
  rw [setChrBit, ← BitVec.testBit_toNat, BitVec.toNat_ofNat, Nat.testBit_mod_two_pow,
    testBit_setBit, if_neg (by omega), BitVec.testBit_toNat]
  simp [hj]

/-- R91: every bit of a transmitted line symbol. -/
theorem testBit_lineSymbol {c : Config} (h : c.pLo ≠ c.pHi) (lo hi : Bool) (i : Nat) :
    (lineSymbol c lo hi).testBit i =
      if i = c.pLo then lo else if i = c.pHi then hi else decide (i < c.lineW) && c.fill.testBit i := by
  simp only [lineSymbol, testBit_setBit, Nat.testBit_mod_two_pow]
  split
  · subst_vars
    split
    · rename_i h2; exact absurd h2.symm h
    · rfl
  · rfl

theorem lineSymbol_lt {c : Config} (h1 : c.pLo < c.lineW) (h2 : c.pHi < c.lineW) (lo hi : Bool) :
    lineSymbol c lo hi < 2 ^ c.lineW :=
  setBit_lt hi (setBit_lt lo (Nat.mod_lt _ (Nat.two_pow_pos _)) h1) h2

/-- R92: a symbol of ENC is one by its own payload bits. -/
theorem isSent_lineSymbol {c : Config} (h : c.pLo ≠ c.pHi) (lo hi : Bool) :
    isSent c (lineSymbol c lo hi) = true := by
  have h' : ¬ c.pHi = c.pLo := fun e => h e.symm
  simp [isSent, testBit_lineSymbol h, h']

theorem encodeChr_lt {c : Config} (h1 : c.pLo < c.lineW) (h2 : c.pHi < c.lineW) (ch : Chr) :
    ∀ b ∈ encodeChr c ch, b < 2 ^ c.lineW := by
  intro b hb
  simp only [encodeChr, List.mem_cons, List.not_mem_nil, or_false] at hb
  rcases hb with rfl | rfl | rfl | rfl <;> exact lineSymbol_lt h1 h2 _ _

theorem encodeText_lt {c : Config} (h1 : c.pLo < c.lineW) (h2 : c.pHi < c.lineW) (t : Text) :
    ∀ b ∈ encodeText c t, b < 2 ^ c.lineW := by
  intro b hb
  obtain ⟨ch, -, hb⟩ := List.mem_flatMap.mp hb
  exact encodeChr_lt h1 h2 ch b hb

@[simp] theorem encodeChr_length (c : Config) (ch : Chr) : (encodeChr c ch).length = 4 := rfl

@[simp] theorem encodeText_nil (c : Config) : encodeText c [] = [] := rfl

@[simp] theorem encodeText_cons (c : Config) (ch : Chr) (t : Text) :
    encodeText c (ch :: t) = encodeChr c ch ++ encodeText c t := rfl

@[simp] theorem encodeText_append (c : Config) (t u : Text) :
    encodeText c (t ++ u) = encodeText c t ++ encodeText c u := by simp [encodeText]

theorem encodeText_length (c : Config) (t : Text) : (encodeText c t).length = 4 * t.length := by
  induction t with
  | nil => rfl
  | cons a t ih => simp [ih]; omega

/-- Every bit of a character into which pair `p` was put. -/
theorem getLsbD_putPair (c : Config) (acc : Chr) {p : Nat} (hp : p < 4) (b : Line) (j : Nat) :
    (putPair c acc p b).getLsbD j =
      if j = 2 * p + 1 then b.testBit c.pHi else if j = 2 * p then b.testBit c.pLo
      else acc.getLsbD j := by
  rw [putPair, getLsbD_setChrBit _ (by omega), getLsbD_setChrBit _ (by omega)]

theorem pairIndex_lt (c : Config) {g : Nat} (h : g < 4) : pairIndex c g < 4 := by
  unfold pairIndex; split <;> omega

/-- R133: the two bits of pair `pairIndex c g` of a decoded character are the payload bits of line
symbol `g`. -/
theorem getLsbD_decodeChr (c : Config) (b0 b1 b2 b3 : Line) {g : Nat} (hg : g < 4) :
    (decodeChr c b0 b1 b2 b3).getLsbD (2 * pairIndex c g) = ([b0, b1, b2, b3].getD g 0).testBit c.pLo ∧
    (decodeChr c b0 b1 b2 b3).getLsbD (2 * pairIndex c g + 1)
      = ([b0, b1, b2, b3].getD g 0).testBit c.pHi := by
  unfold decodeChr
  simp only [getLsbD_putPair c _ (pairIndex_lt c (show 0 < 4 by decide)),
    getLsbD_putPair c _ (pairIndex_lt c (show 1 < 4 by decide)),
    getLsbD_putPair c _ (pairIndex_lt c (show 2 < 4 by decide)),
    getLsbD_putPair c _ (pairIndex_lt c (show 3 < 4 by decide))]
  unfold pairIndex
  cases c.pairOrder <;> (interval_cases g <;> simp)

/-- A character is its four pairs. -/
theorem chr_eq_of_pairs (c : Config) {x y : Chr}
    (h : ∀ g < 4, x.getLsbD (2 * pairIndex c g) = y.getLsbD (2 * pairIndex c g) ∧
      x.getLsbD (2 * pairIndex c g + 1) = y.getLsbD (2 * pairIndex c g + 1)) : x = y := by
  have h0 := h 0 (by decide)
  have h1 := h 1 (by decide)
  have h2 := h 2 (by decide)
  have h3 := h 3 (by decide)
  apply BitVec.eq_of_getLsbD_eq
  intro j hj
  unfold pairIndex at h0 h1 h2 h3
  cases ho : c.pairOrder <;> simp only [ho] at h0 h1 h2 h3 <;> interval_cases j <;> simp_all

/-- The payload bits of the symbol of pair `p`. -/
theorem testBit_pairOnLine {c : Config} (h : c.pLo ≠ c.pHi) (ch : Chr) (p : Nat) :
    (pairOnLine c ch p).testBit c.pLo = ch.getLsbD (2 * p) ∧
    (pairOnLine c ch p).testBit c.pHi = ch.getLsbD (2 * p + 1) := by
  have h' : ¬ c.pHi = c.pLo := fun e => h e.symm
  simp [pairOnLine, testBit_lineSymbol h, h']

/-- R135: DEC undoes ENC. -/
theorem decodeChr_encodeChr {c : Config} (h : c.pLo ≠ c.pHi) (ch : Chr) :
    decodeChr c (pairOnLine c ch (pairIndex c 0)) (pairOnLine c ch (pairIndex c 1))
      (pairOnLine c ch (pairIndex c 2)) (pairOnLine c ch (pairIndex c 3)) = ch := by
  apply chr_eq_of_pairs c
  intro g hg
  obtain ⟨a, b⟩ := getLsbD_decodeChr c (pairOnLine c ch (pairIndex c 0))
    (pairOnLine c ch (pairIndex c 1)) (pairOnLine c ch (pairIndex c 2))
    (pairOnLine c ch (pairIndex c 3)) hg
  rw [a, b]
  interval_cases g <;> exact testBit_pairOnLine h ch _

theorem decbOffset_eq (c : Config) {g : Nat} (hg : g < 4) :
    decbOffset c (2 * g) = 2 * pairIndex c g := by
  unfold decbOffset pairIndex; cases c.pairOrder <;> simp; omega

/-- DECB at the offset of line position `g` puts pair `pairIndex c g`. -/
theorem decbStep_eq (c : Config) (acc : Chr) {g : Nat} (hg : g < 4) (b : Line) :
    decbStep c acc (2 * g) b =
      if g = 3 then (putPair c acc (pairIndex c 3) b, 0, some (putPair c acc (pairIndex c 3) b))
      else (putPair c acc (pairIndex c g) b, 2 * (g + 1), none) := by
  simp only [decbStep, decbOffset_eq c hg, putPair]
  interval_cases g <;> simp

@[simp] theorem decbStep_0 (c : Config) (acc : Chr) (b : Line) :
    decbStep c acc 0 b = (putPair c acc (pairIndex c 0) b, 2, none) := by
  simpa using decbStep_eq c acc (g := 0) (by decide) b
@[simp] theorem decbStep_2 (c : Config) (acc : Chr) (b : Line) :
    decbStep c acc 2 b = (putPair c acc (pairIndex c 1) b, 4, none) := by
  simpa using decbStep_eq c acc (g := 1) (by decide) b
@[simp] theorem decbStep_4 (c : Config) (acc : Chr) (b : Line) :
    decbStep c acc 4 b = (putPair c acc (pairIndex c 2) b, 6, none) := by
  simpa using decbStep_eq c acc (g := 2) (by decide) b
@[simp] theorem decbStep_6 (c : Config) (acc : Chr) (b : Line) :
    decbStep c acc 6 b = (putPair c acc (pairIndex c 3) b, 0,
      some (putPair c acc (pairIndex c 3) b)) := by
  simpa using decbStep_eq c acc (g := 3) (by decide) b

/-- R134: the four pairs overwrite whatever the accumulator held. -/
theorem putPairs_forget (c : Config) (acc : Chr) (b0 b1 b2 b3 : Line) :
    putPair c (putPair c (putPair c (putPair c acc (pairIndex c 0) b0) (pairIndex c 1) b1)
      (pairIndex c 2) b2) (pairIndex c 3) b3 = decodeChr c b0 b1 b2 b3 := by
  apply BitVec.eq_of_getLsbD_eq
  intro j hj
  unfold decodeChr
  simp only [getLsbD_putPair c _ (pairIndex_lt c (show 0 < 4 by decide)),
    getLsbD_putPair c _ (pairIndex_lt c (show 1 < 4 by decide)),
    getLsbD_putPair c _ (pairIndex_lt c (show 2 < 4 by decide)),
    getLsbD_putPair c _ (pairIndex_lt c (show 3 < 4 by decide))]
  unfold pairIndex
  cases c.pairOrder <;> (interval_cases j <;> simp)

theorem decbStep_offset {c : Config} {acc : Chr} {s : Nat} {b : Line}
    (h : s = 0 ∨ s = 2 ∨ s = 4 ∨ s = 6) :
    ((decbStep c acc s b).2.2 = none ∧ (decbStep c acc s b).2.1 = s + 2 ∧ s < 6) ∨
    (∃ ch, (decbStep c acc s b).2.2 = some ch ∧ (decbStep c acc s b).2.1 = 0 ∧ s = 6) := by
  rcases h with rfl | rfl | rfl | rfl <;> simp [decbStep]

end Sys2Proof.Machine
end

