-- ==== Sys2Proof/Laws/Bytes.lean ====
section
/-! SUPPORT. Each reader of Decode.lean gives back what its writer wrote, and leaves the rest. -/

namespace Sys2Proof

@[simp] theorem leBytes_length (k v : Nat) : (leBytes k v).length = k := by
  induction k generalizing v with
  | zero => rfl
  | succ k ih => simp [leBytes, ih]

theorem leNat_leBytes (k v : Nat) : leNat (leBytes k v) = v % 256 ^ k := by
  induction k generalizing v with
  | zero => simp [leBytes, leNat, Nat.mod_one]
  | succ k ih =>
    have h := Nat.mod_mul (a := 256) (b := 256 ^ k) (x := v)
    simp [leBytes, leNat, ih, Nat.pow_succ', h]

theorem leNat_leBytes_of_lt {k v : Nat} (h : v < 256 ^ k) : leNat (leBytes k v) = v := by
  rw [leNat_leBytes, Nat.mod_eq_of_lt h]

@[simp] theorem beBytes_length (k v : Nat) : (beBytes k v).length = k := by simp [beBytes]

theorem beNat_beBytes_of_lt {k v : Nat} (h : v < 256 ^ k) : beNat (beBytes k v) = v := by
  simp [beNat, beBytes, leNat_leBytes_of_lt h]

theorem splitBytes_append (l r : List Byte) : splitBytes l.length (l ++ r) = some (l, r) := by
  simp [splitBytes]

theorem splitBytes_append_of_length {k : Nat} {l : List Byte} (h : l.length = k) (r : List Byte) :
    splitBytes k (l ++ r) = some (l, r) := by
  subst h; exact splitBytes_append l r

@[simp] theorem writeNum_length (v : Nat) : (writeNum v).length = 8 := leBytes_length 8 v

theorem readNum_writeNum {v : Nat} (h : fitsNum v) (r : List Byte) :
    readNum (writeNum v ++ r) = some (v, r) := by
  rw [readNum, splitBytes_append_of_length (writeNum_length v)]
  simp only [Option.map_some, writeNum]
  rw [leNat_leBytes_of_lt (by simpa [fitsNum] using h)]

theorem readNum_writeNum_nil {v : Nat} (h : fitsNum v) :
    readNum (writeNum v) = some (v, []) := by
  simpa using readNum_writeNum h []

theorem readInt_writeInt {v : Int} (lo : -(2 ^ 63 : Int) ≤ v) (hi : v < 2 ^ 63) (r : List Byte) :
    readInt (writeInt v ++ r) = some (v, r) := by
  have hf : fitsNum (v % 2 ^ 64).toNat := by unfold fitsNum; omega
  have hv : (((v % 2 ^ 64).toNat : Nat) : Int) = v % 2 ^ 64 := by omega
  simp only [readInt, writeInt, readNum_writeNum hf, Option.map_some]
  congr 2
  split <;> omega

theorem readInt_writeInt_nil {v : Int} (lo : -(2 ^ 63 : Int) ≤ v) (hi : v < 2 ^ 63) :
    readInt (writeInt v) = some (v, []) := by
  simpa using readInt_writeInt lo hi []

theorem readText_writeText {t : Text} (h : fitsNum t.length) (r : List Byte) :
    readText (writeText t ++ r) = some (t, r) := by
  simp only [readText, writeText, List.append_assoc, readNum_writeNum h, Option.bind_some]
  exact splitBytes_append t r

theorem readText_writeText_nil {t : Text} (h : fitsNum t.length) :
    readText (writeText t) = some (t, []) := by
  simpa using readText_writeText h []

@[simp] theorem readBool_writeBool (v : Bool) (r : List Byte) :
    readBool (writeBool v ++ r) = some (v, r) := by
  cases v <;> rfl

@[simp] theorem readBool_writeBool_nil (v : Bool) : readBool (writeBool v) = some (v, []) := by
  cases v <;> rfl

@[simp] theorem readRequester_writeRequester (q : Requester) (r : List Byte) :
    readRequester (writeRequester q ++ r) = some (q, r) := by
  cases q <;> rfl

@[simp] theorem readRequester_writeRequester_nil (q : Requester) :
    readRequester (writeRequester q) = some (q, []) := by
  cases q <;> rfl

/-- Decoding a host-form request reads its operands. -/
theorem decode_hostRequest {c : Config} {op : Byte} {bs : List Byte} {i : Instr}
    (h : readOperands op.toNat bs = some (i, [])) : decode c (hostRequest op bs) = some i := by
  simp [decode, hostRequest, readHost, h]

/-- Line symbols that fit their bytes are read back. -/
theorem readSymbols_symbolBytes (c : Config) {l : List Line} (h : ∀ b ∈ l, b < 256 ^ symbolSize c) :
    readSymbols c l.length (symbolBytes c l) = some l := by
  induction l with
  | nil => rfl
  | cons b l ih =>
    have hb := leNat_leBytes_of_lt (h b List.mem_cons_self)
    have hs := splitBytes_append (leBytes (symbolSize c) b) (symbolBytes c l)
    rw [leBytes_length] at hs
    show ((splitBytes (symbolSize c) (leBytes (symbolSize c) b ++ symbolBytes c l)).bind _) = _
    rw [hs]
    simp only [Option.bind_some]
    rw [ih fun x hx => h x (List.mem_cons_of_mem _ hx), hb]
    rfl

/-- A symbol of `LINE_W` bits fits its bytes. -/
theorem symbol_fits (c : Config) {b : Line} (h : b < 2 ^ c.lineW) : b < 256 ^ symbolSize c := by
  refine Nat.lt_of_lt_of_le h ?_
  rw [show (256 : Nat) = 2 ^ 8 from rfl, ← Nat.pow_mul]
  exact Nat.pow_le_pow_right (by decide) (by unfold symbolSize; omega)

end Sys2Proof
end

