-- ==== Sys2Proof/Laws/State.lean ====
section
/-! SUPPORT. One lemma per field of State per named update, true by rfl. -/

namespace Sys2Proof.Machine

section
variable (s : State) (t : Framer)
@[simp] theorem State.withT_cfg : (s.withT t).cfg = s.cfg := rfl
@[simp] theorem State.withT_t : (s.withT t).t = t := rfl
@[simp] theorem State.withT_rxq : (s.withT t).rxq = s.rxq := rfl
@[simp] theorem State.withT_txs : (s.withT t).txs = s.txs := rfl
@[simp] theorem State.withT_time : (s.withT t).time = s.time := rfl
@[simp] theorem State.withT_stores : (s.withT t).stores = s.stores := rfl
@[simp] theorem State.withT_out : (s.withT t).out = s.out := rfl
@[simp] theorem State.withT_status : (s.withT t).status = s.status := rfl
@[simp] theorem State.withT_env : (s.withT t).env = s.env := rfl
end

section
variable (s : State) (q : List Line)
@[simp] theorem State.withRxq_cfg : (s.withRxq q).cfg = s.cfg := rfl
@[simp] theorem State.withRxq_t : (s.withRxq q).t = s.t := rfl
@[simp] theorem State.withRxq_rxq : (s.withRxq q).rxq = q := rfl
@[simp] theorem State.withRxq_txs : (s.withRxq q).txs = s.txs := rfl
@[simp] theorem State.withRxq_time : (s.withRxq q).time = s.time := rfl
@[simp] theorem State.withRxq_stores : (s.withRxq q).stores = s.stores := rfl
@[simp] theorem State.withRxq_out : (s.withRxq q).out = s.out := rfl
@[simp] theorem State.withRxq_status : (s.withRxq q).status = s.status := rfl
@[simp] theorem State.withRxq_env : (s.withRxq q).env = s.env := rfl
end

section
variable (s : State) (l : List Line)
@[simp] theorem State.withTxs_cfg : (s.withTxs l).cfg = s.cfg := rfl
@[simp] theorem State.withTxs_t : (s.withTxs l).t = s.t := rfl
@[simp] theorem State.withTxs_rxq : (s.withTxs l).rxq = s.rxq := rfl
@[simp] theorem State.withTxs_txs : (s.withTxs l).txs = l := rfl
@[simp] theorem State.withTxs_time : (s.withTxs l).time = s.time := rfl
@[simp] theorem State.withTxs_stores : (s.withTxs l).stores = s.stores := rfl
@[simp] theorem State.withTxs_out : (s.withTxs l).out = s.out := rfl
@[simp] theorem State.withTxs_status : (s.withTxs l).status = s.status := rfl
@[simp] theorem State.withTxs_env : (s.withTxs l).env = s.env := rfl
end

section
variable (s : State) (n : Nat)
@[simp] theorem State.withTime_cfg : (s.withTime n).cfg = s.cfg := rfl
@[simp] theorem State.withTime_t : (s.withTime n).t = s.t := rfl
@[simp] theorem State.withTime_rxq : (s.withTime n).rxq = s.rxq := rfl
@[simp] theorem State.withTime_txs : (s.withTime n).txs = s.txs := rfl
@[simp] theorem State.withTime_time : (s.withTime n).time = n := rfl
@[simp] theorem State.withTime_stores : (s.withTime n).stores = s.stores := rfl
@[simp] theorem State.withTime_out : (s.withTime n).out = s.out := rfl
@[simp] theorem State.withTime_status : (s.withTime n).status = s.status := rfl
@[simp] theorem State.withTime_env : (s.withTime n).env = s.env := rfl
end

section
variable (s : State) (l : List Store)
@[simp] theorem State.withStores_cfg : (s.withStores l).cfg = s.cfg := rfl
@[simp] theorem State.withStores_t : (s.withStores l).t = s.t := rfl
@[simp] theorem State.withStores_rxq : (s.withStores l).rxq = s.rxq := rfl
@[simp] theorem State.withStores_txs : (s.withStores l).txs = s.txs := rfl
@[simp] theorem State.withStores_time : (s.withStores l).time = s.time := rfl
@[simp] theorem State.withStores_stores : (s.withStores l).stores = l := rfl
@[simp] theorem State.withStores_out : (s.withStores l).out = s.out := rfl
@[simp] theorem State.withStores_status : (s.withStores l).status = s.status := rfl
@[simp] theorem State.withStores_env : (s.withStores l).env = s.env := rfl
end

section
variable (s : State) (r : Result)
@[simp] theorem State.withOut_cfg : (s.withOut r).cfg = s.cfg := rfl
@[simp] theorem State.withOut_t : (s.withOut r).t = s.t := rfl
@[simp] theorem State.withOut_rxq : (s.withOut r).rxq = s.rxq := rfl
@[simp] theorem State.withOut_txs : (s.withOut r).txs = s.txs := rfl
@[simp] theorem State.withOut_time : (s.withOut r).time = s.time := rfl
@[simp] theorem State.withOut_stores : (s.withOut r).stores = s.stores := rfl
@[simp] theorem State.withOut_out : (s.withOut r).out = r := rfl
@[simp] theorem State.withOut_status : (s.withOut r).status = s.status := rfl
@[simp] theorem State.withOut_env : (s.withOut r).env = s.env := rfl
end

section
variable (s : State) (st : Status)
@[simp] theorem State.withStatus_cfg : (s.withStatus st).cfg = s.cfg := rfl
@[simp] theorem State.withStatus_t : (s.withStatus st).t = s.t := rfl
@[simp] theorem State.withStatus_rxq : (s.withStatus st).rxq = s.rxq := rfl
@[simp] theorem State.withStatus_txs : (s.withStatus st).txs = s.txs := rfl
@[simp] theorem State.withStatus_time : (s.withStatus st).time = s.time := rfl
@[simp] theorem State.withStatus_stores : (s.withStatus st).stores = s.stores := rfl
@[simp] theorem State.withStatus_out : (s.withStatus st).out = s.out := rfl
@[simp] theorem State.withStatus_status : (s.withStatus st).status = st := rfl
@[simp] theorem State.withStatus_env : (s.withStatus st).env = s.env := rfl
end

section
variable (s : State) (e : Env)
@[simp] theorem State.withEnv_cfg : (s.withEnv e).cfg = s.cfg := rfl
@[simp] theorem State.withEnv_t : (s.withEnv e).t = s.t := rfl
@[simp] theorem State.withEnv_rxq : (s.withEnv e).rxq = s.rxq := rfl
@[simp] theorem State.withEnv_txs : (s.withEnv e).txs = s.txs := rfl
@[simp] theorem State.withEnv_time : (s.withEnv e).time = s.time := rfl
@[simp] theorem State.withEnv_stores : (s.withEnv e).stores = s.stores := rfl
@[simp] theorem State.withEnv_out : (s.withEnv e).out = s.out := rfl
@[simp] theorem State.withEnv_status : (s.withEnv e).status = s.status := rfl
@[simp] theorem State.withEnv_env : (s.withEnv e).env = e := rfl
end

section
variable (s : State) (p : Phase)
@[simp] theorem State.withPhase_cfg : (s.withPhase p).cfg = s.cfg := rfl
@[simp] theorem State.withPhase_t : (s.withPhase p).t = { s.t with phase := p } := rfl
@[simp] theorem State.withPhase_rxq : (s.withPhase p).rxq = s.rxq := rfl
@[simp] theorem State.withPhase_txs : (s.withPhase p).txs = s.txs := rfl
@[simp] theorem State.withPhase_time : (s.withPhase p).time = s.time := rfl
@[simp] theorem State.withPhase_stores : (s.withPhase p).stores = s.stores := rfl
@[simp] theorem State.withPhase_out : (s.withPhase p).out = s.out := rfl
@[simp] theorem State.withPhase_status : (s.withPhase p).status = s.status := rfl
@[simp] theorem State.withPhase_env : (s.withPhase p).env = s.env := rfl
end

section
variable (s : State)
@[simp] theorem State.dropDecoded_cfg : s.dropDecoded.cfg = s.cfg := rfl
@[simp] theorem State.dropDecoded_t :
    s.dropDecoded.t = { s.t with rxtext := [], rxacc := 0, rxs := 0 } := rfl
@[simp] theorem State.dropDecoded_rxq : s.dropDecoded.rxq = s.rxq := rfl
@[simp] theorem State.dropDecoded_txs : s.dropDecoded.txs = s.txs := rfl
@[simp] theorem State.dropDecoded_time : s.dropDecoded.time = s.time := rfl
@[simp] theorem State.dropDecoded_stores : s.dropDecoded.stores = s.stores := rfl
@[simp] theorem State.dropDecoded_out : s.dropDecoded.out = s.out := rfl
@[simp] theorem State.dropDecoded_status : s.dropDecoded.status = s.status := rfl
@[simp] theorem State.dropDecoded_env : s.dropDecoded.env = s.env := rfl
end

section
variable (s : State) (b : Bool)
@[simp] theorem State.withLink_cfg : (s.withLink b).cfg = s.cfg := rfl
@[simp] theorem State.withLink_t : (s.withLink b).t = { s.t with link := b } := rfl
@[simp] theorem State.withLink_rxq : (s.withLink b).rxq = s.rxq := rfl
@[simp] theorem State.withLink_txs : (s.withLink b).txs = s.txs := rfl
@[simp] theorem State.withLink_time : (s.withLink b).time = s.time := rfl
@[simp] theorem State.withLink_stores : (s.withLink b).stores = s.stores := rfl
@[simp] theorem State.withLink_out : (s.withLink b).out = s.out := rfl
@[simp] theorem State.withLink_status : (s.withLink b).status = s.status := rfl
@[simp] theorem State.withLink_env : (s.withLink b).env = s.env := rfl
end

end Sys2Proof.Machine
end

