-- ==== Sys2Proof/Laws/Receive.lean ====
section
/-! SUPPORT. Everything the receive phase can do (40_transport R143 to R149, R157): what each
operation on the line changes, the two ways the loop ends, and the observations it made. -/

namespace Sys2Proof.Machine

/-! ### What the receive phase leaves alone -/

/-- The environment but for the arrivals. -/
structure Env.SameButArrivals (e e' : Env) : Prop where
  clock    : e'.clock = e.clock
  clockN   : e'.clockN = e.clockN
  sched    : e'.sched = e.sched
  schedN   : e'.schedN = e.schedN
  pollPort : e'.pollPort = e.pollPort
  reqPort  : e'.reqPort = e.reqPort
  peerPort : e'.peerPort = e.peerPort
  seqPort  : e'.seqPort = e.seqPort

/-- All but `RXQ`, the phase, the decoder state and the arrivals is as before. -/
structure State.RxFrame (s s' : State) : Prop where
  cfg    : s'.cfg = s.cfg
  txs    : s'.txs = s.txs
  time   : s'.time = s.time
  stores : s'.stores = s.stores
  out    : s'.out = s.out
  status : s'.status = s.status
  env    : s.env.SameButArrivals s'.env
  lock   : s'.t.lock = s.t.lock
  link   : s'.t.link = s.t.link
  txbuf  : s'.t.txbuf = s.t.txbuf
  txi    : s'.t.txi = s.t.txi
  txg    : s'.t.txg = s.t.txg

theorem Env.SameButArrivals.refl (e : Env) : e.SameButArrivals e :=
  ⟨rfl, rfl, rfl, rfl, rfl, rfl, rfl, rfl⟩

theorem Env.SameButArrivals.trans {a b c : Env} (h : a.SameButArrivals b) (k : b.SameButArrivals c) :
    a.SameButArrivals c :=
  ⟨k.clock.trans h.clock, k.clockN.trans h.clockN, k.sched.trans h.sched, k.schedN.trans h.schedN,
    k.pollPort.trans h.pollPort, k.reqPort.trans h.reqPort, k.peerPort.trans h.peerPort,
    k.seqPort.trans h.seqPort⟩

theorem State.RxFrame.refl (s : State) : s.RxFrame s :=
  ⟨rfl, rfl, rfl, rfl, rfl, rfl, .refl _, rfl, rfl, rfl, rfl, rfl⟩

theorem State.RxFrame.trans {a b c : State} (h : a.RxFrame b) (k : b.RxFrame c) : a.RxFrame c :=
  ⟨k.cfg.trans h.cfg, k.txs.trans h.txs, k.time.trans h.time, k.stores.trans h.stores,
    k.out.trans h.out, k.status.trans h.status, h.env.trans k.env, k.lock.trans h.lock,
    k.link.trans h.link, k.txbuf.trans h.txbuf, k.txi.trans h.txi, k.txg.trans h.txg⟩

/-! ### The peer -/

/-- What the peer sends by the next receive iteration (log 4). -/
def State.arriving (s : State) : List Line := s.env.arrivals.headD (Config.peerSends s.env.arrivalN)

@[simp] theorem State.peerPut_t (s : State) (l : List Line) : (s.peerPut l).t = s.t := rfl
@[simp] theorem State.peerPut_cfg (s : State) (l : List Line) : (s.peerPut l).cfg = s.cfg := rfl
@[simp] theorem State.peerPut_rxq (s : State) (l : List Line) :
    (s.peerPut l).rxq = l.foldl (queueOne s.cfg) s.rxq := rfl

@[simp] theorem State.peerMoves_t (s : State) : s.peerMoves.t = s.t := by
  unfold State.peerMoves; split <;> rfl

@[simp] theorem State.peerMoves_cfg (s : State) : s.peerMoves.cfg = s.cfg := by
  unfold State.peerMoves; split <;> rfl

theorem State.peerMoves_rxq (s : State) :
    s.peerMoves.rxq = s.arriving.foldl (queueOne s.cfg) s.rxq := by
  unfold State.peerMoves State.arriving
  cases s.env.arrivals <;> rfl

theorem State.peerMoves_frame (s : State) : s.RxFrame s.peerMoves := by
  unfold State.peerMoves
  split <;> exact ⟨rfl, rfl, rfl, rfl, rfl, rfl, ⟨rfl, rfl, rfl, rfl, rfl, rfl, rfl, rfl⟩, rfl, rfl,
    rfl, rfl, rfl⟩

theorem queueOne_none {c : Config} (h : c.rxqCap = none) (q : List Line) (b : Line) :
    queueOne c q b = q ++ [b % 2 ^ c.lineW] := by simp [queueOne, h]

/-- With unbounded capacity nothing is lost (10_state R23). -/
theorem queue_none {c : Config} (h : c.rxqCap = none) (l : List Line) (q : List Line) :
    l.foldl (queueOne c) q = q ++ l.map (· % 2 ^ c.lineW) := by
  induction l generalizing q with
  | nil => simp
  | cons b l ih => rw [List.foldl_cons, ih, queueOne_none h]; simp

theorem mem_queueOne {c : Config} {q : List Line} {b x : Line} (h : x ∈ queueOne c q b) :
    x ∈ q ∨ x = b % 2 ^ c.lineW := by
  unfold queueOne at h
  split at h
  · simpa using h
  · split at h
    · simpa using h
    · split at h
      · exact .inl h
      · simpa using List.mem_of_mem_drop h

/-- Queued symbols have `LINE_W` bits. -/
theorem queue_lt {c : Config} (l : List Line) {q : List Line} (h : ∀ x ∈ q, x < 2 ^ c.lineW) :
    ∀ x ∈ l.foldl (queueOne c) q, x < 2 ^ c.lineW := by
  induction l generalizing q with
  | nil => exact h
  | cons b l ih =>
    apply ih
    intro x hx
    rcases mem_queueOne hx with hx | rfl
    · exact h x hx
    · exact Nat.mod_lt _ (Nat.two_pow_pos _)

theorem queueOne_length {c : Config} {cap : Nat} (hc : c.rxqCap = some cap) {q : List Line}
    (h : q.length ≤ cap) (b : Line) : (queueOne c q b).length ≤ cap := by
  unfold queueOne
  rw [hc]
  dsimp only
  split
  · simp; omega
  · split
    · exact h
    · simp; omega

/-- The queue never exceeds its capacity. -/
theorem queue_length {c : Config} {cap : Nat} (hc : c.rxqCap = some cap) (l : List Line)
    {q : List Line} (h : q.length ≤ cap) : (l.foldl (queueOne c) q).length ≤ cap := by
  induction l generalizing q with
  | nil => exact h
  | cons b l ih => exact ih (queueOne_length hc h b)

/-! ### One iteration -/

/-- ITER (R146), case by case: idle on an empty queue, or the oldest symbol decoded. -/
theorem State.iterate_cases (s : State) :
    (s.peerMoves.rxq = [] ∧
      s.iterate = s.peerMoves.withT { s.t with tries := s.t.tries + 1 }) ∨
    (∃ b q, s.peerMoves.rxq = b :: q ∧
      s.iterate = (s.peerMoves.withRxq q).withT
        { s.t with rxacc := (decbStep s.cfg s.t.rxacc s.t.rxs b).1,
                   rxs := (decbStep s.cfg s.t.rxacc s.t.rxs b).2.1,
                   rxtext := s.t.rxtext ++ (decbStep s.cfg s.t.rxacc s.t.rxs b).2.2.toList,
                   tries := s.t.tries + 1 }) := by
  unfold State.iterate
  dsimp only
  split
  · rename_i h
    exact .inl ⟨h, by simp⟩
  · rename_i b q h
    exact .inr ⟨b, q, h, by simp [Framer.decb]⟩

theorem State.iterate_frame (s : State) : s.RxFrame s.iterate := by
  have h := s.peerMoves_frame
  rcases s.iterate_cases with ⟨-, e⟩ | ⟨b, q, -, e⟩ <;> rw [e] <;>
    exact ⟨h.cfg, h.txs, h.time, h.stores, h.out, h.status, h.env, rfl, rfl, rfl, rfl, rfl⟩

@[simp] theorem State.iterate_cfg (s : State) : s.iterate.cfg = s.cfg := s.iterate_frame.cfg

@[simp] theorem State.iterate_tries (s : State) : s.iterate.t.tries = s.t.tries + 1 := by
  rcases s.iterate_cases with ⟨-, e⟩ | ⟨b, q, -, e⟩ <;> rw [e] <;> rfl

@[simp] theorem State.iterate_phase (s : State) : s.iterate.t.phase = s.t.phase := by
  rcases s.iterate_cases with ⟨-, e⟩ | ⟨b, q, -, e⟩ <;> rw [e] <;> rfl

/-- ITER on an empty queue with nothing arriving: only the counter moves (R146). -/
theorem State.iterate_idle {s : State} {rest : List (List Line)}
    (ha : s.env.arrivals = [] :: rest) (hq : s.rxq = []) :
    s.iterate = (s.withEnv { s.env with arrivals := rest }).withT
      { s.t with tries := s.t.tries + 1 } := by
  have h : s.peerMoves = s.withEnv { s.env with arrivals := rest } := by
    unfold State.peerMoves
    rw [ha]
    rfl
  rcases s.iterate_cases with ⟨-, e⟩ | ⟨b, q, e, -⟩
  · rw [e, h]
  · rw [h, State.withEnv_rxq, hq] at e; cases e

/-- ITER with one symbol arriving at an empty queue of unbounded capacity: it is taken in (R146). -/
theorem State.iterate_symbol {s : State} {b : Line} {rest : List (List Line)}
    (hc : s.cfg.rxqCap = none) (hb : b < 2 ^ s.cfg.lineW) (ha : s.env.arrivals = [b] :: rest)
    (hq : s.rxq = []) :
    s.iterate = (s.withEnv { s.env with arrivals := rest }).withT
      { s.t with rxacc := (decbStep s.cfg s.t.rxacc s.t.rxs b).1,
                 rxs := (decbStep s.cfg s.t.rxacc s.t.rxs b).2.1,
                 rxtext := s.t.rxtext ++ (decbStep s.cfg s.t.rxacc s.t.rxs b).2.2.toList,
                 tries := s.t.tries + 1 } := by
  have hp : s.peerMoves.rxq = [b] := by
    rw [State.peerMoves_rxq, State.arriving, ha, queue_none hc, hq]
    simp [Nat.mod_eq_of_lt hb]
  rcases s.iterate_cases with ⟨h, -⟩ | ⟨b', q, h, e⟩
  · rw [hp] at h; cases h
  · rw [hp] at h
    cases h
    rw [e]
    unfold State.peerMoves
    rw [ha]
    simp only [State.withRxq, State.withEnv, State.withT, State.peerPut, hq]

/-! ### The loop -/

/-- Nothing decoded is held (40_transport R149). -/
structure Framer.Dropped (t : Framer) : Prop where
  rxtext : t.rxtext = []
  rxacc  : t.rxacc = 0
  rxs    : t.rxs = 0

/-- One pass whose head test fails (R145). -/
theorem State.rxLoop_next {s : State} (n : Nat) (h : endsWith s.t.rxtext s.cfg.term = false) :
    State.rxLoop (n + 1) s = State.rxLoop n s.iterate := by
  simp [State.rxLoop, h]

/-- The two ways the receive loop ends (R145, R147, R149, R250). -/
theorem State.rxLoop_spec (n : Nat) (s : State) :
    s.RxFrame (State.rxLoop n s).2.2 ∧
    (((State.rxLoop n s).1 = .ok ∧ (State.rxLoop n s).2.1 = (State.rxLoop n s).2.2.t.rxtext ∧
        endsWith (State.rxLoop n s).2.1 s.cfg.term = true ∧
        (State.rxLoop n s).2.2.t.phase = .strip ∧
        s.t.tries ≤ (State.rxLoop n s).2.2.t.tries ∧
        (State.rxLoop n s).2.2.t.tries < s.t.tries + n) ∨
      ((State.rxLoop n s).1 = .timeout ∧ (State.rxLoop n s).2.1 = [] ∧
        (State.rxLoop n s).2.2.t.phase = .idle ∧ (State.rxLoop n s).2.2.t.Dropped ∧
        (State.rxLoop n s).2.2.t.tries = s.t.tries + n)) := by
  induction n generalizing s with
  | zero =>
    exact ⟨⟨rfl, rfl, rfl, rfl, rfl, rfl, .refl _, rfl, rfl, rfl, rfl, rfl⟩,
      .inr ⟨rfl, rfl, rfl, ⟨rfl, rfl, rfl⟩, rfl⟩⟩
  | succ n ih =>
    unfold State.rxLoop
    by_cases h : endsWith s.t.rxtext s.cfg.term = true
    · simp only [h, if_true]
      exact ⟨⟨rfl, rfl, rfl, rfl, rfl, rfl, .refl _, rfl, rfl, rfl, rfl, rfl⟩,
        .inl ⟨trivial, rfl, trivial, rfl, Nat.le_refl _, by simp⟩⟩
    · simp only [if_neg h]
      obtain ⟨hf, hr⟩ := ih s.iterate
      refine ⟨s.iterate_frame.trans hf, ?_⟩
      simp only [State.iterate_cfg, State.iterate_tries] at hr
      rcases hr with ⟨a, b, c, d, e, f⟩ | ⟨a, b, c, g, d⟩
      · exact .inl ⟨a, b, c, d, by omega, by omega⟩
      · exact .inr ⟨a, b, c, g, by omega⟩

@[simp] theorem State.startRx_cfg (s : State) : s.startRx.cfg = s.cfg := rfl

theorem State.startRx_frame (s : State) : s.RxFrame s.startRx :=
  ⟨rfl, rfl, rfl, rfl, rfl, rfl, .refl _, rfl, rfl, rfl, rfl, rfl⟩

/-- RXRESP (R145): what it can answer. -/
theorem State.receive_spec (s : State) :
    s.RxFrame s.receive.2.2 ∧
    ((s.receive.1 = .ok ∧ s.receive.2.1 = s.receive.2.2.t.rxtext ∧
        endsWith s.receive.2.1 s.cfg.term = true ∧ s.receive.2.2.t.phase = .strip ∧
        s.receive.2.2.t.tries ≤ s.cfg.retryMax) ∨
      (s.receive.1 = .timeout ∧ s.receive.2.1 = [] ∧ s.receive.2.2.t.phase = .idle ∧
        s.receive.2.2.t.Dropped ∧ s.receive.2.2.t.tries = s.cfg.retryMax + 1)) := by
  obtain ⟨hf, hr⟩ := State.rxLoop_spec (s.cfg.retryMax + 1) s.startRx
  refine ⟨s.startRx_frame.trans hf, ?_⟩
  rcases hr with ⟨a, b, c, d, -, f⟩ | ⟨a, b, c, g, d⟩
  · rw [show s.startRx.t.tries = 0 from rfl, Nat.zero_add] at f
    exact .inl ⟨a, b, c, d, Nat.lt_succ_iff.mp f⟩
  · rw [show s.startRx.t.tries = 0 from rfl, Nat.zero_add] at d
    exact .inr ⟨a, b, c, g, d⟩

/-! ### What every iteration keeps -/

/-- A property of states that arrivals and iterations keep holds after the loop, if it does not
look at the phase and dropping what was decoded keeps it. -/
theorem State.rxLoop_keeps {P : State → Prop} (step : ∀ s, P s → P s.iterate)
    (drop : ∀ s, P s → P s.dropDecoded) (phase : ∀ s p, P s → P (s.withPhase p)) (n : Nat) {s : State} (h : P s) :
    P (State.rxLoop n s).2.2 := by
  induction n generalizing s with
  | zero => exact phase _ _ (drop s h)
  | succ n ih =>
    unfold State.rxLoop
    split
    · exact phase s _ h
    · exact ih (step s h)

theorem State.iterate_rxq_lt {s : State} (h : ∀ b ∈ s.rxq, b < 2 ^ s.cfg.lineW) :
    ∀ b ∈ s.iterate.rxq, b < 2 ^ s.cfg.lineW := by
  have hp : ∀ b ∈ s.peerMoves.rxq, b < 2 ^ s.cfg.lineW := by
    rw [State.peerMoves_rxq]; exact queue_lt _ h
  rcases s.iterate_cases with ⟨h0, e⟩ | ⟨b, q, h0, e⟩
  · rw [e]; exact hp
  · rw [e]; intro x hx
    exact hp x (by rw [h0]; exact List.mem_cons_of_mem _ hx)

theorem State.iterate_rxq_length {s : State} {cap : Nat} (hc : s.cfg.rxqCap = some cap)
    (h : s.rxq.length ≤ cap) : s.iterate.rxq.length ≤ cap := by
  have hp : s.peerMoves.rxq.length ≤ cap := by
    rw [State.peerMoves_rxq]; exact queue_length hc _ h
  rcases s.iterate_cases with ⟨h0, e⟩ | ⟨b, q, h0, e⟩
  · rw [e]; exact hp
  · rw [e]
    rw [h0] at hp
    simp only [List.length_cons] at hp
    show q.length ≤ cap
    omega

/-- The decoder offset is one of 0, 2, 4, 6, and the characters and pairs taken in are at most the
iterations made (10_state R26, R27). -/
def Framer.Counted (t : Framer) : Prop :=
  (t.rxs = 0 ∨ t.rxs = 2 ∨ t.rxs = 4 ∨ t.rxs = 6) ∧ 8 * t.rxtext.length + t.rxs ≤ 2 * t.tries

theorem State.iterate_counted {s : State} (h : s.t.Counted) : s.iterate.t.Counted := by
  obtain ⟨h1, h2⟩ := h
  rcases s.iterate_cases with ⟨-, e⟩ | ⟨b, q, -, e⟩
  · rw [e]
    exact ⟨h1, by show 8 * s.t.rxtext.length + s.t.rxs ≤ 2 * (s.t.tries + 1); omega⟩
  · have hs : s.iterate.t.rxs = (decbStep s.cfg s.t.rxacc s.t.rxs b).2.1 := by rw [e]; rfl
    have ht : s.iterate.t.rxtext
        = s.t.rxtext ++ (decbStep s.cfg s.t.rxacc s.t.rxs b).2.2.toList := by rw [e]; rfl
    unfold Framer.Counted
    rw [hs, ht, State.iterate_tries]
    rcases decbStep_offset (c := s.cfg) (acc := s.t.rxacc) (b := b) h1 with ⟨a, d, l⟩ | ⟨ch, a, d, l⟩
    · rw [a, d]; simp only [Option.toList_none, List.append_nil]; omega
    · rw [a, d]
      rw [l] at h2
      refine ⟨.inl rfl, ?_⟩
      simp only [Option.toList_some, List.length_append, List.length_cons, List.length_nil]
      omega

theorem State.receive_counted (s : State) : s.receive.2.2.t.Counted :=
  State.rxLoop_keeps (P := fun x => x.t.Counted) (fun _ hx => State.iterate_counted hx)
    (fun _ _ => ⟨.inl rfl, Nat.zero_le _⟩) (fun _ _ hx => hx) _ (s := s.startRx)
    ⟨.inl rfl, Nat.le_refl 0⟩

/-- The longest decoded text (10_state R27, 40_transport R150), on OK and on TIMEOUT. -/
theorem State.receive_rxtext_length (s : State) :
    s.receive.2.2.t.rxtext.length ≤ s.cfg.retryMax / 4 := by
  rcases s.receive_spec.2 with ⟨-, -, -, -, r⟩ | ⟨-, -, -, r, -⟩
  · have := s.receive_counted.2; omega
  · rw [r.rxtext]; exact Nat.zero_le _

/-! ### The loop does not look at the lock, the results, the stores or the line out -/

/-- A state with another lock owner. -/
def State.relock (s : State) (l : Lock) : State := s.withT { s.t with lock := l }

theorem State.iterate_relock (s : State) (l : Lock) : (s.relock l).iterate = s.iterate.relock l := by
  unfold State.iterate State.relock State.peerMoves
  dsimp only [State.withT_env, State.withT_cfg, State.withT_t]
  cases s.env.arrivals <;> dsimp only [State.peerPut, State.withRxq, State.withEnv, State.withT] <;>
    (split <;> rfl)

theorem State.rxLoop_relock (n : Nat) (s : State) (l : Lock) :
    State.rxLoop n (s.relock l) =
      ((State.rxLoop n s).1, (State.rxLoop n s).2.1, (State.rxLoop n s).2.2.relock l) := by
  induction n generalizing s with
  | zero => rfl
  | succ n ih =>
    unfold State.rxLoop
    by_cases h : endsWith s.t.rxtext s.cfg.term = true
    · have h' : endsWith (s.relock l).t.rxtext (s.relock l).cfg.term = true := h
      simp only [h, h', if_true]
      rfl
    · have h' : ¬ endsWith (s.relock l).t.rxtext (s.relock l).cfg.term = true := h
      simp only [if_neg h, if_neg h', State.iterate_relock, ih]

theorem State.receive_relock (s : State) (l : Lock) :
    (s.relock l).receive = (s.receive.1, s.receive.2.1, s.receive.2.2.relock l) :=
  State.rxLoop_relock (s.cfg.retryMax + 1) s.startRx l

/-- A state with other results. -/
def State.reout (s : State) (r : Result) (st : Status) : State := (s.withOut r).withStatus st

theorem State.iterate_reout (s : State) (r : Result) (st : Status) :
    (s.reout r st).iterate = s.iterate.reout r st := by
  unfold State.iterate State.reout State.peerMoves
  dsimp only [State.withOut_env, State.withStatus_env]
  cases s.env.arrivals <;>
    dsimp only [State.peerPut, State.withRxq, State.withEnv, State.withOut, State.withStatus] <;>
    (split <;> rfl)

theorem State.rxLoop_reout (n : Nat) (s : State) (r : Result) (st : Status) :
    State.rxLoop n (s.reout r st) =
      ((State.rxLoop n s).1, (State.rxLoop n s).2.1, (State.rxLoop n s).2.2.reout r st) := by
  induction n generalizing s with
  | zero => rfl
  | succ n ih =>
    unfold State.rxLoop
    by_cases h : endsWith s.t.rxtext s.cfg.term = true
    · have h' : endsWith (s.reout r st).t.rxtext (s.reout r st).cfg.term = true := h
      simp only [h, h', if_true]
      rfl
    · have h' : ¬ endsWith (s.reout r st).t.rxtext (s.reout r st).cfg.term = true := h
      simp only [if_neg h, if_neg h', State.iterate_reout, ih]

/-! ### Nor at the ports and the account of turns -/

/-- Another environment but for the arrivals and the clock. -/
def Env.rebook (e b : Env) : Env :=
  { b with arrivals := e.arrivals, arrivalN := e.arrivalN, clock := e.clock, clockN := e.clockN }

/-- A state with other ports and another account of turns. -/
def State.rebook (s : State) (b : Env) : State := s.withEnv (s.env.rebook b)

theorem State.iterate_rebook (s : State) (b : Env) : (s.rebook b).iterate = s.iterate.rebook b := by
  unfold State.iterate State.rebook State.peerMoves
  dsimp only [State.withEnv_env, Env.rebook]
  cases s.env.arrivals <;>
    dsimp only [State.peerPut, State.withRxq, State.withEnv, Env.rebook] <;> (split <;> rfl)

theorem State.rxLoop_rebook (n : Nat) (s : State) (b : Env) :
    State.rxLoop n (s.rebook b) =
      ((State.rxLoop n s).1, (State.rxLoop n s).2.1, (State.rxLoop n s).2.2.rebook b) := by
  induction n generalizing s with
  | zero => rfl
  | succ n ih =>
    unfold State.rxLoop
    by_cases h : endsWith s.t.rxtext s.cfg.term = true
    · have h' : endsWith (s.rebook b).t.rxtext (s.rebook b).cfg.term = true := h
      simp only [h, h', if_true]
      rfl
    · have h' : ¬ endsWith (s.rebook b).t.rxtext (s.rebook b).cfg.term = true := h
      simp only [if_neg h, if_neg h', State.iterate_rebook, ih]

theorem State.receive_rebook (s : State) (b : Env) :
    (s.rebook b).receive = (s.receive.1, s.receive.2.1, s.receive.2.2.rebook b) :=
  State.rxLoop_rebook (s.cfg.retryMax + 1) s.startRx b

/-! ### Each iteration uses up one arrival -/

theorem State.iterate_env (s : State) :
    s.iterate.env = { s.env with arrivals := s.env.arrivals.tail,
                                 arrivalN := s.env.arrivalN + (1 - s.env.arrivals.length) } := by
  have h : s.iterate.env = s.peerMoves.env := by
    rcases s.iterate_cases with ⟨-, e⟩ | ⟨b, q, -, e⟩ <;> rw [e] <;> rfl
  rw [h]
  unfold State.peerMoves
  cases ha : s.env.arrivals with
  | nil =>
    show ({ s.env with arrivalN := s.env.arrivalN + 1 } : Env) = _
    simp [ha]
  | cons l rest =>
    show ({ s.env with arrivals := rest } : Env) = _
    simp

end Sys2Proof.Machine
end

