-- ==== Sys2Proof/Laws/Ops.lean ====
section
/-! SUPPORT. Everything an exchange, the clock, a status return and a field write can do: one lemma
per shared operation of Machine/Ops.lean. -/

namespace Sys2Proof.Machine

/-! ### The clock -/

/-- `Now()` changes the counter and the clock's script, and the counter keeps its width (R30). -/
theorem State.readClock_cases (s : State) :
    ∃ (e : Env) (n : Nat), s.readClock = (s.withEnv e).withTime n ∧ n < 2 ^ s.cfg.tsW ∧
      e.arrivals = s.env.arrivals ∧ e.arrivalN = s.env.arrivalN ∧ e.sched = s.env.sched ∧
      e.schedN = s.env.schedN ∧ e.pollPort = s.env.pollPort ∧ e.reqPort = s.env.reqPort ∧
      e.peerPort = s.env.peerPort ∧ e.seqPort = s.env.seqPort := by
  unfold State.readClock
  split <;>
    exact ⟨_, _, rfl, Nat.mod_lt _ (Nat.two_pow_pos _), rfl, rfl, rfl, rfl, rfl, rfl, rfl, rfl⟩

@[simp] theorem State.readClock_cfg (s : State) : s.readClock.cfg = s.cfg := by
  obtain ⟨e, n, h, -⟩ := s.readClock_cases; rw [h]; rfl
@[simp] theorem State.readClock_t (s : State) : s.readClock.t = s.t := by
  obtain ⟨e, n, h, -⟩ := s.readClock_cases; rw [h]; rfl
@[simp] theorem State.readClock_rxq (s : State) : s.readClock.rxq = s.rxq := by
  obtain ⟨e, n, h, -⟩ := s.readClock_cases; rw [h]; rfl
@[simp] theorem State.readClock_txs (s : State) : s.readClock.txs = s.txs := by
  obtain ⟨e, n, h, -⟩ := s.readClock_cases; rw [h]; rfl
@[simp] theorem State.readClock_stores (s : State) : s.readClock.stores = s.stores := by
  obtain ⟨e, n, h, -⟩ := s.readClock_cases; rw [h]; rfl
@[simp] theorem State.readClock_out (s : State) : s.readClock.out = s.out := by
  obtain ⟨e, n, h, -⟩ := s.readClock_cases; rw [h]; rfl
@[simp] theorem State.readClock_status (s : State) : s.readClock.status = s.status := by
  obtain ⟨e, n, h, -⟩ := s.readClock_cases; rw [h]; rfl

theorem State.readClock_time_lt (s : State) : s.readClock.time < 2 ^ s.cfg.tsW := by
  obtain ⟨e, n, h, hn, -⟩ := s.readClock_cases; rw [h]; exact hn

/-! ### An exchange -/

section
variable (s : State) (q : Requester) (cmd : Text)
@[simp] theorem State.sent_cfg : (s.sent q cmd).cfg = s.cfg := rfl
@[simp] theorem State.sent_rxq : (s.sent q cmd).rxq = [] := rfl
@[simp] theorem State.sent_txs :
    (s.sent q cmd).txs = s.txs ++ encodeText s.cfg (cmd ++ s.cfg.term) := rfl
@[simp] theorem State.sent_time : (s.sent q cmd).time = s.time := rfl
@[simp] theorem State.sent_stores : (s.sent q cmd).stores = s.stores := rfl
@[simp] theorem State.sent_out : (s.sent q cmd).out = s.out := rfl
@[simp] theorem State.sent_status : (s.sent q cmd).status = s.status := rfl
@[simp] theorem State.sent_env : (s.sent q cmd).env = s.env := rfl
@[simp] theorem State.sent_t : (s.sent q cmd).t =
    { s.t with lock := .held q, txbuf := cmd ++ s.cfg.term,
               txi := (cmd ++ s.cfg.term).length - 1, txg := Config.groups - 1, phase := .rx } := rfl
end

/-- An exchange is the receive phase of what was sent, then the status, then the release. -/
theorem State.exchange_cases (s : State) (q : Requester) (cmd : Text) :
    ((s.sent q cmd).receive.1 = .ok ∧
      s.exchange q cmd = (.ok, stripText s.cfg (s.sent q cmd).receive.2.1,
        ((s.sent q cmd).receive.2.2.returnStatus .ok).release)) ∨
    ((s.sent q cmd).receive.1 = .timeout ∧
      s.exchange q cmd = (.timeout, [],
        ((s.sent q cmd).receive.2.2.returnStatus .timeout).release)) := by
  obtain ⟨f, h⟩ := (s.sent q cmd).receive_spec
  rcases h with ⟨a, -⟩ | ⟨a, -⟩
  · exact .inl ⟨a, by simp only [State.exchange, a, State.endExchange, f.cfg, State.sent_cfg]⟩
  · exact .inr ⟨a, by simp only [State.exchange, a, State.endExchange]⟩

/-- What an exchange ends in (R148, R149, R152, R155) and what it leaves alone. -/
theorem State.exchange_spec (s : State) (q : Requester) (cmd : Text) :
    let r := s.exchange q cmd
    ((r.1 = .ok ∧ r.2.2.t.link = true ∧ r.2.2.status = .ok ∧ r.2.2.t.tries ≤ s.cfg.retryMax) ∨
      (r.1 = .timeout ∧ r.2.1 = [] ∧ r.2.2.t.link = false ∧ r.2.2.status = .timeout ∧
        r.2.2.t.Dropped ∧ r.2.2.t.tries = s.cfg.retryMax + 1)) ∧
    r.2.2.t.lock = .free ∧ r.2.2.t.phase = .idle ∧
    r.2.2.txs = s.txs ++ encodeText s.cfg (cmd ++ s.cfg.term) ∧ r.2.2.stores = s.stores ∧
    r.2.2.time = s.time ∧ r.2.2.cfg = s.cfg ∧ r.2.2.out = s.out ∧
    s.env.SameButArrivals r.2.2.env ∧ r.2.2.t.txbuf = cmd ++ s.cfg.term ∧
    r.2.2.t.txi = (cmd ++ s.cfg.term).length - 1 ∧ r.2.2.t.txg = Config.groups - 1 := by
  obtain ⟨f, h⟩ := (s.sent q cmd).receive_spec
  have frame : ∀ st : Status, st = .ok ∨ st = .timeout →
      let x := ((s.sent q cmd).receive.2.2.returnStatus st).release
      x.t.lock = .free ∧ x.t.phase = .idle ∧
      x.txs = s.txs ++ encodeText s.cfg (cmd ++ s.cfg.term) ∧ x.stores = s.stores ∧
      x.time = s.time ∧ x.cfg = s.cfg ∧ x.out = s.out ∧ s.env.SameButArrivals x.env ∧
      x.t.txbuf = cmd ++ s.cfg.term ∧ x.t.txi = (cmd ++ s.cfg.term).length - 1 ∧
      x.t.txg = Config.groups - 1 := by
    rintro st (rfl | rfl) <;>
      exact ⟨rfl, rfl, f.txs, f.stores, f.time, f.cfg, f.out, f.env, f.txbuf, f.txi, f.txg⟩
  rcases s.exchange_cases q cmd with ⟨a, e⟩ | ⟨a, e⟩
  · rw [e]
    refine ⟨.inl ⟨rfl, rfl, rfl, ?_⟩, frame .ok (.inl rfl)⟩
    rcases h with ⟨-, -, -, -, h⟩ | ⟨h, -⟩
    · exact h
    · rw [a] at h; cases h
  · rw [e]
    rcases h with ⟨h, -⟩ | ⟨-, -, -, d, h⟩
    · rw [a] at h; cases h
    · exact ⟨.inr ⟨rfl, rfl, rfl, rfl, ⟨d.rxtext, d.rxacc, d.rxs⟩, h⟩, frame .timeout (.inr rfl)⟩

/-- The end of an exchange frees the lock, whoever owned it. -/
theorem State.endExchange_relock (s : State) (l : Lock) (st : Status) (raw : Text) :
    (s.relock l).endExchange st raw = s.endExchange st raw := by
  cases st <;> rfl

theorem State.endExchange_reout (s : State) (r : Result) (st' st : Status) (raw : Text) :
    (s.reout r st').endExchange st raw =
      ((s.endExchange st raw).1, (s.endExchange st raw).2.1,
        (s.endExchange st raw).2.2.withOut r) := by
  cases st <;> rfl

theorem State.endExchange_rebook (s : State) (b : Env) (st : Status) (raw : Text) :
    (s.rebook b).endExchange st raw =
      ((s.endExchange st raw).1, (s.endExchange st raw).2.1,
        (s.endExchange st raw).2.2.rebook b) := by
  cases st <;> rfl

/-- The requester only names the owner of the lock (R141). -/
theorem State.exchange_requester (s : State) (q q' : Requester) (cmd : Text) :
    s.exchange q cmd = s.exchange q' cmd := by
  have h : s.sent q cmd = (s.sent q' cmd).relock (.held q) := rfl
  unfold State.exchange
  rw [h, State.receive_relock]
  exact State.endExchange_relock ..

theorem State.receive_reout (s : State) (r : Result) (st : Status) :
    (s.reout r st).receive = (s.receive.1, s.receive.2.1, s.receive.2.2.reout r st) :=
  State.rxLoop_reout (s.cfg.retryMax + 1) s.startRx r st

/-- An exchange does not look at the results handed out; it writes the status. -/
theorem State.exchange_reout (s : State) (q : Requester) (cmd : Text) (r : Result) (st : Status) :
    (s.reout r st).exchange q cmd =
      ((s.exchange q cmd).1, (s.exchange q cmd).2.1, (s.exchange q cmd).2.2.withOut r) := by
  have h : (s.reout r st).sent q cmd = (s.sent q cmd).reout r st := rfl
  unfold State.exchange
  rw [h, State.receive_reout]
  exact State.endExchange_reout ..

/-- An exchange does not look at the ports and the account of turns. -/
theorem State.exchange_rebook (s : State) (q : Requester) (cmd : Text) (b : Env) :
    (s.rebook b).exchange q cmd =
      ((s.exchange q cmd).1, (s.exchange q cmd).2.1, (s.exchange q cmd).2.2.rebook b) := by
  have h : (s.rebook b).sent q cmd = (s.sent q cmd).rebook b := rfl
  unfold State.exchange
  rw [h, State.receive_rebook]
  exact State.endExchange_rebook ..

theorem State.readClock_rebook (s : State) (b : Env) :
    (s.rebook b).readClock = s.readClock.rebook b := by
  unfold State.readClock State.rebook
  dsimp only [State.withEnv_env, Env.rebook]
  cases s.env.clock <;> rfl

/-! ### Fields -/

theorem State.fieldAt_eq_some {s : State} {k f : Nat} {c : StoreConfig} {r : FieldRec} :
    s.fieldAt k f = some (c, r) ↔ s.cfg.stores[k]? = some c ∧ s.recordAt k f = some r := by
  unfold State.fieldAt State.recordAt
  cases s.cfg.stores[k]? <;> cases s.stores[k]? <;> simp [and_comm]

/-- `FieldWrite` writes one record (00_scope R13). -/
theorem State.writeField_recordAt (s : State) (k f : Nat) (r : FieldRec) (k' f' : Nat) :
    (s.writeField k f r).recordAt k' f' =
      if k' = k ∧ f' = f then (s.recordAt k f).map fun _ => r else s.recordAt k' f' := by
  unfold State.writeField State.recordAt
  simp only [State.withStores_stores, List.getElem?_modify]
  by_cases hk : k = k'
  · subst hk
    cases s.stores[k]? with
    | none => simp
    | some st =>
      simp only [if_true, Option.bind_some, true_and]
      by_cases hf : f = f'
      · subst hf
        by_cases hl : f < st.fields.length
        · simp [hl]
        · simp [hl]
      · have : ¬ f' = f := fun h => hf h.symm
        simp [hf, this]
  · have : ¬ k' = k := fun h => hk h.symm
    cases s.stores[k']? <;> simp [hk, this]

/-- Writing the record a field holds changes nothing. -/
theorem State.writeField_same {s : State} {k f : Nat} {r : FieldRec} (h : s.recordAt k f = some r) :
    s.writeField k f r = s := by
  unfold State.recordAt at h
  cases hs : s.stores[k]? with
  | none => simp [hs] at h
  | some st =>
    rw [hs, Option.bind_some] at h
    have : s.stores.modify k (fun st => { st with fields := st.fields.set f r }) = s.stores := by
      apply List.ext_getElem?
      intro i
      rw [List.getElem?_modify]
      by_cases hi : k = i
      · subst hi
        rw [hs]
        have : st.fields.set f r = st.fields := by
          apply List.ext_getElem?
          intro j
          rw [List.getElem?_set]
          split
          · rename_i hj
            subst hj
            split
            · exact h.symm
            · rename_i hl
              rw [List.getElem?_eq_none (by omega)]
          · rfl
        simp [this]
      · cases s.stores[i]? <;> simp [hi]
    unfold State.writeField
    rw [this]
    rfl

theorem State.modify_mod (l : List Store) (k : Nat) (g : Store → List FieldRec) (i : Nat) :
    ((l.modify k fun st => { st with fields := g st })[i]?).map Store.mod =
      (l[i]?).map Store.mod := by
  rw [List.getElem?_modify]
  cases l[i]? with
  | none => simp
  | some st => simp; split <;> rfl

theorem State.writeField_mod (s : State) (k f : Nat) (r : FieldRec) (i : Nat) :
    ((s.writeField k f r).stores[i]?).map Store.mod = (s.stores[i]?).map Store.mod :=
  State.modify_mod s.stores k (fun st => st.fields.set f r) i

end Sys2Proof.Machine
end

