-- ==== Sys2Proof/Laws/WellFormed.lean ====
section
/-! SUPPORT. What a well-formed configuration and well-formed operands give, check by check. -/

namespace Sys2Proof

theorem Config.wf_ok {c : Config} (h : c.wf = true) (k : ConfigCheck) : c.ok k = true := by
  have h' := List.all_eq_true.mp h
  apply h'
  cases k with
  | layout l => cases l <;> decide
  | payloadPositions => decide
  | payloadTypes => decide
  | lockGrant => decide
  | terminatorLength => decide
  | retryBound => decide
  | responseLength => decide
  | commandLength => decide
  | storeCount => decide
  | expiryRange => decide

theorem Config.wf_payload {c : Config} (h : c.wf = true) :
    c.pLo ≠ c.pHi ∧ c.pLo < c.lineW ∧ c.pHi < c.lineW :=
  of_decide_eq_true (Config.wf_ok h .payloadPositions)

theorem Config.wf_term {c : Config} (h : c.wf = true) : c.term.length = 2 :=
  of_decide_eq_true (Config.wf_ok h .terminatorLength)

theorem Config.wf_retry {c : Config} (h : c.wf = true) {s : StoreConfig} (hs : s ∈ c.stores) :
    4 * (c.prefixLen + 2 + s.respLen) ≤ c.retryMax :=
  of_decide_eq_true (List.all_eq_true.mp (Config.wf_ok h .retryBound) s hs)

theorem Config.wf_resp {c : Config} (h : c.wf = true) {s : StoreConfig} (hs : s ∈ c.stores) :
    c.prefixLen < s.respLen :=
  of_decide_eq_true (List.all_eq_true.mp (Config.wf_ok h .responseLength) s hs)

theorem Config.wf_cmd {c : Config} (h : c.wf = true) {s : StoreConfig} (hs : s ∈ c.stores) :
    s.cmd.length ≤ c.cmdMax :=
  of_decide_eq_true (List.all_eq_true.mp (Config.wf_ok h .commandLength) s hs)

theorem Config.wf_layout {c : Config} (h : c.wf = true) {s : StoreConfig} (hs : s ∈ c.stores)
    (k : LayoutCheck) : layoutOk c.valW s k = true :=
  List.all_eq_true.mp (Config.wf_ok h (.layout k)) s hs

/-- Every check but `words_first` holds of every descriptor. -/
theorem Config.wf_descr {c : Config} (h : c.wf = true) {s : StoreConfig} (hs : s ∈ c.stores)
    {k : LayoutCheck} (hk : k ≠ .wordsFirst) {d : Descr} (hd : d ∈ s.layout) :
    descrOk c.valW s k d = true := by
  have := Config.wf_layout h hs k
  unfold layoutOk at this
  cases k <;> first | exact absurd rfl hk | exact List.all_eq_true.mp this d hd

theorem wordsFirst_prefix {l : List Descr} (h : wordsFirst l = true) {k : Nat}
    (hk : k < l.countP Descr.isDecimal) : ∃ d, l[k]? = some d ∧ d.isDecimal = true := by
  induction l generalizing k with
  | nil => simp at hk
  | cons d ds ih =>
    unfold wordsFirst at h
    by_cases hd : d.isDecimal = true
    · simp only [hd, if_true] at h
      cases k with
      | zero => exact ⟨d, rfl, hd⟩
      | succ k =>
        rw [List.countP_cons_of_pos hd] at hk
        exact ih h (by omega)
    · exfalso
      simp only [hd] at h
      rw [List.countP_cons_of_neg hd] at hk
      have : ds.countP Descr.isDecimal = 0 := by
        rw [List.countP_eq_zero]
        intro e he
        have := List.all_eq_true.mp h e he
        simpa using this
      omega

/-- `word_exists` with `words_first`: the word of a Binary or ParityCount descriptor is a Decimal
descriptor (30_encoding R110, R114). -/
theorem Config.wf_word {c : Config} (h : c.wf = true) {s : StoreConfig} (hs : s ∈ c.stores)
    {k : Nat} (hk : k < s.nw) : ∃ off w ign skip, s.layout[k]? = some (.decimal off w ign skip) := by
  obtain ⟨d, hd, hdec⟩ := wordsFirst_prefix (Config.wf_layout h hs .wordsFirst) hk
  cases d with
  | decimal off w ign skip => exact ⟨off, w, ign, skip, hd⟩
  | binary => cases hdec
  | parityCount => cases hdec

end Sys2Proof
end

