-- ==== Sys2Proof/Laws/Fields.lean ====
section
/-! SUPPORT. The field decoder and the debouncer, field by field: words, field values, the mark
condition and the update loop (41_field_decoder, 42_debouncer). -/

namespace Sys2Proof.Machine

/-! ### Values -/

theorem testBit_spanBits (word lo n j : Nat) :
    (spanBits word lo n).testBit j = (decide (j < n) && word.testBit (lo + j)) := by
  rw [spanBits, Nat.testBit_mod_two_pow, Nat.testBit_div_two_pow, Nat.add_comm]

theorem spanBits_lt (word lo n : Nat) : spanBits word lo n < 2 ^ n := Nat.mod_lt _ (Nat.two_pow_pos _)

theorem binaryValue_lt (word lo n : Nat) (inv : Bool) : binaryValue word lo n inv < 2 ^ n := by
  unfold binaryValue
  split
  · exact Nat.xor_lt_two_pow (spanBits_lt _ _ _) (Nat.sub_lt (Nat.two_pow_pos n) Nat.one_pos)
  · exact spanBits_lt _ _ _

theorem testBit_binaryValue (word lo n : Nat) (inv : Bool) {j : Nat} (h : j < n) :
    (binaryValue word lo n inv).testBit j = (word.testBit (lo + j) ^^ inv) := by
  unfold binaryValue
  cases inv <;> simp [testBit_spanBits, h, Nat.testBit_two_pow_sub_one]

theorem parityValue_le (word lo n : Nat) : parityValue word lo n ≤ n := by
  induction n with
  | zero => exact Nat.le_refl _
  | succ n ih => have := Bool.toNat_le (word.testBit (lo + n)); simp only [parityValue]; omega

theorem parityValue_eq (word lo n : Nat) :
    parityValue word lo n = ((List.range n).filter fun j => word.testBit (lo + j)).length := by
  induction n with
  | zero => rfl
  | succ n ih =>
    rw [List.range_succ, List.filter_append, List.length_append, parityValue, ih]
    cases h : word.testBit (lo + n) <;> simp [h]

/-! ### Chunks -/

theorem hexDigit_lt {c : Chr} {d : Nat} (h : hexDigit c = some d) : d < 16 := by
  unfold hexDigit at h
  dsimp only at h
  split at h
  · simp at h; omega
  · split at h
    · simp at h; omega
    · split at h
      · simp at h; omega
      · cases h

theorem hexDigits_lt {t : Text} {v r : Nat} (h : hexDigits t v = some r) :
    r < (v + 1) * 16 ^ t.length := by
  induction t generalizing v with
  | nil => simp [hexDigits] at h; simp; omega
  | cons c t ih =>
    unfold hexDigits at h
    split at h
    · cases h
    · rename_i d hd
      have := ih h
      have hd := hexDigit_lt hd
      calc r < (v * 16 + d + 1) * 16 ^ t.length := this
        _ ≤ ((v + 1) * 16) * 16 ^ t.length := Nat.mul_le_mul_right _ (by omega)
        _ = (v + 1) * 16 ^ (c :: t).length := by rw [List.length_cons, Nat.pow_succ]; ring

theorem hexWord_lt {t : Text} {off w v : Nat} (h : hexWord t off w = some v) : v < 2 ^ (4 * w) := by
  have := hexDigits_lt h
  have hl : ((t.drop off).take w).length ≤ w := by simp
  calc v < (0 + 1) * 16 ^ ((t.drop off).take w).length := this
    _ ≤ 16 ^ w := by simpa using Nat.pow_le_pow_right (by decide : 0 < 16) hl
    _ = 2 ^ (4 * w) := by rw [Nat.pow_mul]

/-! ### Decode -/

/-- The words pass 1 leaves, by index (R177, R180). -/
theorem layoutWords_getElem? {t : Text} {layout : List Descr} {words : List (Option Nat)}
    (h : layoutWords t layout = some words) (k : Nat) :
    words[k]? = (layout[k]?).map fun d => match d with
      | .decimal off w _ false => hexWord t off w
      | _ => none := by
  induction layout generalizing words k with
  | nil => simp [layoutWords] at h; subst h; simp
  | cons d ds ih =>
    match d with
    | .decimal off w g false =>
      simp only [layoutWords] at h
      split at h
      · cases h
      · rename_i v hv
        obtain ⟨ws, hws, rfl⟩ := Option.map_eq_some_iff.mp h
        cases k with
        | zero => simp [hv]
        | succ k => simpa using ih hws k
    | .decimal off w g true =>
      simp only [layoutWords] at h
      obtain ⟨ws, hws, rfl⟩ := Option.map_eq_some_iff.mp h
      cases k with
      | zero => simp
      | succ k => simpa using ih hws k
    | .binary .. =>
      simp only [layoutWords] at h
      obtain ⟨ws, hws, rfl⟩ := Option.map_eq_some_iff.mp h
      cases k with
      | zero => simp
      | succ k => simpa using ih hws k
    | .parityCount .. =>
      simp only [layoutWords] at h
      obtain ⟨ws, hws, rfl⟩ := Option.map_eq_some_iff.mp h
      cases k with
      | zero => simp
      | succ k => simpa using ih hws k

/-- Pass 1 is GARBLED exactly when a parsed chunk holds a character that is no digit (R178). -/
theorem layoutWords_eq_none_iff {t : Text} {layout : List Descr} :
    layoutWords t layout = none ↔
      ∃ off w g, Descr.decimal off w g false ∈ layout ∧ hexWord t off w = none := by
  induction layout with
  | nil => simp [layoutWords]
  | cons d ds ih =>
    match d with
    | .decimal off w g false =>
      simp only [layoutWords]
      cases hv : hexWord t off w with
      | none => exact ⟨fun _ => ⟨off, w, g, List.mem_cons_self, hv⟩, fun _ => rfl⟩
      | some v =>
        simp only [Option.map_eq_none_iff, ih, List.mem_cons]
        constructor
        · rintro ⟨a, b, c, m, e⟩; exact ⟨a, b, c, .inr m, e⟩
        · rintro ⟨a, b, c, m | m, e⟩
          · injection m with h1 h2; subst h1; subst h2; rw [hv] at e; cases e
          · exact ⟨a, b, c, m, e⟩
    | .decimal off w g true => simp [layoutWords, ih]
    | .binary .. => simp [layoutWords, ih]
    | .parityCount .. => simp [layoutWords, ih]

theorem fieldValues_length (words : List (Option Nat)) (f : Nat) (ds : List Descr) :
    (fieldValues words f ds).length = ds.length := by
  induction ds generalizing f with
  | nil => rfl
  | cons d ds ih => simp [fieldValues, ih]

theorem fieldValues_getElem? (words : List (Option Nat)) (g : Nat) (ds : List Descr) (f : Nat) :
    (fieldValues words g ds)[f]? = (ds[f]?).map (fieldValue words (g + f)) := by
  induction ds generalizing g f with
  | nil => simp [fieldValues]
  | cons d ds ih =>
    cases f with
    | zero => simp [fieldValues]
    | succ f => simp [fieldValues, ih, Nat.add_assoc, Nat.add_comm 1 f]

/-- DECODE by index: the value pass 2 gives field `f`. -/
theorem decodeResponse_getElem? {c : StoreConfig} {t : Text} {new : List (Option Nat)}
    (h : decodeResponse c t = some new) :
    ∃ words, layoutWords t c.layout = some words ∧ new.length = c.layout.length ∧
      ∀ f, new[f]? = (c.layout[f]?).map (fieldValue words f) := by
  obtain ⟨words, hw, rfl⟩ := Option.map_eq_some_iff.mp h
  refine ⟨words, hw, fieldValues_length _ _ _, fun f => ?_⟩
  rw [fieldValues_getElem?, Nat.zero_add]

/-- A field has a value exactly if it is not ignored (R177). -/
theorem fieldValue_isSome (words : List (Option Nat)) (f : Nat) (d : Descr) :
    (fieldValue words f d).isSome = !d.ign := by
  cases d <;> simp only [fieldValue, Descr.ign] <;> split <;> simp_all

theorem fieldValue_eq_none {words : List (Option Nat)} {f : Nat} {d : Descr} (h : d.ign = true) :
    fieldValue words f d = none := by
  have := fieldValue_isSome words f d
  rw [h] at this
  simpa using this

/-! ### The mark -/

/-- The age (R201) is the integer difference modulo `2 ^ TS_W`. -/
theorem age_eq (c : Config) (r : FieldRec) (now : Nat) :
    (age c r now : Int) = modularAge c r now := by
  unfold age modularAge
  have hp : 0 < 2 ^ c.tsW := Nat.two_pow_pos _
  have hr : r.ts % 2 ^ c.tsW < 2 ^ c.tsW := Nat.mod_lt _ hp
  have hd := Nat.div_add_mod r.ts (2 ^ c.tsW)
  generalize hm : r.ts % 2 ^ c.tsW = m at *
  generalize hk : r.ts / 2 ^ c.tsW = k at *
  rw [Int.natCast_mod, Nat.cast_sub (by omega)]
  push_cast
  have e : ((now : Int) - r.ts) = (now + 2 ^ c.tsW - m) + (2 ^ c.tsW) * (-(k : Int) - 1) := by
    rw [← hd]; push_cast; ring
  rw [e, Int.add_mul_emod_self_left]

theorem marks_iff (c : Config) (e : Nat) (r : FieldRec) (new now : Nat) :
    marks c e r new now = true ↔ (new ≠ r.cur ∨ (e : Int) < modularAge c r now) := by
  rw [marks, decide_eq_true_iff, ← age_eq, Nat.cast_lt]

/-- UPD on one record (R202, R46). -/
theorem FieldRec.update_eq (c : Config) (e : Nat) (r : FieldRec) (new now : Nat) :
    r.update c e new now =
      if r.ign = false ∧ (new ≠ r.cur ∨ (e : Int) < modularAge c r now) then
        (⟨new, r.cur, now, r.ts, true, false⟩, true)
      else (r, false) := by
  unfold FieldRec.update
  cases hi : r.ign with
  | true => simp
  | false =>
    by_cases h : marks c e r new now = true
    · simp [h, FieldRec.marked, (marks_iff c e r new now).mp h, hi]
    · have h' : ¬ (new ≠ r.cur ∨ (e : Int) < modularAge c r now) :=
        fun x => h ((marks_iff c e r new now).mpr x)
      simp [h, h']

/-! ### The update loop -/

/-- A record after the update loop passed it with what DECODE gave for its index. -/
def updatedBy (c : Config) (e now : Nat) (v : Option (Option Nat)) (r : FieldRec) : FieldRec :=
  match v with
  | some (some v) => (r.update c e v now).1
  | _ => r

@[simp] theorem updatedBy_value (c : Config) (e now v : Nat) (r : FieldRec) :
    updatedBy c e now (some (some v)) r = (r.update c e v now).1 := rfl
@[simp] theorem updatedBy_ignored (c : Config) (e now : Nat) (r : FieldRec) :
    updatedBy c e now (some none) r = r := rfl
@[simp] theorem updatedBy_none (c : Config) (e now : Nat) (r : FieldRec) :
    updatedBy c e now none r = r := rfl

theorem updateFields_length (c : Config) (e now : Nat) (rs : List FieldRec)
    (vs : List (Option Nat)) : (updateFields c e now rs vs).1.length = rs.length := by
  induction rs generalizing vs with
  | nil => cases vs <;> rfl
  | cons r rs ih =>
    cases vs with
    | nil => rfl
    | cons v vs => cases v <;> simp [updateFields, ih]

/-- Every record after the loop (R205, R211). -/
theorem updateFields_getElem? (c : Config) (e now : Nat) (rs : List FieldRec)
    (vs : List (Option Nat)) (f : Nat) :
    (updateFields c e now rs vs).1[f]? = (rs[f]?).map (updatedBy c e now vs[f]?) := by
  induction rs generalizing vs f with
  | nil => cases vs <;> simp [updateFields]
  | cons r rs ih =>
    cases vs with
    | nil => cases h : (r :: rs)[f]? <;> simp [updateFields, h]
    | cons v vs =>
      cases v <;> cases f <;> simp [updateFields, ih]

/-- The loop's result is the OR of the marks (R211). -/
theorem updateFields_changed (c : Config) (e now : Nat) (rs : List FieldRec)
    (vs : List (Option Nat)) :
    (updateFields c e now rs vs).2 = true ↔
      ∃ (f : Nat) (r : FieldRec) (v : Nat), rs[f]? = some r ∧ vs[f]? = some (some v) ∧ (r.update c e v now).2 = true := by
  induction rs generalizing vs with
  | nil => cases vs <;> simp [updateFields]
  | cons r rs ih =>
    cases vs with
    | nil => simp [updateFields]
    | cons v vs =>
      constructor
      · intro h
        cases v with
        | none =>
          obtain ⟨f, r', v', h1, h2, h3⟩ := (ih vs).mp h
          exact ⟨f + 1, r', v', by simpa using h1, by simpa using h2, h3⟩
        | some x =>
          rcases Bool.or_eq_true_iff.mp h with h | h
          · exact ⟨0, r, x, rfl, rfl, h⟩
          · obtain ⟨f, r', v', h1, h2, h3⟩ := (ih vs).mp h
            exact ⟨f + 1, r', v', by simpa using h1, by simpa using h2, h3⟩
      · rintro ⟨f, r', v', h1, h2, h3⟩
        cases f with
        | zero =>
          simp only [List.getElem?_cons_zero, Option.some.injEq] at h1 h2
          subst h1; subst h2
          simp [updateFields, h3]
        | succ f =>
          have : (updateFields c e now rs vs).2 = true :=
            (ih vs).mpr ⟨f, r', v', by simpa using h1, by simpa using h2, h3⟩
          cases v <;> simp [updateFields, this]

end Sys2Proof.Machine
end

