-- ==== Sys2Proof/Laws/Poll.lean ====
section
/-! SUPPORT. Everything a POLL can do (42_debouncer R205): the ends of a POLL after its exchange,
and what an accepted POLL leaves in every record. -/

namespace Sys2Proof.Machine

/-- The ends of a POLL (R205, R248), first condition first. -/
theorem State.finishPoll_cases (x : State) (k : Nat) (c : StoreConfig) (st : Status) (text : Text) :
    (st ≠ .ok ∧ x.finishPoll k c st text = x.withOut (.bit false)) ∨
    (st = .ok ∧ text.length ≠ c.respLen ∧
      x.finishPoll k c st text = (x.withStatus .missLength).withOut (.bit false)) ∨
    (st = .ok ∧ text.length = c.respLen ∧ decodeResponse c text = none ∧
      x.finishPoll k c st text = (x.withStatus .missGarbled).withOut (.bit false)) ∨
    (∃ new, st = .ok ∧ text.length = c.respLen ∧ decodeResponse c text = some new ∧
      x.finishPoll k c st text =
        (x.readClock.withStores (x.stores.modify k fun y =>
          { y with fields := (updateFields x.cfg c.expiry x.readClock.time
            ((x.stores.getD k ⟨0, []⟩).fields) new).1 })).withOut
          (.bit (updateFields x.cfg c.expiry x.readClock.time
            ((x.stores.getD k ⟨0, []⟩).fields) new).2)) := by
  by_cases h : st = .ok
  · subst h
    by_cases hl : text.length = c.respLen
    · cases hd : decodeResponse c text with
      | none => exact .inr (.inr (.inl ⟨rfl, hl, rfl, by simp [State.finishPoll, hl, hd,
          State.returnStatus]⟩))
      | some new => exact .inr (.inr (.inr ⟨new, rfl, hl, rfl, by simp [State.finishPoll, hl, hd]⟩))
    · exact .inr (.inl ⟨rfl, hl, by simp [State.finishPoll, hl, State.returnStatus]⟩)
  · refine .inl ⟨h, ?_⟩
    cases st <;> first | exact absurd rfl h | rfl

/-- The ways a POLL goes: not due, waiting for the lock, or one exchange and its end. -/
theorem execPoll_cases {s t : State} {k : Nat} {tick : Int} (h : execPoll k tick s = .next t) :
    ∃ c st, s.cfg.stores[k]? = some c ∧ s.stores[k]? = some st ∧
      ((due st.mod tick = false ∧ t = (s.withStatus .notDue).withOut (.bit false)) ∨
        (due st.mod tick = true ∧ s.t.lock ≠ .free ∧ t = s) ∨
        (due st.mod tick = true ∧ s.t.lock = .free ∧
          t = (s.exchange .pollq c.cmd).2.2.finishPoll k c (s.exchange .pollq c.cmd).1
            (s.exchange .pollq c.cmd).2.1)) := by
  unfold execPoll at h
  split at h
  · rename_i c st hc hs
    refine ⟨c, st, hc, hs, ?_⟩
    split at h
    · rename_i hd
      cases h
      exact .inl ⟨by simpa using hd, rfl⟩
    · rename_i hd
      have hd : due st.mod tick = true := by simpa using hd
      split at h
      · rename_i hl
        cases h
        exact .inr (.inr ⟨hd, hl, rfl⟩)
      · rename_i hl
        cases h
        exact .inr (.inl ⟨hd, hl, rfl⟩)
  · cases h

/-- An accepted POLL, as one update of the state its exchange left. -/
theorem PollAccepts.eq {s t : State} {k : Nat} {tick : Int} {c : StoreConfig} {text : Text}
    {new : List (Option Nat)} (h : PollAccepts s k tick c text new t) :
    ∃ (st : Store) (x : State), s.stores[k]? = some st ∧ x = (s.exchange .pollq c.cmd).2.2 ∧
      t = (x.readClock.withStores (s.stores.modify k fun y =>
          { y with fields := (updateFields s.cfg c.expiry t.time st.fields new).1 })).withOut
          (.bit (updateFields s.cfg c.expiry t.time st.fields new).2) := by
  obtain ⟨hc, hd, hl, ⟨x, hx, ho⟩, hlen, hdec, he⟩ := h
  obtain ⟨c', st, hc', hs, hr⟩ := execPoll_cases he
  rw [hc] at hc'
  cases hc'
  simp only [State.pollDue, hs] at hd
  rcases hr with ⟨a, -⟩ | ⟨-, a, -⟩ | ⟨-, -, hr⟩
  · rw [hd] at a; cases a
  · exact absurd hl a
  · have hx' : x = (s.exchange .pollq c.cmd).2.2.withOut
        (.exchange (s.exchange .pollq c.cmd).1 (s.exchange .pollq c.cmd).2.1) := by
      simp only [exec, execXchg, hl, if_true] at hx
      injection hx with hx
      exact hx.symm
    rw [hx'] at ho
    simp only [State.withOut_out, Result.exchange.injEq] at ho
    obtain ⟨-, -, -, -, e, -, g, -⟩ := s.exchange_spec .pollq c.cmd
    rw [ho.1, ho.2] at hr
    rcases State.finishPoll_cases (s.exchange .pollq c.cmd).2.2 k c .ok text with
      ⟨a, -⟩ | ⟨-, a, -⟩ | ⟨-, -, a, -⟩ | ⟨new', -, -, a, b⟩
    · exact absurd rfl a
    · exact absurd hlen a
    · rw [hdec] at a; cases a
    · rw [hdec] at a
      cases a
      rw [b] at hr
      refine ⟨st, _, hs, rfl, ?_⟩
      have ht : t.time = (s.exchange .pollq c.cmd).2.2.readClock.time := by rw [hr]; rfl
      rw [ht, hr]
      simp only [e, g, List.getD, hs, Option.getD_some]

/-- Every record after an accepted POLL, and its result (R205, R211, R212). -/
theorem PollAccepts.records {s t : State} {k : Nat} {tick : Int} {c : StoreConfig} {text : Text}
    {new : List (Option Nat)} (h : PollAccepts s k tick c text new t) :
    (∀ f, t.recordAt k f =
      (s.recordAt k f).map (updatedBy s.cfg c.expiry t.time new[f]?)) ∧
    (∀ k' f, k' ≠ k → t.recordAt k' f = s.recordAt k' f) ∧
    (∀ k' : Nat, (t.stores[k']?).map Store.mod = (s.stores[k']?).map Store.mod) ∧
    ∃ changed, t.out = .bit changed ∧
      (changed = true ↔ ∃ (f : Nat) (r : FieldRec) (v : Nat), s.recordAt k f = some r ∧
        new[f]? = some (some v) ∧ (r.update s.cfg c.expiry v t.time).2 = true) := by
  obtain ⟨st, x, hs, hx, ht⟩ := h.eq
  have hstores : t.stores = s.stores.modify k fun y =>
      { y with fields := (updateFields s.cfg c.expiry t.time st.fields new).1 } := by
    generalize t.time = n at ht ⊢
    rw [ht]; rfl
  have hout : t.out = .bit (updateFields s.cfg c.expiry t.time st.fields new).2 := by
    generalize t.time = n at ht ⊢
    rw [ht]; rfl
  have hrec : ∀ f, s.recordAt k f = st.fields[f]? := fun f => by simp [State.recordAt, hs]
  refine ⟨fun f => ?_, fun k' f hk => ?_, fun k' => ?_, _, hout, ?_⟩
  · rw [hrec, ← updateFields_getElem?]
    simp [State.recordAt, hstores, hs]
  · have : ¬ k = k' := fun e => hk e.symm
    simp only [State.recordAt, hstores, List.getElem?_modify, if_neg this]
    cases s.stores[k']? <;> rfl
  · rw [hstores]
    exact State.modify_mod s.stores k (fun _ => _) k'
  · rw [updateFields_changed]
    constructor
    · rintro ⟨f, r, v, a, b⟩
      exact ⟨f, r, v, by rw [hrec]; exact a, b⟩
    · rintro ⟨f, r, v, a, b⟩
      exact ⟨f, r, v, by rw [← hrec]; exact a, b⟩

end Sys2Proof.Machine
end

