-- ==== Sys2Proof/Laws/Invariant.lean ====
section
/-! SUPPORT. The invariant by index, and what each shared operation needs to keep it. -/

namespace Sys2Proof.Machine

theorem forall₂_of_getElem? {α β : Type} {R : α → β → Prop} {l : List α} {l' : List β}
    (hl : l.length = l'.length)
    (h : ∀ (i : Nat) (a : α) (b : β), l[i]? = some a → l'[i]? = some b → R a b) :
    List.Forall₂ R l l' := by
  induction l generalizing l' with
  | nil => cases l' with
    | nil => exact .nil
    | cons b l' => simp at hl
  | cons a l ih =>
    cases l' with
    | nil => simp at hl
    | cons b l' =>
      exact .cons (h 0 a b rfl rfl)
        (ih (by simpa using hl) fun i x y hx hy =>
          h (i + 1) x y (by simpa using hx) (by simpa using hy))

theorem forall₂_getElem? {α β : Type} {R : α → β → Prop} {l : List α} {l' : List β}
    (h : List.Forall₂ R l l') {i : Nat} {a : α} (ha : l[i]? = some a) :
    ∃ b, l'[i]? = some b ∧ R a b := by
  induction h generalizing i with
  | nil => simp at ha
  | cons h _ ih =>
    cases i with
    | zero => simp at ha; subst ha; exact ⟨_, rfl, h⟩
    | succ i => simpa using ih (by simpa using ha)

/-! ### Records and stores -/

theorem FieldRec.Sound.reset (c : Config) (d : Descr) : FieldRec.Sound c d (FieldRec.reset d) :=
  ⟨rfl, Nat.two_pow_pos _, Nat.two_pow_pos _, Nat.two_pow_pos _, Nat.two_pow_pos _, fun _ => rfl⟩

theorem FieldRec.Sound.cleared {c : Config} {d : Descr} {r : FieldRec} (h : FieldRec.Sound c d r) :
    FieldRec.Sound c d r.cleared :=
  ⟨h.ign, h.cur, h.prev, h.ts, h.pts, fun hi => by
    have := h.still hi
    rw [this]; rfl⟩

theorem FieldRec.Sound.update {c : Config} {d : Descr} {r : FieldRec} (h : FieldRec.Sound c d r)
    (e : Nat) {new now : Nat} (hv : new < 2 ^ c.valW) (hn : now < 2 ^ c.tsW) :
    FieldRec.Sound c d (r.update c e new now).1 := by
  rw [FieldRec.update_eq]
  split
  · rename_i hi
    exact ⟨hi.1.symm.trans h.ign, hv, h.cur, hn, h.ts, fun x => by cases x⟩
  · exact h

/-- The record of a field of a sound state is sound. -/
theorem State.Inv.storeAt {s : State} (h : s.Inv) {k : Nat} {c : StoreConfig}
    (hc : s.cfg.stores[k]? = some c) : ∃ st, s.stores[k]? = some st ∧ Store.Sound s.cfg c st :=
  forall₂_getElem? h.stores hc

theorem Store.Sound.fieldAt {c : Config} {sc : StoreConfig} {st : Store} (h : Store.Sound c sc st)
    {f : Nat} {d : Descr} (hd : sc.layout[f]? = some d) :
    ∃ r, st.fields[f]? = some r ∧ FieldRec.Sound c d r :=
  forall₂_getElem? h.fields hd

theorem Store.Sound.length {c : Config} {sc : StoreConfig} {st : Store} (h : Store.Sound c sc st) :
    st.fields.length = sc.layout.length := h.fields.length_eq.symm

/-- A record there is, with its descriptor. -/
theorem State.Inv.recordAt {s : State} (h : s.Inv) {k f : Nat} {c : StoreConfig} {r : FieldRec}
    (hc : s.cfg.stores[k]? = some c) (hr : s.recordAt k f = some r) :
    ∃ d, c.layout[f]? = some d ∧ FieldRec.Sound s.cfg d r := by
  obtain ⟨st, hs, hst⟩ := h.storeAt hc
  rw [State.recordAt, hs, Option.bind_some] at hr
  have hl := (List.getElem?_eq_some_iff.mp hr).1
  rw [hst.length] at hl
  obtain ⟨r', hr', hs'⟩ := hst.fieldAt (List.getElem?_eq_getElem hl)
  rw [hr] at hr'
  cases hr'
  exact ⟨_, List.getElem?_eq_getElem hl, hs'⟩

/-- Operands in range name a record (R224). -/
theorem State.Inv.fieldAt {s : State} (h : s.Inv) {k f : Nat}
    (hk : (s.cfg.storeIndexOk k).2 = true) (hf : (s.cfg.fieldIndexOk k f).2 = true) :
    ∃ p, s.fieldAt k f = some p := by
  have hk' : k < s.cfg.stores.length := by simpa [Config.storeIndexOk] using hk
  have hc := List.getElem?_eq_getElem hk'
  obtain ⟨st, hs, hst⟩ := h.storeAt hc
  have hf' : f < s.cfg.stores[k].layout.length := by
    have := hf
    simp only [Config.fieldIndexOk, hc, StoreConfig.nf] at this
    exact of_decide_eq_true this
  obtain ⟨r, hr, -⟩ := hst.fieldAt (List.getElem?_eq_getElem hf')
  exact ⟨_, State.fieldAt_eq_some.mpr ⟨hc, by rw [State.recordAt, hs]; exact hr⟩⟩

/-- Replacing the fields and modulus of one store by sound ones keeps the stores sound. -/
theorem State.Inv.modifyStore {s : State} (h : s.Inv) (k : Nat) (g : Store → Store)
    (hg : ∀ c st, s.cfg.stores[k]? = some c → s.stores[k]? = some st →
      Store.Sound s.cfg c st → Store.Sound s.cfg c (g st)) :
    List.Forall₂ (Store.Sound s.cfg) s.cfg.stores (s.stores.modify k g) := by
  apply forall₂_of_getElem?
  · rw [List.length_modify]; exact h.stores.length_eq
  · intro i c st hc hst
    obtain ⟨st', hs', hsound⟩ := h.storeAt hc
    rw [List.getElem?_modify, hs'] at hst
    by_cases hi : k = i
    · subst hi
      simp at hst
      subst hst
      exact hg c st' hc hs' hsound
    · simp [hi] at hst
      subst hst
      exact hsound

/-- Writing a sound record keeps the stores sound. -/
theorem State.Inv.writeField {s : State} (h : s.Inv) (k f : Nat) (r : FieldRec)
    (hr : ∀ c d, s.cfg.stores[k]? = some c → c.layout[f]? = some d → FieldRec.Sound s.cfg d r) :
    (s.writeField k f r).Inv := by
  refine ⟨h.cfg, h.framer, h.rxq, h.rxqCap, h.txs, h.time, ?_⟩
  apply h.modifyStore
  intro c st hc _ hst
  refine ⟨hst.mod, forall₂_of_getElem? ?_ ?_⟩
  · rw [List.length_set]; exact hst.length.symm
  · intro i d r' hd hr'
    rw [List.getElem?_set] at hr'
    split at hr'
    · rename_i hi
      subst hi
      split at hr'
      · cases hr'; exact hr c d hc hd
      · cases hr'
    · obtain ⟨x, hx, hsx⟩ := hst.fieldAt hd
      rw [hx] at hr'; cases hr'; exact hsx

/-- The update loop keeps a store sound (R205, R212). -/
theorem Store.Sound.updateFields {c : Config} {sc : StoreConfig} {st : Store}
    (h : Store.Sound c sc st) (e : Nat) {now : Nat} (hn : now < 2 ^ c.tsW)
    {new : List (Option Nat)} (hv : ∀ (f v : Nat), new[f]? = some (some v) → v < 2 ^ c.valW) :
    Store.Sound c sc { st with fields := (updateFields c e now st.fields new).1 } := by
  refine ⟨h.mod, forall₂_of_getElem? ?_ ?_⟩
  · rw [updateFields_length]; exact h.length.symm
  · intro f d r hd hr
    rw [updateFields_getElem?] at hr
    obtain ⟨r0, hr0, hs0⟩ := h.fieldAt hd
    rw [hr0] at hr
    simp only [Option.map_some, Option.some.injEq] at hr
    subst hr
    match hnew : new[f]? with
    | some (some v) => exact hs0.update e (hv f v hnew) hn
    | some none => exact hs0
    | none => exact hs0

/-! ### Decoded values -/

/-- What DECODE gives a field lies in the range of its descriptor (10_state R41), which fits
`VAL_W` bits (30_encoding R114 `value_fits`). -/
theorem decodeResponse_value {cfg : Config} (hw : cfg.wf = true) {c : StoreConfig}
    (hc : c ∈ cfg.stores) {t : Text} {new : List (Option Nat)}
    (h : decodeResponse c t = some new) {f v : Nat} (hv : new[f]? = some (some v)) :
    ∃ d, c.layout[f]? = some d ∧ d.ign = false ∧ v < Descr.values d ∧ v < 2 ^ cfg.valW := by
  obtain ⟨words, hwords, -, hnew⟩ := decodeResponse_getElem? h
  rw [hnew] at hv
  cases hd : c.layout[f]? with
  | none => simp [hd] at hv
  | some d =>
    rw [hd] at hv
    simp only [Option.map_some, Option.some.injEq] at hv
    have hmem : d ∈ c.layout := List.mem_of_getElem? hd
    have hign : d.ign = false := by
      have := fieldValue_isSome words f d
      rw [hv] at this
      simpa using this.symm
    refine ⟨d, rfl, hign, ?_⟩
    have fits : ∀ {off w : Nat} {g k : Bool}, Descr.decimal off w g k ∈ c.layout →
        2 ^ (4 * w) ≤ 2 ^ cfg.valW := fun {off w g k} hm => by
      have := Config.wf_descr hw hc (k := .valueFits) (by decide) hm
      exact Nat.pow_le_pow_right (by decide) (of_decide_eq_true this)
    have span : ∀ {k lo n : Nat}, (spanOk .wordExists c k lo n = true) →
        (spanOk .spanInWord c k lo n = true) → 2 ^ n ≤ 2 ^ cfg.valW := fun {k lo n} h1 h2 => by
      obtain ⟨off, w, g, sk, hk⟩ := Config.wf_word hw hc (k := k) (of_decide_eq_true h1)
      have h2 : lo + n ≤ wordBits c.layout k := of_decide_eq_true h2
      simp only [wordBits, hk] at h2
      exact Nat.le_trans (Nat.pow_le_pow_right (by decide) (by omega))
        (fits (List.mem_of_getElem? hk))
    cases d with
    | decimal off w g sk =>
      have hg : g = false := hign
      subst hg
      have hsk : sk = false := by
        have := Config.wf_descr hw hc (k := .ignoreClosed) (by decide) hmem
        simpa [descrOk] using this
      subst hsk
      simp only [fieldValue, Bool.false_eq_true, if_false, Option.some.injEq] at hv
      have hwf := layoutWords_getElem? hwords f
      rw [hd] at hwf
      simp only [Option.map_some] at hwf
      have hlt : v < 2 ^ (4 * w) := by
        rw [← hv, decimalValue, wordAt, List.getD, hwf, Option.getD_some]
        cases hh : hexWord t off w with
        | none => exact Nat.two_pow_pos _
        | some x => exact hexWord_lt hh
      exact ⟨hlt, Nat.lt_of_lt_of_le hlt (fits hmem)⟩
    | binary k lo n inv g =>
      have hg : g = false := hign
      subst hg
      simp only [fieldValue, Bool.false_eq_true, if_false, Option.some.injEq] at hv
      have hlt : v < 2 ^ n := by rw [← hv]; exact binaryValue_lt _ _ _ _
      exact ⟨hlt, Nat.lt_of_lt_of_le hlt (span
        (Config.wf_descr hw hc (k := .wordExists) (by decide) hmem)
        (Config.wf_descr hw hc (k := .spanInWord) (by decide) hmem))⟩
    | parityCount k lo n g =>
      have hg : g = false := hign
      subst hg
      simp only [fieldValue, Bool.false_eq_true, if_false, Option.some.injEq] at hv
      have hle : v ≤ n := by rw [← hv]; exact parityValue_le _ _ _
      exact ⟨Nat.lt_succ_of_le hle, Nat.lt_of_le_of_lt hle (Nat.lt_of_lt_of_le
        Nat.lt_two_pow_self (span
        (Config.wf_descr hw hc (k := .wordExists) (by decide) hmem)
        (Config.wf_descr hw hc (k := .spanInWord) (by decide) hmem)))⟩

/-! ### The framer -/

theorem withinCap_of_le {c : Config} {q : List Line}
    (h : ∀ cap, c.rxqCap = some cap → q.length ≤ cap) : withinCap c q := by
  unfold withinCap
  split
  · trivial
  · rename_i cap hc; exact h cap hc

theorem withinCap_le {c : Config} {q : List Line} {cap : Nat} (h : withinCap c q)
    (hc : c.rxqCap = some cap) : q.length ≤ cap := by
  unfold withinCap at h
  rw [hc] at h
  exact h

/-- Arrivals keep the receive queue's symbols and length in range (R23). -/
theorem State.Inv.peerPut {s : State} (h : s.Inv) (l : List Line) : (s.peerPut l).Inv :=
  ⟨h.cfg, h.framer, queue_lt l h.rxq,
    withinCap_of_le fun _ hc => queue_length hc l (withinCap_le h.rxqCap hc), h.txs, h.time, h.stores⟩

/-- What is put on the line has `LINE_W` bits (R29). -/
theorem State.Inv.txPut {s : State} (h : s.Inv) {l : List Line}
    (hl : ∀ b ∈ l, b < 2 ^ s.cfg.lineW) : (s.txPut l).Inv :=
  ⟨h.cfg, h.framer, h.rxq, h.rxqCap, fun b hb => by
    rcases List.mem_append.mp hb with hb | hb
    · exact h.txs b hb
    · exact hl b hb, h.time, h.stores⟩

theorem State.Inv.withT {s : State} (h : s.Inv) {t : Framer} (ht : Framer.Sound s.cfg t) :
    (s.withT t).Inv := ⟨h.cfg, ht, h.rxq, h.rxqCap, h.txs, h.time, h.stores⟩

theorem State.Inv.withOut {s : State} (h : s.Inv) (r : Result) : (s.withOut r).Inv :=
  ⟨h.cfg, h.framer, h.rxq, h.rxqCap, h.txs, h.time, h.stores⟩

theorem State.Inv.withStatus {s : State} (h : s.Inv) (st : Status) : (s.withStatus st).Inv :=
  ⟨h.cfg, h.framer, h.rxq, h.rxqCap, h.txs, h.time, h.stores⟩

theorem State.Inv.withEnv {s : State} (h : s.Inv) (e : Env) : (s.withEnv e).Inv :=
  ⟨h.cfg, h.framer, h.rxq, h.rxqCap, h.txs, h.time, h.stores⟩

theorem State.Inv.withLink {s : State} (h : s.Inv) (b : Bool) : (s.withLink b).Inv :=
  h.withT ⟨h.framer.txbuf, h.framer.txi, h.framer.txg, h.framer.rxs, h.framer.rxtext,
    h.framer.taken, h.framer.tries, h.framer.raw, h.framer.rest⟩

/-- A lock and a phase other than STRIP that agree (R24). -/
theorem State.Inv.withLock {s : State} (h : s.Inv) {l : Lock} {p : Phase} (hp : p ≠ .strip)
    (hl : l = .free → p = .idle) : (s.withT { s.t with lock := l, phase := p }).Inv :=
  h.withT ⟨h.framer.txbuf, h.framer.txi, h.framer.txg, h.framer.rxs, h.framer.rxtext,
    h.framer.taken, h.framer.tries, fun e => absurd e hp, hl⟩

theorem State.Inv.acquire {s : State} (h : s.Inv) (q : Requester) : (s.acquire q).Inv :=
  h.withLock (fun e => by cases e) (fun e => by cases e)

theorem State.Inv.release {s : State} (h : s.Inv) : s.release.Inv :=
  h.withLock (fun e => by cases e) (fun _ => rfl)

theorem State.Inv.returnStatus {s : State} (h : s.Inv) (st : Status) : (s.returnStatus st).Inv := by
  cases st
  · exact (h.withLink true).withStatus .ok
  · exact (h.withLink false).withStatus .timeout
  · exact h.withStatus .missLength
  · exact h.withStatus .missGarbled
  · exact h.withStatus .notDue

theorem State.Inv.drainLine {s : State} (h : s.Inv) (hl : s.t.lock ≠ .free) : s.drainLine.Inv :=
  State.Inv.withLock (s := s.rxClear) (l := s.t.lock)
    ⟨h.cfg, h.framer, fun b hb => by simp [State.rxClear] at hb,
      withinCap_of_le fun _ _ => Nat.zero_le _, h.txs, h.time, h.stores⟩
    (fun e => by cases e) (fun e => absurd e hl)

/-- TXCMD of a command of at most `CMD_MAX` characters (R25, R144). -/
theorem State.Inv.transmit {s : State} (h : s.Inv) (hf : s.t.lock ≠ .free) {cmd : Text}
    (hc : cmd.length ≤ s.cfg.cmdMax) : (s.transmit cmd).Inv := by
  have ht := Config.wf_term h.cfg
  obtain ⟨-, h1, h2⟩ := Config.wf_payload h.cfg
  have hl : (cmd ++ s.cfg.term).length ≤ s.cfg.cmdMax + Config.termLen := by
    rw [List.length_append, ht]
    exact Nat.add_le_add_right hc 2
  exact State.Inv.withT (h.txPut (encodeText_lt h1 h2 _))
    ⟨hl, Nat.le_trans (Nat.sub_le _ _) hl, Nat.lt_succ_self 3, h.framer.rxs, h.framer.rxtext,
      h.framer.taken, h.framer.tries, (fun e => by cases e), fun e => absurd e hf⟩

/-- DECB keeps the decoder offset in range (R26). -/
theorem Framer.Sound.decb {c : Config} {t : Framer} (h : Framer.Sound c t) (b : Line) :
    Framer.Sound c (t.decb c b).1 := by
  refine ⟨h.txbuf, h.txi, h.txg, ?_, h.rxtext, h.taken, h.tries, h.raw, h.rest⟩
  have e : (t.decb c b).1.rxs = (decbStep c t.rxacc t.rxs b).2.1 := rfl
  rw [e]
  rcases decbStep_offset (c := c) (acc := t.rxacc) (b := b) h.rxs with ⟨-, a, l⟩ | ⟨-, -, a, -⟩
  · rw [a]; have := h.rxs; omega
  · exact .inl a

/-- RXRESP (R145): the counters end in range (R26 to R28), the queue stays in range. -/
theorem State.Inv.receive {s : State} (h : s.Inv) (hl : s.t.lock ≠ .free) : s.receive.2.2.Inv := by
  obtain ⟨f, r⟩ := s.receive_spec
  have hcount := s.receive_counted
  have hq : (∀ b ∈ s.receive.2.2.rxq, b < 2 ^ s.receive.2.2.cfg.lineW) ∧
      withinCap s.receive.2.2.cfg s.receive.2.2.rxq :=
    State.rxLoop_keeps
      (P := fun x => (∀ b ∈ x.rxq, b < 2 ^ x.cfg.lineW) ∧ withinCap x.cfg x.rxq)
      (fun x hx => ⟨by rw [State.iterate_cfg]; exact State.iterate_rxq_lt hx.1,
        by
          rw [State.iterate_cfg]
          exact withinCap_of_le fun cap hc => State.iterate_rxq_length hc (withinCap_le hx.2 hc)⟩)
      (fun x hx => hx) (fun x p hx => hx) _ (s := s.startRx) ⟨h.rxq, h.rxqCap⟩
  have htries : s.receive.2.2.t.tries ≤ s.cfg.retryMax + 1 := by
    rcases r with ⟨-, -, -, -, r⟩ | ⟨-, -, -, -, r⟩ <;> omega
  have hraw : s.receive.2.2.t.phase = .strip → s.receive.2.2.t.tries ≤ s.cfg.retryMax ∧
      endsWith s.receive.2.2.t.rxtext s.cfg.term = true := by
    intro e
    rcases r with ⟨-, a, b, -, d⟩ | ⟨-, -, d, -⟩
    · exact ⟨d, a ▸ b⟩
    · rw [d] at e; cases e
  refine ⟨by rw [f.cfg]; exact h.cfg, ?_, hq.1, hq.2, by rw [f.cfg, f.txs]; exact h.txs,
    by rw [f.cfg, f.time]; exact h.time, by rw [f.cfg, f.stores]; exact h.stores⟩
  rw [f.cfg]
  exact ⟨by rw [f.txbuf]; exact h.framer.txbuf, by rw [f.txi]; exact h.framer.txi,
    by rw [f.txg]; exact h.framer.txg, hcount.1, s.receive_rxtext_length, by have := hcount.2; omega, htries,
    hraw, fun e => absurd (f.lock ▸ e) hl⟩

/-- An exchange (R139) of a command of at most `CMD_MAX` characters. -/
theorem State.Inv.exchange {s : State} (h : s.Inv) (q : Requester) {cmd : Text}
    (hc : cmd.length ≤ s.cfg.cmdMax) : (s.exchange q cmd).2.2.Inv := by
  have hs : (s.sent q cmd).Inv :=
    State.Inv.transmit (State.Inv.drainLine (h.acquire q) (fun e => by cases e))
      (fun e => by cases e) hc
  rcases s.exchange_cases q cmd with ⟨-, e⟩ | ⟨-, e⟩ <;> rw [e] <;>
    exact (State.Inv.returnStatus (hs.receive (fun e => by cases e)) _).release

theorem State.Inv.readClock {s : State} (h : s.Inv) : s.readClock.Inv := by
  obtain ⟨e, n, he, hn, -⟩ := s.readClock_cases
  rw [he]
  exact ⟨h.cfg, h.framer, h.rxq, h.rxqCap, h.txs, hn, h.stores⟩

theorem State.Inv.endExchange {s : State} (h : s.Inv) (st : Status) (raw : Text) :
    (s.endExchange st raw).2.2.Inv := by
  cases st <;> exact (h.returnStatus _).release

/-- The end of a POLL (42_debouncer R205). -/
theorem State.Inv.finishPoll {x : State} (h : x.Inv) {k : Nat} {c : StoreConfig}
    (hc : x.cfg.stores[k]? = some c) (st : Status) (text : Text) :
    (x.finishPoll k c st text).Inv := by
  rcases x.finishPoll_cases k c st text with
    ⟨-, e⟩ | ⟨-, -, e⟩ | ⟨-, -, -, e⟩ | ⟨new, -, -, hdec, e⟩ <;> rw [e]
  · exact h.withOut _
  · exact (h.withStatus _).withOut _
  · exact (h.withStatus _).withOut _
  · apply State.Inv.withOut
    have hr := h.readClock
    refine ⟨hr.cfg, hr.framer, hr.rxq, hr.rxqCap, hr.txs, hr.time, ?_⟩
    show List.Forall₂ (Store.Sound x.readClock.cfg) x.readClock.cfg.stores _
    rw [State.readClock_cfg]
    refine h.modifyStore _ _ fun c' st' hc' hs' hsound => ?_
    rw [hc] at hc'
    cases hc'
    rw [List.getD, hs', Option.getD_some]
    refine hsound.updateFields _ x.readClock_time_lt fun f v hv => ?_
    obtain ⟨_, _, _, _, hlt⟩ := decodeResponse_value h.cfg (List.mem_of_getElem? hc) hdec hv
    exact hlt

end Sys2Proof.Machine
end

