-- ==== Sys2Proof/Laws/Observe.lean ====
section
/-! SUPPORT. The observations of a receive phase (40_transport R157): the loop answers what `rxObserved`
answers for what it observes, and uses up one arrival an iteration. -/

namespace Sys2Proof.Machine

theorem observe_length (arr : Nat → List Line) (n i : Nat) (q : List Line) :
    (observe arr n i q).1.length = n := by
  induction n generalizing i q with
  | zero => rfl
  | succ n ih => unfold observe; split <;> simp [ih]

/-- What is observed is, in order, a prefix of what was queued followed by what arrived. -/
theorem observe_prefix (arr : Nat → List Line) (n i : Nat) (q : List Line) :
    (observe arr n i q).1.filterMap id ++ (observe arr n i q).2
      = q ++ (List.range n).flatMap fun j => arr (i + j) := by
  induction n generalizing i q with
  | zero => simp [observe]
  | succ n ih =>
    have e : ((List.range (n + 1)).flatMap fun j => arr (i + j))
        = arr i ++ (List.range n).flatMap fun j => arr (i + 1 + j) := by
      rw [List.range_succ_eq_map, List.flatMap_cons, List.flatMap_map]
      simp only [Nat.add_zero, Nat.succ_eq_add_one, Nat.add_right_comm, Nat.add_assoc]
    rw [e, ← List.append_assoc]
    unfold observe
    split
    · rename_i h
      have := ih (i + 1) []
      simpa [h] using this
    · rename_i b q' h
      have := ih (i + 1) q'
      simpa [h] using this

theorem observe_shift (arr : Nat → List Line) (n i : Nat) (q : List Line) :
    observe (fun j => arr (j + 1)) n i q = observe arr n (i + 1) q := by
  induction n generalizing i q with
  | zero => rfl
  | succ n ih =>
    unfold observe
    split <;> simp [ih]

theorem State.arrivalAt_zero (s : State) :
    s.arrivalAt 0 = s.arriving.map (· % 2 ^ s.cfg.lineW) := by
  unfold State.arrivalAt State.arriving
  cases s.env.arrivals <;> rfl

theorem State.arrivalAt_iterate (s : State) (i : Nat) :
    s.iterate.arrivalAt i = s.arrivalAt (i + 1) := by
  unfold State.arrivalAt
  rw [State.iterate_env, State.iterate_cfg]
  cases s.env.arrivals with
  | nil => simp [Nat.add_assoc, Nat.add_comm 1]
  | cons l rest => simp

/-- The loop, observed: `k` iterations are made. -/
theorem State.rxLoop_observe {s : State} (hc : s.cfg.rxqCap = none) (n : Nat) :
    ∃ k, (State.rxLoop n s).2.2.t.tries = s.t.tries + k ∧
      rxObserved s.cfg n (observe s.arrivalAt k 0 s.rxq).1 s.t.rxtext s.t.rxacc s.t.rxs
        = ((State.rxLoop n s).1, (State.rxLoop n s).2.1) ∧
      (State.rxLoop n s).2.2.rxq = (observe s.arrivalAt k 0 s.rxq).2 ∧
      (State.rxLoop n s).2.2.env.arrivals = s.env.arrivals.drop k ∧
      (State.rxLoop n s).2.2.env.arrivalN = s.env.arrivalN + (k - s.env.arrivals.length) := by
  induction n generalizing s with
  | zero => exact ⟨0, rfl, rfl, rfl, rfl, by simp [State.rxLoop]⟩
  | succ n ih =>
    by_cases h : endsWith s.t.rxtext s.cfg.term = true
    · exact ⟨0, by simp [State.rxLoop, h], by simp [State.rxLoop, rxObserved, h],
        by simp [State.rxLoop, h, observe], by simp [State.rxLoop, h], by simp [State.rxLoop, h]⟩
    · obtain ⟨k, h1, h2, h3, h4, h5⟩ := ih (s := s.iterate) (by simpa using hc)
      have hl : State.rxLoop (n + 1) s = State.rxLoop n s.iterate := by simp [State.rxLoop, h]
      have ha : s.iterate.arrivalAt = fun j => s.arrivalAt (j + 1) := by
        funext j; exact s.arrivalAt_iterate j
      have hq : s.peerMoves.rxq = s.rxq ++ s.arrivalAt 0 := by
        rw [State.peerMoves_rxq, queue_none hc, State.arrivalAt_zero]
      rw [ha, observe_shift] at h2 h3
      rw [State.iterate_env] at h4 h5
      rw [hl]
      refine ⟨k + 1, ?_, ?_, ?_, ?_, ?_⟩
      · rw [h1, State.iterate_tries]; omega
      · rcases s.iterate_cases with ⟨h0, e⟩ | ⟨b, q, h0, e⟩
        · have hi : s.iterate.rxq = [] := by rw [e]; exact h0
          rw [hq] at h0
          simp only [observe, h0, rxObserved, if_neg h, List.headD_cons, List.tail_cons]
          rw [← h2, hi]
          simp [e]
        · have hi : s.iterate.rxq = q := by rw [e]; rfl
          rw [hq] at h0
          simp only [observe, h0, rxObserved, if_neg h, List.headD_cons, List.tail_cons]
          rw [← h2, hi]
          simp [e]
      · rw [h3]
        rcases s.iterate_cases with ⟨h0, e⟩ | ⟨b, q, h0, e⟩
        · have hi : s.iterate.rxq = [] := by rw [e]; exact h0
          rw [hq] at h0
          simp only [observe, h0, hi]
        · have hi : s.iterate.rxq = q := by rw [e]; rfl
          rw [hq] at h0
          simp only [observe, h0, hi]
      · rw [h4]; simp
      · rw [h5]; simp; omega

end Sys2Proof.Machine
end

