-- ==== Sys2Proof/Laws/PerInstr.lean ====
section
/-! SUPPORT. The family `Encoding`: for each constructor, decoding what encode wrote gives the
operation back, in every well-formed configuration and at every operand value the encoding admits. -/

namespace Sys2Proof.Laws.Encoding

def Statement (i : Instr) : Prop :=
  ∀ c : Config, c.wf = true → i.encodable c → decode c (encode c i) = some i

theorem reset : Statement .reset := fun _ _ _ => rfl

theorem xchg (q : Requester) (cmd : Text) : Statement (.xchg q cmd) := fun _ _ h =>
  decode_hostRequest (by
    simp [readOperands, readText_writeText_nil h])

theorem linkrd : Statement .linkrd := fun _ _ _ => rfl

theorem poll (s : Nat) (tick : Int) : Statement (.poll s tick) := fun _ _ h =>
  decode_hostRequest (by
    simp [readOperands, readNum_writeNum h.1, readInt_writeInt_nil h.2.1 h.2.2])

theorem valueOf (s f : Nat) : Statement (.valueOf s f) := fun _ _ h =>
  decode_hostRequest (by simp [readOperands, readNum_writeNum h.1, readNum_writeNum_nil h.2])

theorem hasPending (s f : Nat) : Statement (.hasPending s f) := fun _ _ h =>
  decode_hostRequest (by simp [readOperands, readNum_writeNum h.1, readNum_writeNum_nil h.2])

theorem setmod (s m : Nat) : Statement (.setmod s m) := fun _ _ h =>
  decode_hostRequest (by simp [readOperands, readNum_writeNum h.1, readNum_writeNum_nil h.2])

theorem enc (c : Chr) : Statement (.enc c) := fun _ _ _ => rfl

theorem decb (b : Line) : Statement (.decb b) := fun _ _ h =>
  decode_hostRequest (by simp [readOperands, readNum_writeNum_nil h])

theorem dec (b0 b1 b2 b3 : Line) : Statement (.dec b0 b1 b2 b3) := fun _ _ h =>
  decode_hostRequest (by
    simp [readOperands, readNum_writeNum h.1, readNum_writeNum h.2.1, readNum_writeNum h.2.2.1,
      readNum_writeNum_nil h.2.2.2])

theorem drain : Statement .drain := fun _ _ _ => rfl

theorem txcmd (cmd : Text) : Statement (.txcmd cmd) := fun _ _ h =>
  decode_hostRequest (by simp [readOperands, readText_writeText_nil h])

theorem rxresp : Statement .rxresp := fun _ _ _ => rfl

theorem strip (raw : Text) : Statement (.strip raw) := fun _ _ h =>
  decode_hostRequest (by simp [readOperands, readText_writeText_nil h])

theorem acq (q : Requester) : Statement (.acq q) := fun _ _ _ =>
  decode_hostRequest (by simp [readOperands])

theorem rel : Statement .rel := fun _ _ _ => rfl

theorem hexw (t : Text) (off w : Nat) : Statement (.hexw t off w) := fun _ _ h =>
  decode_hostRequest (by
    simp [readOperands, readText_writeText h.1, readNum_writeNum h.2.1,
      readNum_writeNum_nil h.2.2])

theorem fdec (word : Nat) : Statement (.fdec word) := fun _ _ h =>
  decode_hostRequest (by simp [readOperands, readNum_writeNum_nil h])

theorem fbin (word lo n : Nat) (inv : Bool) : Statement (.fbin word lo n inv) := fun _ _ h =>
  decode_hostRequest (by
    simp [readOperands, readNum_writeNum h.1, readNum_writeNum h.2.1, readNum_writeNum h.2.2])

theorem fpar (word lo n : Nat) : Statement (.fpar word lo n) := fun _ _ h =>
  decode_hostRequest (by
    simp [readOperands, readNum_writeNum h.1, readNum_writeNum h.2.1,
      readNum_writeNum_nil h.2.2])

theorem decode (s : Nat) (t : Text) : Statement (.decode s t) := fun _ _ h =>
  decode_hostRequest (by simp [readOperands, readNum_writeNum h.1, readText_writeText_nil h.2])

theorem upd (s f new now : Nat) : Statement (.upd s f new now) := fun _ _ h =>
  decode_hostRequest (by
    simp [readOperands, readNum_writeNum h.1, readNum_writeNum h.2.1, readNum_writeNum h.2.2.1,
      readNum_writeNum_nil h.2.2.2])

/-- Symbols of ENC are read back. -/
theorem readSent_lineSymbols {c : Config} (hw : c.wf = true) {l : List Line}
    (h : ∀ b ∈ l, ∃ lo hi, b = Machine.lineSymbol c lo hi) :
    readSent c l.length (symbolBytes c l) = some l := by
  obtain ⟨hne, h1, h2⟩ := Config.wf_payload hw
  have hs : l.all (Machine.isSent c) = true := List.all_eq_true.mpr fun b hb => by
    obtain ⟨lo, hi, rfl⟩ := h b hb
    exact Machine.isSent_lineSymbol hne lo hi
  have hr := readSymbols_symbolBytes c (l := l) fun b hb => by
    obtain ⟨lo, hi, rfl⟩ := h b hb
    exact symbol_fits c (Machine.lineSymbol_lt h1 h2 lo hi)
  rw [readSent, hr, Option.filter_some, if_pos hs]

theorem readSent_lineSymbol {c : Config} (hw : c.wf = true) (lo hi : Bool) :
    readSent c 1 (symbolBytes c [Machine.lineSymbol c lo hi])
      = some [Machine.lineSymbol c lo hi] :=
  readSent_lineSymbols hw (l := [_]) fun b hb => ⟨lo, hi, by simpa using hb⟩

/-- The payload bits of a symbol of ENC. -/
theorem payload {c : Config} (hw : c.wf = true) (lo hi : Bool) :
    (Machine.lineSymbol c lo hi).testBit c.pLo = lo ∧
    (Machine.lineSymbol c lo hi).testBit c.pHi = hi := by
  have hne := (Config.wf_payload hw).1
  have hne' : ¬ c.pHi = c.pLo := fun e => hne e.symm
  simp [Machine.testBit_lineSymbol hne, hne']

theorem ls (h l : Bool) : Statement (.ls h l) := fun c hw _ => by
  simp only [Sys2Proof.decode, encode, decodeLs, readSent_lineSymbol hw, payload hw]

theorem sym0 : Statement .sym0 := fun c hw _ => by
  simp only [Sys2Proof.decode, encode, decodeNamedSymbol, readSent_lineSymbol hw, payload hw]

theorem sym1 : Statement .sym1 := fun c hw _ => by
  simp only [Sys2Proof.decode, encode, decodeNamedSymbol, readSent_lineSymbol hw, payload hw]

theorem sym2 : Statement .sym2 := fun c hw _ => by
  simp only [Sys2Proof.decode, encode, decodeNamedSymbol, readSent_lineSymbol hw, payload hw]

theorem sym3 : Statement .sym3 := fun c hw _ => by
  simp only [Sys2Proof.decode, encode, decodeNamedSymbol, readSent_lineSymbol hw, payload hw]

theorem lsRx (b : Line) : Statement (.lsRx b) := fun c _ h => by
  have := readSymbols_symbolBytes c (l := [b]) fun x hx => by
    have e : x = b := by simpa using hx
    exact e ▸ h
  simp only [List.length_singleton] at this
  simp only [Sys2Proof.decode, encode, decodeReceived, this]

theorem cf (ch : Chr) : Statement (.cf ch) := fun c hw _ => by
  have h := readSent_lineSymbols hw (l := Machine.encodeChr c ch) fun b hb => by
    simp only [Machine.encodeChr, List.mem_cons, List.not_mem_nil, or_false] at hb
    rcases hb with rfl | rfl | rfl | rfl <;> exact ⟨_, _, rfl⟩
  rw [Machine.encodeChr_length] at h
  simp only [Sys2Proof.decode, encode, decodeFrame, h]
  simp only [Machine.encodeChr, Machine.decodeChr_encodeChr (Config.wf_payload hw).1]

theorem term : Statement .term := fun c _ _ => by
  simp only [Sys2Proof.decode, encode, if_true]

/-- A packed descriptor's request is decoded as its word. -/
theorem decode_descr {c : Config} {v : Nat} (h : v < 256 ^ 4) :
    Sys2Proof.decode c ⟨.descr, beBytes 4 v⟩ = decodeDescr v := by
  simp [Sys2Proof.decode, beNat_beBytes_of_lt h]

theorem ldDecimal (skip ign : Bool) (off w : Nat) : Statement (.ldDecimal skip ign off w) :=
  fun _ _ ⟨h1, h2⟩ => by
    have hs := skip.toNat_lt
    have hi := ign.toNat_lt
    show Sys2Proof.decode _ ⟨.descr, beBytes 4 _⟩ = _
    rw [decode_descr (by simp only [descrWord]; omega)]
    generalize hv : descrWord 0 skip.toNat ign.toNat (off * 2 ^ 20 + w * 2 ^ 16) = v
    simp only [descrWord] at hv
    have k : bitsOf v 31 30 = 0 := by simp only [bitsOf]; omega
    have z : bitsOf v 15 0 = 0 := by simp only [bitsOf]; omega
    have a : bitsOf v 29 29 = skip.toNat := by simp only [bitsOf]; omega
    have b : bitsOf v 28 28 = ign.toNat := by simp only [bitsOf]; omega
    have c : bitsOf v 27 20 = off := by simp only [bitsOf]; omega
    have d : bitsOf v 19 16 = w := by simp only [bitsOf]; omega
    simp [decodeDescr, k, z, a, b, c, d]

theorem lbBinary (inv ign : Bool) (k lo n : Nat) : Statement (.lbBinary inv ign k lo n) :=
  fun _ _ ⟨h1, h2, h3⟩ => by
    have hs := inv.toNat_lt
    have hi := ign.toNat_lt
    show Sys2Proof.decode _ ⟨.descr, beBytes 4 _⟩ = _
    rw [decode_descr (by simp only [descrWord]; omega)]
    generalize hv : descrWord 1 inv.toNat ign.toNat (k * 2 ^ 20 + lo * 2 ^ 15 + n * 2 ^ 9) = v
    simp only [descrWord] at hv
    have kk : bitsOf v 31 30 = 1 := by simp only [bitsOf]; omega
    have z : bitsOf v 8 0 = 0 := by simp only [bitsOf]; omega
    have a : bitsOf v 29 29 = inv.toNat := by simp only [bitsOf]; omega
    have b : bitsOf v 28 28 = ign.toNat := by simp only [bitsOf]; omega
    have c : bitsOf v 27 20 = k := by simp only [bitsOf]; omega
    have d : bitsOf v 19 15 = lo := by simp only [bitsOf]; omega
    have e : bitsOf v 14 9 = n := by simp only [bitsOf]; omega
    simp [decodeDescr, kk, z, a, b, c, d, e]

theorem lbParityCount (ign : Bool) (k lo n : Nat) : Statement (.lbParityCount ign k lo n) :=
  fun _ _ ⟨h1, h2, h3⟩ => by
    have hi := ign.toNat_lt
    show Sys2Proof.decode _ ⟨.descr, beBytes 4 _⟩ = _
    rw [decode_descr (by simp only [descrWord]; omega)]
    generalize hv : descrWord 2 0 ign.toNat (k * 2 ^ 20 + lo * 2 ^ 15 + n * 2 ^ 9) = v
    simp only [descrWord] at hv
    have kk : bitsOf v 31 30 = 2 := by simp only [bitsOf]; omega
    have z : bitsOf v 8 0 = 0 := by simp only [bitsOf]; omega
    have a : bitsOf v 29 29 = 0 := by simp only [bitsOf]; omega
    have b : bitsOf v 28 28 = ign.toNat := by simp only [bitsOf]; omega
    have c : bitsOf v 27 20 = k := by simp only [bitsOf]; omega
    have d : bitsOf v 19 15 = lo := by simp only [bitsOf]; omega
    have e : bitsOf v 14 9 = n := by simp only [bitsOf]; omega
    simp [decodeDescr, kk, z, a, b, c, d, e]

theorem lReserved (x : Nat) : Statement (.lReserved x) := fun _ _ h => by
  have h : x < 2 ^ 30 := h
  show Sys2Proof.decode _ ⟨.descr, beBytes 4 _⟩ = _
  rw [decode_descr (by omega)]
  generalize hv : 3 * 2 ^ 30 + x = v
  have k : bitsOf v 31 30 = 3 := by simp only [bitsOf]; omega
  have a : bitsOf v 29 0 = x := by simp only [bitsOf]; omega
  simp [decodeDescr, k, a]

end Sys2Proof.Laws.Encoding
end

