-- ==== Sys2Proof/Laws/Step.lean ====
section
/-! SUPPORT. Turns, ports and everything a step can do. -/

namespace Sys2Proof.Machine

/-- Choosing the agent that moves changes the scheduler's account and nothing else (log 6). -/
theorem State.turn_cases (s : State) :
    ∃ e : Env, s.turn.2 = s.withEnv e ∧ (∀ a, e.port a = s.env.port a) ∧
      e.arrivals = s.env.arrivals ∧ e.arrivalN = s.env.arrivalN ∧ e.clock = s.env.clock ∧
      e.clockN = s.env.clockN := by
  unfold State.turn
  split <;> exact ⟨_, rfl, fun a => by cases a <;> rfl, rfl, rfl, rfl, rfl⟩

@[simp] theorem State.turn_cfg (s : State) : s.turn.2.cfg = s.cfg := by
  obtain ⟨e, h, -⟩ := s.turn_cases; rw [h]; rfl
@[simp] theorem State.turn_t (s : State) : s.turn.2.t = s.t := by
  obtain ⟨e, h, -⟩ := s.turn_cases; rw [h]; rfl
@[simp] theorem State.turn_stores (s : State) : s.turn.2.stores = s.stores := by
  obtain ⟨e, h, -⟩ := s.turn_cases; rw [h]; rfl
@[simp] theorem State.turn_port (s : State) (a : Agent) : s.turn.2.env.port a = s.env.port a := by
  obtain ⟨e, h, hp, -⟩ := s.turn_cases; rw [h]; exact hp a

@[simp] theorem State.taken_cfg (s : State) (a : Agent) (l : List Request) :
    (s.taken a l).cfg = s.cfg := rfl
@[simp] theorem State.taken_t (s : State) (a : Agent) (l : List Request) :
    (s.taken a l).t = s.t := rfl
@[simp] theorem State.taken_stores (s : State) (a : Agent) (l : List Request) :
    (s.taken a l).stores = s.stores := rfl

theorem State.asking_congr {s s' : State} (hc : s'.cfg = s.cfg) (hs : s'.stores = s.stores)
    (hp : ∀ a, s'.env.port a = s.env.port a) (q : Requester) : s'.asking q = s.asking q := by
  have hr : ∀ i, s'.runsExchange i = s.runsExchange i := fun i => by
    cases i <;> simp [State.runsExchange, State.pollDue, hs]
  simp only [State.asking, hp, hc, hr]

theorem waits_congr {s s' : State} (ht : s'.t = s.t) (hc : s'.cfg = s.cfg)
    (hs : s'.stores = s.stores) (hp : ∀ a, s'.env.port a = s.env.port a) (a : Agent) (i : Instr) :
    waits s' a i = waits s a i := by
  have hm : ∀ q, s'.mayTake q = s.mayTake q := fun q => by
    simp only [State.mayTake, ht, hc, State.asking_congr hc hs hp]
  have ho : s'.ownsLock a = s.ownsLock a := by cases a <;> simp [State.ownsLock, ht]
  have hph : ∀ p, s'.inPhase p = s.inPhase p := fun p => by simp only [State.inPhase, ht]
  cases i <;>
    simp only [waits, ho, hm, hph, State.atEnd, State.pollDue, hs]

theorem State.waits_turn (s : State) (a : Agent) (i : Instr) : waits s.turn.2 a i = waits s a i :=
  waits_congr s.turn_t s.turn_cfg s.turn_stores s.turn_port a i

theorem State.asking_turn (s : State) (q : Requester) : s.turn.2.asking q = s.asking q :=
  State.asking_congr s.turn_cfg s.turn_stores s.turn_port q

theorem State.NextRequest.port {s : State} {r : Request} {rest : List Request}
    (h : s.NextRequest r rest) : s.env.port s.turn.1 = r :: rest := by
  rw [← State.turn_port]; exact h.2

/-- An agent with a request at its port is not quiet. -/
theorem Env.not_quiet {e : Env} {a : Agent} (h : e.port a ≠ []) : e.quiet = false := by
  cases hq : e.quiet with
  | false => rfl
  | true =>
    simp only [Env.quiet, Bool.and_eq_true, List.isEmpty_iff] at hq
    obtain ⟨⟨⟨h1, h2⟩, h3⟩, h4⟩ := hq
    cases a <;> simp [Env.port, h1, h2, h3, h4] at h

theorem State.NextRequest.not_quiet {s : State} {r : Request} {rest : List Request}
    (h : s.NextRequest r rest) : s.env.quiet = false :=
  Env.not_quiet (a := s.turn.1) (by rw [h.port]; exact List.cons_ne_nil _ _)

/-- What a step does with the request of the agent whose turn it is. -/
theorem step_of_nextRequest {s : State} {r : Request} {rest : List Request}
    (hw : s.cfg.wf = true) (h : s.NextRequest r rest) :
    step s =
      match decode s.cfg r with
      | none => .refused .badRequest
      | some i =>
        if !mayIssue s.turn.1 i then .refused .wrongRequester
        else
          match i.failedCheck s.cfg with
          | some c => .refused (.badOperand c)
          | none =>
            if waits s s.turn.1 i then .next s.turn.2
            else exec i (s.turn.2.taken s.turn.1 rest) := by
  unfold step
  simp only [hw, h.not_quiet, h.1, h.2, Bool.not_true, Bool.false_eq_true, if_false,
    State.waits_turn] <;> cases decode s.cfg r <;> rfl

/-- A step at which the sequencer goes on with an exchange, begins one, or has nothing to do. -/
theorem step_of_sequencerMove {s t : State} (hw : s.cfg.wf = true) (hq : s.env.quiet = false)
    (h : s.turn.2.sequencerMove s.turn.1 = some t) : step s = .next t := by
  unfold step
  simp only [hw, hq, h, Bool.not_true, Bool.false_eq_true, if_false]

/-- Everything a step with a next state can do. -/
theorem step_cases {s s' : State} (h : step s = .next s') :
    s.cfg.wf = true ∧
    (s' = s ∨ s' = s.turn.2 ∨ s.turn.2.sequencerMove s.turn.1 = some s' ∨
      ∃ (r : Request) (rest : List Request) (i : Instr),
        s.NextRequest r rest ∧ decode s.cfg r = some i ∧ mayIssue s.turn.1 i = true ∧
        i.failedCheck s.cfg = none ∧ waits s s.turn.1 i = false ∧
        exec i (s.turn.2.taken s.turn.1 rest) = .next s') := by
  unfold step at h
  split at h
  · cases h
  · rename_i hw
    refine ⟨by simpa using hw, ?_⟩
    split at h
    · cases h; exact .inl rfl
    · split at h
      · rename_i t ht
        cases h; exact .inr (.inr (.inl ht))
      · rename_i hm
        split at h
        · cases h; exact .inr (.inl rfl)
        · rename_i r rest hp
          split at h
          · cases h
          · rename_i i hd
            split at h
            · cases h
            · rename_i hi
              split at h
              · cases h
              · rename_i hf
                split at h
                · cases h; exact .inr (.inl rfl)
                · rename_i hwt
                  rw [State.waits_turn] at hwt
                  exact .inr (.inr (.inr
                    ⟨r, rest, i, ⟨hm, hp⟩, hd, by simpa using hi, hf, by simpa using hwt, h⟩))

/-- No check fails exactly if the operation is well formed. -/
theorem Instr.failedCheck_eq_none {c : Config} {i : Instr} :
    i.failedCheck c = none ↔ i.wf c = true := by
  unfold Instr.failedCheck Instr.wf
  simp

/-! ### The sequencer -/

/-- An exchange a requester asks for: well formed, its own, and an XCHG or a POLL that is due. -/
theorem State.asking_cases {s : State} {q : Requester} {i : Instr} (h : s.asking q = some i) :
    ∃ r rest, s.env.port (Requester.agent q) = r :: rest ∧ decode s.cfg r = some i ∧
      mayIssue (Requester.agent q) i = true ∧ i.wf s.cfg = true ∧
      ((∃ cmd, i = .xchg q cmd) ∨
        (q = .pollq ∧ ∃ k tick, i = .poll k tick ∧ s.pollDue k tick = true)) := by
  unfold State.asking at h
  split at h
  · cases h
  · rename_i r rest hp
    obtain ⟨hd, hi⟩ := Option.filter_eq_some_iff.mp h
    simp only [Bool.and_eq_true] at hi
    obtain ⟨⟨hm, hw⟩, hx⟩ := hi
    refine ⟨r, rest, hp, hd, hm, hw, ?_⟩
    cases i with
    | xchg q' cmd =>
      refine .inl ⟨cmd, ?_⟩
      have : Requester.agent q = Requester.agent q' := by simpa [mayIssue] using hm
      cases q <;> cases q' <;> first | rfl | cases this
    | poll k tick =>
      refine .inr ⟨?_, k, tick, rfl, hx⟩
      cases q with
      | pollq => rfl
      | reqq => cases hm
    | _ => cases hx

/-- What the sequencer's move can be. -/
theorem State.sequencerMove_cases {s t : State} {a : Agent} (h : s.sequencerMove a = some t) :
    ∃ q, a = .sequencer q ∧
      ((∃ q' i, s.t.lock = .held q' ∧ s.asking q' = some i ∧ t = s.advance q' i) ∨
        (s.underWay = none ∧ s.t.lock = .free ∧ (s.asking q).isSome = true ∧ s.mayTake q = true ∧
          t = s.acquire q) ∨
        t = s) := by
  unfold State.sequencerMove at h
  split at h
  · rename_i q
    refine ⟨q, rfl, ?_⟩
    split at h
    · rename_i x hx
      cases h
      unfold State.underWay at hx
      split at hx
      · cases hx
      · rename_i q' hl
        obtain ⟨i, hi, e⟩ := Option.map_eq_some_iff.mp hx
        exact .inl ⟨q', i, hl, hi, by rw [← e]⟩
    · rename_i hu
      split at h
      · cases h
        split
        · rename_i hb
          simp only [Bool.and_eq_true] at hb
          have hf : s.t.lock = .free := by
            have := hb.1
            simp only [State.mayTake, Bool.and_eq_true, beq_iff_eq] at this
            exact this.1
          exact .inr (.inl ⟨hu, hf, hb.2, hb.1, rfl⟩)
        · exact .inr (.inr rfl)
      · cases h
  · cases h

/-- The ports when the request at the head of one is taken. -/
theorem State.takeHead_eq (s : State) (q : Requester) :
    s.takeHead q = s.rebook (s.env.withPort (Requester.agent q)
      (s.env.port (Requester.agent q)).tail) := by
  cases q <;> rfl

end Sys2Proof.Machine
end

