-- ==== Sys2Proof/Laws/Sequencer.lean ====
section
/-! SUPPORT. The parts of an exchange, each in its phase (10_state R24); the end of an exchange; and
what the sequencer does with one under way. -/

namespace Sys2Proof.Machine

/-! ### A part in its phase, and out of it -/

theorem State.inPhase_iff {s : State} {p : Phase} :
    s.inPhase p = true ↔ s.t.lock ≠ .free ∧ s.t.phase = p := by
  simp [State.inPhase]

theorem State.atEnd_iff {s : State} :
    s.atEnd = true ↔ s.t.lock ≠ .free ∧ (s.t.phase = .strip ∨ s.t.phase = .idle) := by
  rw [State.atEnd, Bool.or_eq_true, State.inPhase_iff, State.inPhase_iff, and_or_left]

theorem exec_drain (s : State) :
    exec .drain s = .next (if s.inPhase .drain then s.drainLine.withOut .none else s) := by
  simp only [exec, execDrain]; split <;> rfl

theorem exec_txcmd (s : State) (cmd : Text) :
    exec (.txcmd cmd) s = .next (if s.inPhase .tx then (s.transmit cmd).withOut .none else s) := by
  simp only [exec, execTxcmd]; split <;> rfl

theorem exec_rxresp (s : State) :
    exec .rxresp s = .next (if s.inPhase .rx then
      s.receive.2.2.withOut (.exchange s.receive.1 s.receive.2.1) else s) := by
  simp only [exec, execRxresp]; split <;> rfl

theorem exec_rel (s : State) :
    exec .rel s = .next (if s.atEnd then s.release.withOut .none else s) := by
  simp only [exec, execRel]; split <;> rfl

/-! ### The end of an exchange -/

@[simp] theorem State.endExchange_cfg (s : State) (st : Status) (raw : Text) :
    (s.endExchange st raw).2.2.cfg = s.cfg := by cases st <;> rfl
@[simp] theorem State.endExchange_stores (s : State) (st : Status) (raw : Text) :
    (s.endExchange st raw).2.2.stores = s.stores := by cases st <;> rfl

@[simp] theorem State.finishPoll_cfg (x : State) (k : Nat) (c : StoreConfig) (st : Status)
    (text : Text) : (x.finishPoll k c st text).cfg = x.cfg := by
  rcases x.finishPoll_cases k c st text with ⟨-, h⟩ | ⟨-, -, h⟩ | ⟨-, -, -, h⟩ | ⟨_, -, -, -, h⟩ <;>
    rw [h]
  · rfl
  · rfl
  · rfl
  · exact State.readClock_cfg x

@[simp] theorem State.finishPoll_t (x : State) (k : Nat) (c : StoreConfig) (st : Status)
    (text : Text) : (x.finishPoll k c st text).t = x.t := by
  rcases x.finishPoll_cases k c st text with ⟨-, h⟩ | ⟨-, -, h⟩ | ⟨-, -, -, h⟩ | ⟨_, -, -, -, h⟩ <;>
    rw [h]
  · rfl
  · rfl
  · rfl
  · exact State.readClock_t x

/-- The end of a POLL does not look at the ports and the account of turns. -/
theorem State.finishPoll_rebook (x : State) (b : Env) (k : Nat) (c : StoreConfig) (st : Status)
    (text : Text) : (x.rebook b).finishPoll k c st text = (x.finishPoll k c st text).rebook b := by
  unfold State.finishPoll
  split
  · split
    · rfl
    · split
      · rfl
      · rw [State.readClock_rebook]; rfl
  · rfl

@[simp] theorem deliver_cfg (i : Instr) (r : Status × Text × State) :
    (deliver i r).cfg = r.2.2.cfg := by
  unfold deliver
  split
  · split
    · exact State.finishPoll_cfg ..
    · rfl
  · rfl

@[simp] theorem deliver_t (i : Instr) (r : Status × Text × State) : (deliver i r).t = r.2.2.t := by
  unfold deliver
  split
  · split
    · exact State.finishPoll_t ..
    · rfl
  · rfl

theorem deliver_rebook (i : Instr) (st : Status) (text : Text) (x : State) (b : Env) :
    deliver i (st, text, x.rebook b) = (deliver i (st, text, x)).rebook b := by
  unfold deliver
  split
  · have : (x.rebook b).cfg = x.cfg := rfl
    dsimp only
    rw [this]
    split
    · exact State.finishPoll_rebook ..
    · rfl
  · rfl

@[simp] theorem State.conclude_cfg (s : State) (q : Requester) (i : Instr) (st : Status)
    (raw : Text) : (s.conclude q i st raw).cfg = s.cfg := by
  show (deliver i (s.endExchange st raw)).cfg = _
  rw [deliver_cfg, State.endExchange_cfg]

@[simp] theorem State.advance_cfg (s : State) (q : Requester) (i : Instr) :
    (s.advance q i).cfg = s.cfg := by
  have h := s.receive_spec.1.cfg
  unfold State.advance
  split
  · rfl
  · rfl
  · dsimp only
    split
    · exact h
    · rw [State.conclude_cfg, h]
  · exact State.conclude_cfg ..
  · exact State.conclude_cfg ..

/-! ### Steps -/

/-- An operation that runs an exchange, in one step with the lock FREE. -/
theorem exec_exchange {s : State} {q : Requester} {i : Instr} (hl : s.t.lock = .free)
    (hi : i.wf s.cfg = true)
    (hx : (∃ cmd, i = .xchg q cmd) ∨
      (q = .pollq ∧ ∃ k tick, i = .poll k tick ∧ s.pollDue k tick = true)) :
    exec i s = .next (deliver i (s.exchange q (commandOf s.cfg i))) := by
  rcases hx with ⟨cmd, rfl⟩ | ⟨rfl, k, tick, rfl, hd⟩
  · simp [exec, execXchg, hl, deliver, commandOf]
  · have hk : k < s.cfg.stores.length := by
      simp only [Instr.wf, Instr.checks, Config.storeIndexOk, List.all_cons, Bool.and_eq_true,
        decide_eq_true_eq] at hi
      exact hi.1
    have hc := List.getElem?_eq_getElem hk
    have hg := (s.exchange_spec .pollq s.cfg.stores[k].cmd).2.2.2.2.2.2.1
    unfold State.pollDue at hd
    split at hd
    · rename_i st hs
      simp [exec, execPoll, deliver, commandOf, hs, hd, hl, hg, hc]
    · cases hd

/-- The sequencer's step while an exchange is under way: one part of it. -/
theorem step_advance {s : State} {q q' : Requester} {i : Instr} {rest : List Agent}
    (hw : s.cfg.wf = true) (hl : s.t.lock = .held q) (ha : s.asking q = some i)
    (hs : s.env.sched = .sequencer q' :: rest) :
    step s = .next ((s.withEnv { s.env with sched := rest }).advance q i) := by
  have ht : s.turn = (.sequencer q', s.withEnv { s.env with sched := rest }) := by
    unfold State.turn; rw [hs]
  have hq : s.env.quiet = false := by
    obtain ⟨r, l, hp, -⟩ := State.asking_cases ha
    exact Env.not_quiet (a := Requester.agent q) (by rw [hp]; exact List.cons_ne_nil _ _)
  have ha' : (s.withEnv { s.env with sched := rest }).asking q = some i := by
    have := s.asking_turn q
    rw [ht] at this; rw [this, ha]
  apply step_of_sequencerMove hw hq
  rw [ht]
  simp only [State.sequencerMove, State.underWay, State.withEnv_t, hl, ha', Option.map_some]

end Sys2Proof.Machine
end

