-- ==== Sys2Proof/Tests/Slice0.lean ====
section
/-! SUPPORT. The model's own tests. Expected values are written from spec/95_test_vectors.md (V-..,
P1 to P6) and from the tables of 30_encoding.md; and, for every statement of
Certificates/Slice0/Obligations.lean that has hypotheses, a witness that meets them. -/

namespace Sys2Proof.Tests

open Sys2Proof.Machine

/-! ### Helpers -/

/-- The state after RESET, with the configuration `CFG` of 95_test_vectors section 5. -/
def base : State := State.reset

/-- `CFG` with some parameters changed. -/
def baseWith (c : Config) : State := State.resetFor c 0 Env.unlisted

/-- The state after an operation; the state itself where the operation stops. -/
def after (i : Instr) (s : State) : State :=
  match exec i s with
  | .next t => t
  | _ => s

/-- The operation has a next state. -/
def runs (i : Instr) (s : State) : Bool :=
  match exec i s with
  | .next _ => true
  | _ => false

/-- The next state, if there is one. -/
def nextOf : Host.Outcome State Fault Refusal → Option State
  | .next t => some t
  | _ => none

/-- The state after a step; the state itself where the step stops. -/
def stepped (s : State) : State := (nextOf (step s)).getD s

/-- The refusal, if it is one. -/
def refusalOf : Host.Outcome State Fault Refusal → Option Refusal
  | .refused r => some r
  | _ => none

theorem eq_next {o : Host.Outcome State Fault Refusal} {t : State} (h : nextOf o = some t) :
    o = .next t := by
  unfold nextOf at h
  split at h
  · cases h; rfl
  · cases h

theorem exec_after {i : Instr} {s : State} (h : runs i s = true) : exec i s = .next (after i s) := by
  unfold runs at h
  unfold after
  split at h
  · rename_i t e; rw [e]
  · cases h

theorem step_stepped {s : State} (h : (nextOf (step s)).isSome = true) :
    step s = .next (stepped s) := by
  obtain ⟨t, ht⟩ := Option.isSome_iff_exists.mp h
  rw [stepped, ht]
  exact eq_next ht

/-- The peer sends these symbols, one per receive iteration, after `idle` silent ones. -/
def sends (idle : Nat) (l : List Line) (s : State) : State :=
  s.withEnv { s.env with arrivals := List.replicate idle [] ++ l.map fun b => [b] }

/-- The time counter moves on by `d` before the next `Now()`. -/
def waitsFor (d : Nat) (s : State) : State := s.withEnv { s.env with clock := [d] }

/-- The operation of a request, and the request of an operation, under the default parameters. -/
def reads (r : Request) : Option Instr := decode Config.atReset r
def made (i : Instr) : Request := encode Config.atReset i

/-- An agent has issued a request and has the turn. -/
def asks (a : Agent) (r : Request) (s : State) : State := s.issueNext a r

/-- The lock is POLLQ's and the exchange in the given phase. -/
def toPhase (p : Phase) (s : State) : State := s.withT { s.t with lock := .held .pollq, phase := p }

/-- The state with field 0 of store 0 holding a record. -/
def holding (cur prev ts pts : Nat) (pend : Bool) : State :=
  base.writeField 0 0 ⟨cur, prev, ts, pts, pend, false⟩

/-- `RESP_A` (V-T24): "ic:5A3C" with terminator. -/
def respA : List Line :=
  [0xDF, 0xFB, 0xFB, 0xDF, 0xFF, 0xDB, 0xFB, 0xDF, 0xFB, 0xFB, 0xFF, 0xDB] ++
  [0xDF, 0xDF, 0xFF, 0xDB, 0xDF, 0xDB, 0xDB, 0xDF, 0xFF, 0xDB, 0xFF, 0xDB] ++
  [0xFF, 0xDB, 0xDB, 0xDF, 0xDF, 0xFF, 0xDB, 0xDB, 0xFB, 0xFB, 0xDB, 0xDB]

/-- `RESP_SHORT` (V-T26): "ic:5A3" with terminator. -/
def respShort : List Line :=
  [0xDF, 0xFB, 0xFB, 0xDF, 0xFF, 0xDB, 0xFB, 0xDF, 0xFB, 0xFB, 0xFF, 0xDB] ++
  [0xDF, 0xDF, 0xFF, 0xDB, 0xDF, 0xDB, 0xDB, 0xDF, 0xFF, 0xDB, 0xFF, 0xDB] ++
  [0xDF, 0xFF, 0xDB, 0xDB, 0xFB, 0xFB, 0xDB, 0xDB]

/-- `RESP_BAD` (V-T27): "ic:5G3D" with terminator. -/
def respBad : List Line :=
  [0xDF, 0xFB, 0xFB, 0xDF, 0xFF, 0xDB, 0xFB, 0xDF, 0xFB, 0xFB, 0xFF, 0xDB] ++
  [0xDF, 0xDF, 0xFF, 0xDB, 0xFF, 0xDF, 0xDB, 0xDF, 0xFF, 0xDB, 0xFF, 0xDB] ++
  [0xDB, 0xDF, 0xDB, 0xDF, 0xDF, 0xFF, 0xDB, 0xDB, 0xFB, 0xFB, 0xDB, 0xDB]

/-- `CMD_IC` (V-T20): the frame of "IC:". -/
def cmdIc : List Line :=
  [0xDF, 0xFB, 0xDB, 0xDF, 0xFF, 0xDB, 0xDB, 0xDF, 0xFB, 0xFB, 0xFF, 0xDB] ++
  [0xDF, 0xFF, 0xDB, 0xDB, 0xFB, 0xFB, 0xDB, 0xDB]

/-- "IC:", "5A3C", "ic:5A3C" and the terminator. -/
def textIc : Text := [0x49, 0x43, 0x3A]
def text5A3C : Text := [0x35, 0x41, 0x33, 0x43]
def textRaw : Text := [0x69, 0x63, 0x3A, 0x35, 0x41, 0x33, 0x43, 0x0D, 0x0A]

/-- The layout `LT` of 95_test_vectors 3.3 in a store whose responses have 12 characters. -/
def storeLT : StoreConfig :=
  { kind := .memoryDump, cmd := [], respLen := 12, expiry := 1000,
    layout :=
      [.decimal 0 4 false false, .decimal 4 2 true true, .decimal 6 4 true false,
       .decimal 10 2 false false, .binary 2 7 1 false false, .parityCount 3 0 8 false,
       .binary 1 0 1 false true, .binary 0 0 8 true false] }

def configLT : Config := { Config.atReset with stores := List.replicate 6 storeLT }

/-- "01FFzz0080A5" (V-F30) and "01FFzz00x0A5" (V-F32). -/
def textF30 : Text := [0x30, 0x31, 0x46, 0x46, 0x7A, 0x7A, 0x30, 0x30, 0x38, 0x30, 0x41, 0x35]
def textF32 : Text := [0x30, 0x31, 0x46, 0x46, 0x7A, 0x7A, 0x30, 0x30, 0x78, 0x30, 0x41, 0x35]

/-! ### WellFormed: an ill-formed term for each check -/

/-- A store of 4-character responses with this layout. -/
def storeOf (l : List Descr) : StoreConfig :=
  { kind := .inputControlBoard, cmd := textIc, respLen := 4, expiry := 1000, layout := l }

def configOf (c : StoreConfig) : Config := { Config.atReset with stores := List.replicate 6 c }

theorem test_wf_reset_configuration : Config.atReset.wf = true := by decide
theorem test_wf_layout_LT : configLT.wf = true := by decide

theorem test_layout_wordsFirst_refused :
    layoutOk 32 (storeOf [.decimal 0 2 false false, .binary 0 0 1 false false,
      .decimal 2 2 false false]) .wordsFirst = false := by decide
theorem test_layout_chunkWidth_refused :
    layoutOk 32 (storeOf [.decimal 0 0 false false]) .chunkWidth = false ∧
    layoutOk 64 { storeOf [.decimal 0 9 false false] with respLen := 9 } .chunkWidth = false := by
  decide
theorem test_layout_chunkInRange_refused :
    layoutOk 32 (storeOf [.decimal 1 4 false false]) .chunkInRange = false := by decide
theorem test_layout_wordExists_refused :
    layoutOk 32 (storeOf [.decimal 0 4 false false, .binary 1 0 1 false false]) .wordExists
      = false := by decide
theorem test_layout_spanWidth_refused :
    layoutOk 32 (storeOf [.decimal 0 4 false false, .parityCount 0 0 0 false]) .spanWidth = false ∧
    layoutOk 32 (storeOf [.decimal 0 4 false false, .binary 0 0 33 false false]) .spanWidth
      = false := by decide
theorem test_layout_spanInWord_refused :
    layoutOk 32 (storeOf [.decimal 0 4 false false, .binary 0 9 8 false false]) .spanInWord
      = false := by decide
theorem test_layout_ignoreClosed_refused :
    layoutOk 32 (storeOf [.decimal 0 4 false true]) .ignoreClosed = false ∧
    layoutOk 32 (storeOf [.decimal 0 4 true true, .binary 0 0 1 false false]) .ignoreClosed
      = false := by decide
theorem test_layout_valueFits_refused :
    layoutOk 15 (storeOf [.decimal 0 4 false false]) .valueFits = false := by decide

theorem test_config_payloadPositions_refused :
    Config.wf { Config.atReset with pHi := 2 } = false ∧
    Config.wf { Config.atReset with pHi := 8 } = false := by decide
theorem test_config_payloadTypes_refused :
    Config.wf { Config.atReset with lineW := 16, pLo := 12 } = false ∧
    Config.wf { Config.atReset with lineW := 16, pHi := 8 } = false ∧
    Config.wf { Config.atReset with lineW := 16, fill := 0x1FF } = false := by decide
theorem test_config_lockGrant_refused :
    Config.wf { Config.atReset with lockGrant := [] } = false ∧
    Config.wf { Config.atReset with lockGrant := [.reqq] } = true := by decide
theorem test_config_terminatorLength_refused :
    Config.wf { Config.atReset with term := [0x0D] } = false := by decide
theorem test_config_retryBound_refused :
    Config.wf { Config.atReset with retryMax := 35 } = false := by decide
theorem test_config_responseLength_refused :
    Config.wf { Config.atReset with prefixLen := 4 } = false := by decide
theorem test_config_commandLength_refused :
    Config.wf { Config.atReset with cmdMax := 2 } = false := by decide
theorem test_config_storeCount_refused :
    Config.wf { Config.atReset with stores := List.replicate 5 Config.exampleStore } = false ∧
    Config.wf { Config.atReset with stores := List.replicate 15 Config.exampleStore } = false := by
  decide
theorem test_config_expiryRange_refused :
    Config.wf { Config.atReset with tsW := 9 } = false := by decide
theorem test_config_layout_refused :
    Config.wf (configOf (storeOf [.decimal 1 4 false false])) = false := by decide

theorem test_operand_storeIndex_refused :
    Instr.failedCheck Config.atReset (.setmod 6 1) = some .storeIndex := by decide
theorem test_operand_fieldIndex_refused :
    Instr.failedCheck Config.atReset (.valueOf 0 5) = some .fieldIndex := by decide
theorem test_operand_commandLength_refused :
    Instr.failedCheck Config.atReset (.txcmd (List.replicate 33 0)) = some .commandLength := by
  decide
theorem test_operand_tickRange_refused :
    Instr.failedCheck Config.atReset (.poll 0 (2 ^ 31)) = some .tickRange ∧
    Instr.failedCheck Config.atReset (.poll 0 (-(2 ^ 31))) = none := by decide
theorem test_operand_modulusRange_refused :
    Instr.failedCheck Config.atReset (.setmod 0 (2 ^ 32)) = some .modulusRange := by decide
theorem test_operand_lineSymbolRange_refused :
    Instr.failedCheck Config.atReset (.decb 256) = some .lineSymbolRange := by decide
theorem test_operand_valueRange_refused :
    Instr.failedCheck Config.atReset (.fdec (2 ^ 32)) = some .valueRange ∧
    Instr.failedCheck Config.atReset (.upd 0 1 2 0) = some .valueRange ∧
    Instr.failedCheck Config.atReset (.upd 0 3 8 0) = none ∧
    Instr.failedCheck Config.atReset (.upd 0 3 9 0) = some .valueRange := by decide
theorem test_operand_timeRange_refused :
    Instr.failedCheck Config.atReset (.upd 0 0 0 (2 ^ 32)) = some .timeRange := by decide

/-- A step refuses an ill-formed configuration and a bad operand by name. -/
theorem test_step_refuses :
    refusalOf (step (baseWith { Config.atReset with pHi := 2 })) = some .illFormedConfiguration ∧
    refusalOf (step (asks .pollq (made (.setmod 6 1)) base)) = some (.badOperand .storeIndex) ∧
    refusalOf (step (asks .pollq ⟨.ho, [0x03]⟩ base)) = some .badRequest ∧
    refusalOf (step (asks .reqq (made (.poll 0 0)) base)) = some .wrongRequester ∧
    refusalOf (step (asks .pollq (made .drain) base)) = some .wrongRequester := by decide

/-- R8 `N_LAYOUT_KINDS`, `N_INTERP`, `GROUP_W`: four kinds of layout, three of interpretation, pairs
of bits; and the lengths of 10_state R37. -/
theorem test_constants :
    Config.nLayoutKinds = [LayoutKind.memoryDump, .inputControlBoard, .beverage, .circuitry].length ∧
    Config.nInterp = 3 ∧ Config.groups * Config.groupW = Config.charW ∧
    LayoutKind.sourceLength .memoryDump 64 = true ∧ LayoutKind.sourceLength .beverage 43 = false := by
  decide

/-! ### Decode: a word of every constructor, written out from the spec's encodings -/

/-- The 8 bytes of a small number operand (log 7). -/
def num (b : Byte) : List Byte := [b, 0, 0, 0, 0, 0, 0, 0]

/-- 30_encoding R118: host operations. -/
theorem test_decode_host :
    reads ⟨.ho, [0x00]⟩ = some .reset ∧
    reads ⟨.ho, [0x01, 1] ++ num 2 ++ [0x49, 0x43]⟩ = some (.xchg .reqq [0x49, 0x43]) ∧
    reads ⟨.ho, [0x02]⟩ = some .linkrd ∧
    reads ⟨.ho, [0x10] ++ num 2 ++ List.replicate 8 0xFF⟩ = some (.poll 2 (-1)) ∧
    reads ⟨.ho, [0x11] ++ num 2 ++ num 3⟩ = some (.valueOf 2 3) ∧
    reads ⟨.ho, [0x12] ++ num 2 ++ num 3⟩ = some (.hasPending 2 3) ∧
    reads ⟨.ho, [0x13] ++ num 2 ++ num 50⟩ = some (.setmod 2 50) := by decide

/-- R118: step operations of unit T. -/
theorem test_decode_unit_T :
    reads ⟨.ho, [0x80, 0x52]⟩ = some (.enc 0x52) ∧
    reads ⟨.ho, [0x81] ++ num 0xDF⟩ = some (.decb 0xDF) ∧
    reads ⟨.ho, [0x82] ++ num 1 ++ num 2 ++ num 3 ++ num 4⟩ = some (.dec 1 2 3 4) ∧
    reads ⟨.ho, [0x83]⟩ = some .drain ∧
    reads ⟨.ho, [0x84] ++ num 1 ++ [0x49]⟩ = some (.txcmd [0x49]) ∧
    reads ⟨.ho, [0x85]⟩ = some .rxresp ∧
    reads ⟨.ho, [0x86] ++ num 2 ++ [0x0D, 0x0A]⟩ = some (.strip [0x0D, 0x0A]) ∧
    reads ⟨.ho, [0x87, 0]⟩ = some (.acq .pollq) ∧
    reads ⟨.ho, [0x88]⟩ = some .rel := by decide

/-- R118: step operations of units F and D. -/
theorem test_decode_units_F_D :
    reads ⟨.ho, [0x90] ++ num 2 ++ [0x46, 0x46] ++ num 0 ++ num 2⟩
      = some (.hexw [0x46, 0x46] 0 2) ∧
    reads ⟨.ho, [0x91, 0x3C, 0x5A, 0, 0, 0, 0, 0, 0]⟩ = some (.fdec 0x5A3C) ∧
    reads ⟨.ho, [0x92] ++ num 7 ++ num 1 ++ num 2 ++ [1]⟩ = some (.fbin 7 1 2 true) ∧
    reads ⟨.ho, [0x93] ++ num 7 ++ num 1 ++ num 2⟩ = some (.fpar 7 1 2) ∧
    reads ⟨.ho, [0x94] ++ num 3 ++ num 1 ++ [0x41]⟩ = some (.decode 3 [0x41]) ∧
    reads ⟨.ho, [0xA0] ++ num 1 ++ num 2 ++ num 3 ++ num 4⟩ = some (.upd 1 2 3 4) := by decide

/-- R91, R92, R93 with V-T3, R94: line forms. -/
theorem test_decode_line_forms :
    reads ⟨.ls, [0xFB]⟩ = some (.ls true false) ∧ reads ⟨.ls, [0xDF]⟩ = some (.ls false true) ∧
    reads ⟨.sym, [0xDB]⟩ = some .sym0 ∧ reads ⟨.sym, [0xDF]⟩ = some .sym1 ∧
    reads ⟨.sym, [0xFB]⟩ = some .sym2 ∧ reads ⟨.sym, [0xFF]⟩ = some .sym3 ∧
    reads ⟨.lsRx, [0x5A]⟩ = some (.lsRx 0x5A) ∧
    reads ⟨.cf, [0xFB, 0xDB, 0xDF, 0xDF]⟩ = some (.cf 0x52) ∧
    reads ⟨.xf, [0xDF, 0xFF, 0xDB, 0xDB, 0xFB, 0xFB, 0xDB, 0xDB]⟩ = some .term := by decide

/-- R115 with the packed forms of 95_test_vectors 3.3. -/
theorem test_decode_descriptors :
    reads ⟨.descr, [0x30, 0x42, 0x00, 0x00]⟩ = some (.ldDecimal true true 4 2) ∧
    reads ⟨.descr, [0x40, 0x23, 0x82, 0x00]⟩ = some (.lbBinary false false 2 7 1) ∧
    reads ⟨.descr, [0x60, 0x00, 0x10, 0x00]⟩ = some (.lbBinary true false 0 0 8) ∧
    reads ⟨.descr, [0x80, 0x30, 0x10, 0x00]⟩ = some (.lbParityCount false 3 0 8) ∧
    reads ⟨.descr, [0xC0, 0x00, 0x00, 0x05]⟩ = some (.lReserved 5) := by decide

/-- With 16-bit symbols a received symbol has two bytes (10_state R23, log 7), and the parameters choose
the symbols of a frame. -/
theorem test_decode_parameters :
    decode { Config.atReset with lineW := 16 } ⟨.lsRx, [0x34, 0x12]⟩ = some (.lsRx 0x1234) ∧
    decode { Config.atReset with pLo := 0, pHi := 1, fill := 0 } ⟨.cf, [0, 1, 2, 3]⟩
      = some (.cf 0xE4) ∧
    decode { Config.atReset with pLo := 0, pHi := 1, fill := 0 } ⟨.ls, [4]⟩ = none := by decide

/-- R121: `inv` on a ParityCount descriptor, a set bit that must be 0, a number without its operands
and a symbol that is none of the four are refused. -/
theorem test_decode_refuses :
    reads ⟨.descr, [0xA0, 0x30, 0x10, 0x00]⟩ = none ∧
    reads ⟨.descr, [0x00, 0x04, 0x00, 0x01]⟩ = none ∧
    reads ⟨.ho, [0x13] ++ num 2⟩ = none ∧ reads ⟨.ho, [0x02, 0x00]⟩ = none ∧
    reads ⟨.sym, [0x00]⟩ = none ∧ reads ⟨.cf, [0xDB, 0xDB, 0xDB, 0x00]⟩ = none := by decide

/-! ### Operations, one step each -/

/-- R270. -/
theorem test_reset :
    let t := after .reset ((after (.setmod 0 2) (holding 5 2 100 40 true)).withLink true)
    t.t.link = false ∧ t.recordAt 0 0 = some ⟨0, 0, 0, 0, false, false⟩ ∧
    t.stores.map Store.mod = [0, 0, 0, 0, 0, 0] ∧
    t.recordAt 0 4 = some ⟨0, 0, 0, 0, false, true⟩ := by decide

/-- R271: refused while an exchange runs. -/
theorem test_reset_late :
    refusalOf (exec .reset (after (.acq .reqq) base)) = some .resetDuringExchange := by decide

/-- P1, V-T41. -/
theorem test_xchg :
    let t := after (.xchg .pollq textIc) (sends 3 respA (base.withRxq [0xDF, 0xFB]))
    t.out = .exchange .ok text5A3C ∧ t.t.link = true ∧ t.txs = cmdIc ∧ t.t.tries = 39 ∧
    t.t.lock = .free ∧ t.t.phase = .idle ∧ t.rxq = [] := by decide

/-- R149, R250 with `RETRY_MAX` = 36: the last symbol in iteration 36 is in time, in 37 is not. -/
theorem test_xchg_retry_bound :
    (after (.xchg .reqq textIc) (sends 0 respA (baseWith { Config.atReset with retryMax := 36 }))).out
      = .exchange .ok text5A3C ∧
    (after (.xchg .reqq textIc) (sends 1 respA (baseWith { Config.atReset with retryMax := 36 }))).out
      = .exchange .timeout [] := by decide

/-- R156. -/
theorem test_linkrd :
    (after .linkrd base).out = .bit false ∧ (after .linkrd (base.withLink true)).out = .bit true := by
  decide

/-- P3 step 4. -/
theorem test_poll :
    let t := after (.poll 0 2) (waitsFor 500 (sends 0 respA (after (.setmod 0 2) base)))
    t.out = .bit true ∧ t.recordAt 0 0 = some ⟨0x5A3C, 0, 500, 0, true, false⟩ ∧
    t.recordAt 0 1 = some ⟨1, 0, 500, 0, true, false⟩ ∧
    t.recordAt 0 2 = some ⟨1, 0, 500, 0, true, false⟩ ∧
    t.recordAt 0 3 = some ⟨4, 0, 500, 0, true, false⟩ ∧
    t.recordAt 0 4 = some ⟨0, 0, 0, 0, false, true⟩ := by decide

/-- P3 steps 3, 12 and 13: not due, of the wrong length, garbled. -/
theorem test_poll_misses :
    (after (.poll 0 1) (after (.setmod 0 2) base)).status = .notDue ∧
    (after (.poll 0 2) (sends 0 respShort (after (.setmod 0 2) base))).status = .missLength ∧
    (after (.poll 0 2) (sends 0 respBad (after (.setmod 0 2) base))).status = .missGarbled := by
  decide

/-- V-D7. -/
theorem test_valueOf :
    let t := after (.valueOf 0 0) (holding 7 0 300 0 true)
    t.out = .value 7 ∧ t.recordAt 0 0 = some ⟨7, 0, 300, 0, false, false⟩ := by decide

/-- R222's example. -/
theorem test_hasPending :
    let t := after (.hasPending 0 0) (holding 7 0 300 0 true)
    t.out = .bit true ∧ (after (.hasPending 0 0) t).out = .bit false := by decide

/-- P6 step 1. -/
theorem test_setmod : (after (.setmod 2 50) base).stores.map Store.mod = [0, 0, 50, 0, 0, 0] := by
  decide

/-- V-T3 and V-T6. -/
theorem test_enc :
    (after (.enc 0x52) base).out = .symbols [0xFB, 0xDB, 0xDF, 0xDF] ∧
    (after (.enc 0x52) (baseWith { Config.atReset with pairOrder := .mspFirst })).out
      = .symbols [0xDF, 0xDF, 0xDB, 0xFB] := by decide

/-- V-T7: other positions and another filling. -/
theorem test_enc_parameters :
    (after (.enc 0xE4) (baseWith { Config.atReset with pLo := 0, pHi := 1, fill := 0 })).out
      = .symbols [0, 1, 2, 3] := by decide

/-- V-T4. -/
theorem test_dec :
    (after (.dec 0x00 0x04 0x20 0x24) base).out = .chr 0xE4 ∧
    (after (.dec 0x24 0x3C 0xFF 0x00) base).out = .chr 0x3F := by decide

/-- V-T5. -/
theorem test_decb :
    let s := after (.decb 0xDB) (after (.decb 0xFB) (after (.decb 0xDF) base))
    s.out = .optChr none ∧ s.t.rxs = 6 ∧
    (after (.decb 0xDF) s).out = .optChr (some 0x49) ∧ (after (.decb 0xDF) s).t.rxs = 0 := by decide

/-- R143's example; and not without the lock (20_memory R61). -/
theorem test_drain :
    let t := after .drain (after (.acq .pollq) (base.withRxq [0xDF, 0xFB]))
    t.rxq = [] ∧ t.t.phase = .tx ∧
    (after .drain (base.withRxq [0xDF, 0xFB])).rxq = [0xDF, 0xFB] := by decide

/-- V-T20, V-T21. -/
theorem test_txcmd :
    (after (.txcmd textIc) (toPhase .tx base)).txs = cmdIc ∧
    (after (.txcmd textIc) (toPhase .tx base)).t.phase = .rx ∧
    (after (.txcmd []) (toPhase .tx base)).txs
      = [0xDF, 0xFF, 0xDB, 0xDB, 0xFB, 0xFB, 0xDB, 0xDB] := by decide

/-- V-T45: the terminator only, after 8 iterations. -/
theorem test_rxresp :
    let t := after .rxresp (toPhase .rx
      (sends 0 [0xDF, 0xFF, 0xDB, 0xDB, 0xFB, 0xFB, 0xDB, 0xDB] base))
    t.out = .exchange .ok [0x0D, 0x0A] ∧ t.t.tries = 8 ∧ t.t.phase = .strip := by decide

/-- R27, R149, V-T50: iteration `RETRY_MAX + 1` completes one more character, and all is dropped;
after one symbol more than a character the partial character is dropped too (R26). -/
theorem test_rxresp_timeout_drops :
    let s (n : Nat) (l : List Line) := after .rxresp (toPhase .rx
      (sends 0 l (baseWith { Config.atReset with retryMax := n })))
    let t := s 3 [0xDF, 0xFB, 0xFB, 0xDF]
    let u := s 4 [0xDF, 0xFB, 0xFB, 0xDF, 0xFF]
    t.out = .exchange .timeout [] ∧ t.t.tries = 4 ∧ t.t.rxtext = [] ∧
    u.out = .exchange .timeout [] ∧ u.t.tries = 5 ∧ u.t.rxtext = [] ∧ u.t.rxacc = 0 ∧
    u.t.rxs = 0 := by decide

/-- V-T51: the other bits of a symbol are not looked at. -/
theorem test_rxresp_other_bits :
    (after .rxresp (toPhase .rx (sends 0 (respA.map fun b => b &&& 0x24) base))).out
      = .exchange .ok textRaw := by decide

/-- V-T30, V-T32, V-T34. -/
theorem test_strip :
    (after (.strip textRaw) base).out = .text text5A3C ∧
    (after (.strip [0x6F, 0x6B, 0x3A, 0x0D, 0x0A]) base).out = .text [0x6F, 0x6B, 0x3A] ∧
    (after (.strip [0x0D, 0x0A]) base).out = .text [] := by decide

/-- P1 step 1, P4 step 2. -/
theorem test_acq :
    let t := after (.acq .pollq) base
    t.t.lock = .held .pollq ∧ t.t.phase = .drain ∧ nextOf (exec (.acq .reqq) t) = some t := by decide

/-- P1 step 6; and not in the middle of an exchange (20_memory R77). -/
theorem test_rel :
    let t := after .rel (toPhase .strip base)
    t.t.lock = .free ∧ t.t.phase = .idle ∧
    (after .rel (toPhase .rx base)).t.lock = .held .pollq := by decide

/-- V-F2, V-F5, V-F7. -/
theorem test_hexw :
    (after (.hexw text5A3C 1 2) base).out = .word (some 163) ∧
    (after (.hexw [0x66, 0x66] 0 2) base).out = .word (some 255) ∧
    (after (.hexw [0x35, 0x47, 0x33, 0x43] 0 4) base).out = .word none := by decide

/-- V-F10. -/
theorem test_fdec : (after (.fdec 0x5A3C) base).out = .value 23100 := by decide

/-- V-F11, V-F13, V-F14, V-F15. -/
theorem test_fbin :
    (after (.fbin 0x5A3C 0 1 true) base).out = .value 1 ∧
    (after (.fbin 0x5A3C 2 4 true) base).out = .value 0 ∧
    (after (.fbin 0x5A3C 4 8 false) base).out = .value 163 ∧
    (after (.fbin 0x5A3C 0 16 true) base).out = .value 42435 := by decide

/-- V-F16, V-F17, V-F18. -/
theorem test_fpar :
    (after (.fpar 0x5A3C 8 8) base).out = .value 4 ∧
    (after (.fpar 0x5A3C 15 1) base).out = .value 0 ∧
    (after (.fpar 0xFFFFFFFF 0 32) base).out = .value 32 := by decide

/-- V-F30 and V-F32. -/
theorem test_decode :
    (after (.decode 0 textF30) (baseWith configLT)).out = .fields (some [some 511, none, none,
      some 165, some 1, some 4, none, some 0]) ∧
    (after (.decode 0 textF32) (baseWith configLT)).out = .fields none := by decide

/-- V-D1, V-D2, V-D3. -/
theorem test_upd :
    (after (.upd 0 0 7 300) (holding 5 2 100 40 false)).recordAt 0 0
      = some ⟨7, 5, 300, 100, true, false⟩ ∧
    (after (.upd 0 0 7 1300) (holding 7 5 300 100 true)).out = .bit false ∧
    (after (.upd 0 0 7 1301) (holding 7 5 300 100 true)).recordAt 0 0
      = some ⟨7, 7, 1301, 300, true, false⟩ := by decide

/-- V-D4: the age across the wrap. -/
theorem test_upd_wrap :
    (after (.upd 0 0 7 0x2E8) (holding 7 0 0xFFFFFF00 0 false)).out = .bit false ∧
    (after (.upd 0 0 7 0x2E9) (holding 7 0 0xFFFFFF00 0 false)).recordAt 0 0
      = some ⟨7, 7, 0x2E9, 0xFFFFFF00, true, false⟩ := by decide

/-- R91, R92. -/
theorem test_line_forms :
    (after (.ls true false) base).out = .symbols [0xFB] ∧ (after .sym0 base).out = .symbols [0xDB] ∧
    (after .sym1 base).out = .symbols [0xDF] ∧ (after .sym2 base).out = .symbols [0xFB] ∧
    (after .sym3 base).out = .symbols [0xFF] := by decide

/-- R93 with V-T3; R94. -/
theorem test_frames :
    (after (.cf 0x49) base).out = .symbols [0xDF, 0xFB, 0xDB, 0xDF] ∧
    (after .term base).out = .symbols [0xDF, 0xFF, 0xDB, 0xDB, 0xFB, 0xFB, 0xDB, 0xDB] := by decide

/-- 10_state R23. -/
theorem test_lsRx : (after (.lsRx 0x5A) (base.withRxq [1])).rxq = [1, 0x5A] := by decide

/-- The descriptors of 95_test_vectors 3.3 as records. -/
theorem test_descriptors :
    (after (.ldDecimal true true 4 2) base).out = .descr (.decimal 4 2 true true) ∧
    (after (.lbBinary true false 0 0 8) base).out = .descr (.binary 0 0 8 true false) ∧
    (after (.lbParityCount false 3 0 8) base).out = .descr (.parityCount 3 0 8 false) ∧
    refusalOf (exec (.lReserved 5) base) = some .reservedDescriptor := by decide

/-- A table word placed after reset runs as the first operation. -/
theorem test_withFetchWord :
    nextOf (step (base.withFetchWord 8 0x02)) = some (base.withOut (.bit false)) ∧
    nextOf (step (base.withFetchWord 32 0xFBDBDFDF)) =
      some (base.withOut (.symbols [0xFB, 0xDB, 0xDF, 0xDF])) ∧
    (nextOf (step (base.withFetchWord 8 0x5A))).map State.rxq = some [0x5A] ∧
    (nextOf (step (base.withFetchWord 8 0x83))).map (·.t.phase) = some .tx ∧
    (nextOf (step (base.withFetchWord 8 0x84))).map State.txs
      = some [0xDF, 0xFF, 0xDB, 0xDB, 0xFB, 0xFB, 0xDB, 0xDB] ∧
    (nextOf (step (base.withFetchWord 8 0x88))).map (·.t.lock) = some .free := by decide

/-- P1 and P4 by the sequencer's own steps: ACQ, DRAIN, TXCMD, RXRESP and the end, for the exchange
that REQQ waits for; POLLQ's SETMOD runs between two parts and its exchange waits. -/
theorem test_sequencer :
    let s := ((sends 0 respA base).issueNext .reqq (made (.xchg .reqq textIc))).withEnv
      { (sends 0 respA base).env with
        reqPort := [made (.xchg .reqq textIc)]
        pollPort := [made (.setmod 0 2), made (.xchg .pollq textIc)]
        sched := [.sequencer .reqq, .sequencer .pollq, .pollq, .sequencer .reqq, .pollq,
          .sequencer .reqq, .sequencer .reqq] }
    let s2 := stepped (stepped s)
    let s5 := stepped (stepped (stepped s2))
    let s7 := stepped (stepped s5)
    (stepped s).t.lock = .held .reqq ∧ s2.t.phase = .tx ∧ s5.stores.map Store.mod = [2, 0, 0, 0, 0, 0] ∧
    s5.t.phase = .rx ∧ s5.env.pollPort = [made (.xchg .pollq textIc)] ∧
    s7.out = .exchange .ok text5A3C ∧ s7.t.lock = .free ∧ s7.env.reqPort = [] ∧ s7.txs = cmdIc := by
  decide

/-- 20_memory R82: POLLQ, which a `LOCK_GRANT` of REQQ alone passes over, waits while REQQ does. -/
theorem test_lockGrant :
    let s := (baseWith { Config.atReset with lockGrant := [.reqq] }).issueNext .pollq
      (made (.xchg .pollq textIc))
    let t := s.withEnv { s.env with reqPort := [made (.xchg .reqq textIc)] }
    s.mayTake .pollq = true ∧ t.mayTake .pollq = false ∧ t.mayTake .reqq = true := by decide

/-! ### Witnesses: for every statement with hypotheses, a state and operands that meet them -/

theorem witness_reset_inv : State.reset.Inv where
  cfg := by decide
  framer := ⟨by decide, by decide, by decide, .inl rfl, by decide, by decide, by decide,
    (fun e => by cases e), fun _ => rfl⟩
  rxq := by intro b hb; cases hb
  rxqCap := trivial
  txs := by intro b hb; cases hb
  time := by decide
  stores := by
    show List.Forall₂ _ Config.atReset.stores (Config.atReset.stores.map Store.reset)
    rw [List.forall₂_map_right_iff, List.forall₂_same]
    intro sc _
    refine ⟨Nat.two_pow_pos _, ?_⟩
    show List.Forall₂ _ sc.layout (sc.layout.map FieldRec.reset)
    rw [List.forall₂_map_right_iff, List.forall₂_same]
    exact fun d _ => FieldRec.Sound.reset _ d

/-- Store 0 polls at even ticks. -/
def ready : State := base.withStores (base.stores.modify 0 fun st => { st with mod := 2 })

theorem ready_inv : ready.Inv :=
  ⟨witness_reset_inv.cfg, witness_reset_inv.framer, witness_reset_inv.rxq, witness_reset_inv.rxqCap,
    witness_reset_inv.txs, witness_reset_inv.time,
    witness_reset_inv.modifyStore 0 (fun st => { st with mod := 2 }) fun _ _ _ _ h =>
      ⟨(by decide : 2 < 2 ^ Config.atReset.modW), h.fields⟩⟩

/-- `ready`, the peer answering `RESP_A` and the time moving on by `d`. -/
def answered (d : Nat) (s : State) : State := waitsFor d (sends 0 respA s)

theorem answered_inv {s : State} (h : s.Inv) (d : Nat) : (answered d s).Inv :=
  State.Inv.withEnv (State.Inv.withEnv h _) _

/-- What "5A3C" decodes to in the layout `LP` (P3 step 4). -/
def newA : List (Option Nat) := [some 0x5A3C, some 1, some 1, some 4, none]

theorem accepts {s : State} {k : Nat} {tick : Int} {c : StoreConfig} {text : Text}
    {new : List (Option Nat)} (hc : s.cfg.stores[k]? = some c) (hd : s.pollDue k tick = true)
    (hl : s.t.lock = .free) (hx : runs (.xchg .pollq c.cmd) s = true)
    (ho : (after (.xchg .pollq c.cmd) s).out = .exchange .ok text) (hlen : text.length = c.respLen)
    (hdec : decodeResponse c text = some new) (hp : runs (.poll k tick) s = true) :
    PollAccepts s k tick c text new (after (.poll k tick) s) :=
  ⟨hc, hd, hl, ⟨_, exec_after hx, ho⟩, hlen, hdec, exec_after hp⟩

theorem answered_accepts :
    PollAccepts (answered 500 ready) 0 2 Config.exampleStore text5A3C newA
      (after (.poll 0 2) (answered 500 ready)) :=
  accepts (by decide) (by decide) (by decide) (by decide) (by decide) (by decide) (by decide)
    (by decide)

theorem witness_DecodeUndoesEncode :
    let c := { Config.atReset with lineW := 16 }
    c.wf = true ∧ (Instr.poll (2 ^ 64 - 1) (-(2 ^ 63))).encodable c ∧
    (Instr.lsRx 65535).encodable c ∧ (Instr.ldDecimal true true 255 15).encodable c ∧
    (Instr.lbBinary true true 255 31 63).encodable c ∧
    (Instr.lReserved (2 ^ 30 - 1)).encodable c :=
  ⟨by decide, ⟨by decide, by decide, by decide⟩, by decide, ⟨by decide, by decide⟩,
    ⟨by decide, by decide, by decide⟩, by decide⟩

theorem witness_UnassignedNumbersRefused :
    (asks .pollq ⟨.ho, [0xA1]⟩ base).cfg.wf = true ∧
    (asks .pollq ⟨.ho, [0xA1]⟩ base).NextRequest ⟨.ho, [0xA1]⟩ [] ∧
    (0xA1 : Byte).toNat ∉ [0x00, 0x01, 0x02, 0x10, 0x11, 0x12, 0x13, 0x80, 0x81, 0x82, 0x83, 0x84,
      0x85, 0x86, 0x87, 0x88, 0x90, 0x91, 0x92, 0x93, 0x94, 0xA0] :=
  ⟨by decide, ⟨rfl, rfl⟩, by decide⟩

/-- One operation that runs; and two that wait, for the lock and for their phase. -/
theorem witness_StepRunsTheDecodedOperation :
    (let s := asks .pollq (made .linkrd) base;
      s.cfg.wf = true ∧ s.NextRequest (made .linkrd) [] ∧ reads (made .linkrd) = some .linkrd ∧
      mayIssue s.turn.1 .linkrd = true ∧ Instr.wf s.cfg .linkrd = true ∧
      waits s s.turn.1 .linkrd = false) ∧
    (let s := asks .reqq (made (.xchg .reqq textIc)) (after (.acq .pollq) base);
      s.NextRequest (made (.xchg .reqq textIc)) [] ∧
      reads (made (.xchg .reqq textIc)) = some (.xchg .reqq textIc) ∧
      mayIssue s.turn.1 (.xchg .reqq textIc) = true ∧
      Instr.wf s.cfg (.xchg .reqq textIc) = true ∧ waits s s.turn.1 (.xchg .reqq textIc) = true) ∧
    (let s := asks (.sequencer .pollq) (made .rel) (toPhase .rx base);
      s.NextRequest (made .rel) [] ∧ reads (made .rel) = some .rel ∧
      mayIssue s.turn.1 .rel = true ∧ waits s s.turn.1 .rel = true) :=
  ⟨⟨by decide, ⟨rfl, rfl⟩, by decide, by decide, by decide, by decide⟩,
    ⟨⟨rfl, rfl⟩, by decide, by decide, by decide, by decide⟩,
    ⟨rfl, rfl⟩, by decide, by decide, by decide⟩

theorem witness_QuietBlockDoesNothing :
    (base.cfg.wf = true ∧ base.env.pollPort = [] ∧ base.env.reqPort = [] ∧
      base.env.peerPort = [] ∧ base.env.seqPort = []) ∧
    (baseWith { Config.atReset with pHi := 8 }).cfg.wf = false := by decide

/-- The first store index and the first field index out of range. -/
theorem witness_OutOfRangeIndicesRefused :
    ((asks .pollq (made (.poll 6 0)) base).NextRequest (made (.poll 6 0)) [] ∧
      reads (made (.poll 6 0)) = some (.poll 6 0) ∧
      (asks .pollq (made (.poll 6 0)) base).turn.1 = .pollq ∧ base.cfg.stores.length ≤ 6) ∧
    (asks .pollq (made (.valueOf 0 5)) base).NextRequest (made (.valueOf 0 5)) [] ∧
    reads (made (.valueOf 0 5)) = some (.valueOf 0 5) ∧
    ∀ c, base.cfg.stores[0]? = some c → c.layout.length ≤ 5 :=
  ⟨⟨⟨rfl, rfl⟩, by decide, rfl, by decide⟩, ⟨rfl, rfl⟩, by decide, fun c h => by cases h; decide⟩

theorem witness_RequestTaskMayOnlyExchange :
    base.cfg.wf = true ∧ (asks .reqq (made (.poll 0 0)) base).turn.1 = .reqq ∧
    (asks .reqq (made (.poll 0 0)) base).NextRequest (made (.poll 0 0)) [] ∧
    reads (made (.poll 0 0)) = some (.poll 0 0) ∧
    ∀ cmd, Instr.poll 0 0 ≠ .xchg .reqq cmd :=
  ⟨by decide, rfl, ⟨rfl, rfl⟩, by decide, fun _ h => by cases h⟩

theorem witness_WellFormedRequestsComplete :
    (asks .pollq (made (.valueOf 5 4)) base).Inv ∧
    (asks .pollq (made (.valueOf 5 4)) base).NextRequest (made (.valueOf 5 4)) [] ∧
    reads (made (.valueOf 5 4)) = some (.valueOf 5 4) ∧ mayIssue .pollq (.valueOf 5 4) = true ∧
    Instr.wf base.cfg (.valueOf 5 4) = true :=
  ⟨State.Inv.withEnv witness_reset_inv _, ⟨rfl, rfl⟩, by decide, by decide, by decide⟩

theorem witness_ResetPutsEveryElementAtItsResetValue : base.t.lock = .free := rfl

theorem witness_ResetStateIsSound :
    configLT.wf = true ∧ 2 ^ 32 - 1 < 2 ^ configLT.tsW := by decide

/-- Also for StepKeepsTheConfiguration. -/
theorem witness_StepKeepsTheInvariant :
    ∃ s s' : State, s.Inv ∧ step s = .next s' ∧ s' ≠ s :=
  ⟨asks .pollq (made (.setmod 2 50)) base, after (.setmod 2 50) base,
    State.Inv.withEnv witness_reset_inv _, eq_next (by decide), by decide⟩

theorem base_values : (answered 500 ready).ValuesInRange := by
  show List.Forall₂ _ Config.atReset.stores ((Config.atReset.stores.map Store.reset).modify 0
    fun st => { st with mod := 2 })
  apply forall₂_of_getElem? (by decide)
  intro i c st hc hst
  rw [List.getElem?_modify, List.getElem?_map, hc] at hst
  have hf : st.fields = c.layout.map FieldRec.reset := by
    cases hst
    split <;> rfl
  rw [hf, List.forall₂_map_right_iff, List.forall₂_same]
  intro d _
  cases d with
  | decimal => exact Nat.two_pow_pos _
  | binary => exact Nat.two_pow_pos _
  | parityCount => exact Nat.succ_pos _

/-- A step that writes five records. -/
theorem witness_StepKeepsValuesInRange :
    let s := asks .pollq (made (.poll 0 2)) (answered 500 ready)
    s.Inv ∧ s.ValuesInRange ∧ step s = .next (stepped s) ∧
    (stepped s).recordAt 0 0 = some ⟨0x5A3C, 0, 500, 0, true, false⟩ :=
  ⟨State.Inv.withEnv (answered_inv ready_inv 500) _, base_values, step_stepped (by decide),
    by decide⟩

theorem witness_HostOperationsLeaveTheBlockAtRest :
    Instr.isHost (.xchg .reqq textIc) = true ∧ (answered 0 base).Rested ∧
    exec (.xchg .reqq textIc) (answered 0 base)
      = .next (after (.xchg .reqq textIc) (answered 0 base)) :=
  ⟨rfl, ⟨rfl, rfl⟩, exec_after (by decide)⟩

/-- Also for DecUndoesEnc, LineSymbolFormIsItsPairAndFill and StripRemovesTerminatorAndPrefix. -/
theorem witness_EncSplitsACharacterIntoPairs :
    base.cfg.wf = true ∧ base.cfg.pairOrder = .lspFirst ∧
    (baseWith { Config.atReset with pairOrder := .mspFirst, pLo := 7, pHi := 0 }).cfg.wf = true := by
  decide

/-- Every offset the decoder can be at. -/
theorem witness_DecbTakesInOnePair :
    base.t.rxs = 0 ∧ (after (.decb 1) base).t.rxs = 2 ∧
    (after (.decb 1) (after (.decb 1) base)).t.rxs = 4 ∧
    (after (.decb 1) (after (.decb 1) (after (.decb 1) base))).t.rxs = 6 := by decide

theorem witness_FourDecbMakeOneDec : base.t.rxs = 0 := rfl

theorem witness_LineFormsAreTheirSymbols :
    base.cfg.wf = true ∧ base.cfg.lineW = 8 ∧ base.cfg.pLo = 2 ∧ base.cfg.pHi = 5 ∧ base.cfg.fill = 0xFF ∧
    base.cfg.pairOrder = .lspFirst ∧ base.cfg.term = [0x0D, 0x0A] := by decide

/-- Unbounded, with room, full with each policy. -/
theorem witness_ReceivedSymbolIsQueued :
    (255 < 2 ^ base.cfg.lineW ∧ base.cfg.rxqCap = none) ∧
    ((baseWith { Config.atReset with rxqCap := some 1 }).cfg.rxqCap = some 1 ∧
      (baseWith { Config.atReset with rxqCap := some 1 }).rxq.length < 1) ∧
    (let s := (baseWith { Config.atReset with rxqCap := some 1 }).withRxq [7];
      1 ≤ s.rxq.length ∧ s.cfg.rxqFull = .dropNewest) ∧
    (let s := (baseWith { Config.atReset with rxqCap := some 1, rxqFull := .dropOldest }).withRxq [7];
      s.rxq.length = 1 ∧ s.cfg.rxqFull = .dropOldest) := by decide

theorem witness_DrainEmptiesTheReceiveQueue :
    (after (.acq .reqq) base).t.lock ≠ .free ∧ (after (.acq .reqq) base).t.phase = .drain := by
  decide

theorem witness_TxcmdSendsTheCommandThenTheTerminator :
    let s := after .drain (after (.acq .reqq) base)
    s.cfg.wf = true ∧ s.t.lock ≠ .free ∧ s.t.phase = .tx := by decide

/-- FREE; taken, a due POLL waiting; taken, at the end; the owner's own next request; and a requester
that the grant passes over. -/
theorem witness_LockIsTakenHeldAndFreed :
    (base.t.lock = .free ∧ (after (.acq .reqq) ready).t.lock ≠ .free ∧
      (after (.acq .reqq) ready).cfg.stores[0]? = some Config.exampleStore ∧
      ((after (.acq .reqq) ready).stores[0]?).map Store.mod = some 2 ∧ (2 : Int) ∣ -4 ∧
      (toPhase .strip base).t.lock ≠ .free ∧ (toPhase .strip base).t.phase = .strip) ∧
    (let s := asks .pollq (made .linkrd) (toPhase .rx base);
      s.cfg.wf = true ∧ s.turn.1 = Requester.agent .pollq ∧ s.NextRequest (made .linkrd) [] ∧
      reads (made .linkrd) = some .linkrd ∧ mayIssue s.turn.1 .linkrd = true ∧
      Instr.wf s.cfg .linkrd = true ∧ s.t.lock = .held .pollq) ∧
    let s := asks .pollq (made (.xchg .pollq textIc)) (asks .reqq (made (.xchg .reqq textIc))
      (baseWith { Config.atReset with lockGrant := [.reqq] }))
    s.cfg.wf = true ∧ s.turn.1 = Requester.agent .pollq ∧
    s.NextRequest (made (.xchg .pollq textIc)) [] ∧
    decode s.cfg (made (.xchg .pollq textIc)) = some (.xchg .pollq textIc) ∧
    mayIssue s.turn.1 (.xchg .pollq textIc) = true ∧ Instr.wf s.cfg (.xchg .pollq textIc) = true ∧
    s.runsExchange (.xchg .pollq textIc) = true ∧ (s.asking .reqq).isSome = true ∧
    Requester.pollq ∉ s.cfg.lockGrant :=
  ⟨by decide, ⟨by decide, rfl, ⟨rfl, rfl⟩, by decide, by decide, by decide, rfl⟩, by decide, rfl,
    ⟨rfl, rfl⟩, by decide, by decide, by decide, by decide, by decide, by decide⟩

/-- A move of each agent with the lock taken, and of the sequencer and a requester with it FREE. -/
theorem witness_OnlyAnExchangeReachesTheLine :
    (let s := asks .pollq (made (.setmod 0 2)) (after (.acq .reqq) base);
      step s = .next (stepped s) ∧ s.turn.1 = Requester.agent .pollq ∧ s.t.lock ≠ .free) ∧
    (let s := asks .peer (made (.lsRx 0x5A)) (after (.acq .reqq) base);
      step s = .next (stepped s) ∧ s.turn.1 = .peer) ∧
    (let s := asks (.sequencer .reqq) (made (.acq .reqq)) base;
      step s = .next (stepped s) ∧ s.turn.1 = .sequencer .reqq ∧ s.t.lock = .free) ∧
    (let s := asks .pollq (made (.poll 0 1)) ready;
      step s = .next (stepped s) ∧ s.turn.1 = Requester.agent .pollq ∧ s.t.lock = .free ∧
      s.NextRequest (made (.poll 0 1)) [] ∧ reads (made (.poll 0 1)) = some (.poll 0 1) ∧
      s.runsExchange (.poll 0 1) = false ∧ Instr.poll 0 1 ≠ .reset) ∧
    base.t.lock = .free ∧ (toPhase .rx base).t.phase ≠ .drain ∧
    (toPhase .rx base).t.phase ≠ .tx ∧ (toPhase .tx base).t.phase ≠ .rx ∧
    ((toPhase .tx base).t.phase ≠ .strip ∧ (toPhase .tx base).t.phase ≠ .idle) :=
  ⟨⟨step_stepped (by decide), rfl, by decide⟩, ⟨step_stepped (by decide), rfl⟩,
    ⟨step_stepped (by decide), rfl, rfl⟩,
    ⟨step_stepped (by decide), rfl, rfl, ⟨rfl, rfl⟩, by decide, by decide, by decide⟩, by decide⟩

/-- Also for RxrespIsTheFunctionOfItsObservations. -/
theorem witness_RxrespEndsAtTheTerminatorOrTheRetryBound :
    let s := after (.txcmd textIc) (after .drain (after (.acq .reqq) base))
    s.t.lock ≠ .free ∧ s.t.phase = .rx ∧ s.cfg.rxqCap = none := by decide

/-- An XCHG of REQQ, and a POLL that is due. -/
theorem witness_SequencerRunsAnExchangeInItsParts :
    (let e := { (answered 0 base).env with
        reqPort := [made (.xchg .reqq textIc)], sched := List.replicate 5 (.sequencer .reqq) };
      let s := (answered 0 base).withEnv e;
      s.cfg.wf = true ∧ s.asking .reqq = some (.xchg .reqq textIc) ∧ s.mayTake .reqq = true ∧
      s.env.seqPort = [] ∧ s.env.sched = List.replicate 5 (.sequencer .reqq) ++ []) ∧
    let e := { (answered 0 ready).env with
      pollPort := [made (.poll 0 2)], sched := List.replicate 5 (.sequencer .pollq) }
    let s := (answered 0 ready).withEnv e
    s.cfg.wf = true ∧ s.asking .pollq = some (.poll 0 2) ∧ s.mayTake .pollq = true ∧
    s.env.seqPort = [] ∧ s.env.sched = List.replicate 5 (.sequencer .pollq) ++ [] := by decide

/-- Also for XchgEndsWithItsStatusInTheLinkFlag; one exchange of each status. -/
theorem witness_XchgIsItsPartsInOrder :
    (answered 0 base).t.lock = .free ∧
    (after (.xchg .pollq textIc) (answered 0 base)).status = .ok ∧
    (let s := sends 37 [] (baseWith { Config.atReset with retryMax := 36 });
      s.t.lock = .free ∧ (after (.xchg .pollq textIc) s).status = .timeout) := by decide

/-- `RETRY_MAX` = 36 and the 36 symbols of `RESP_A`: in time to the last iteration. -/
theorem witness_XchgDeliversTheResponse :
    let s := sends 0 respA (baseWith { Config.atReset with retryMax := 36 })
    let body : Text := [0x69, 0x63, 0x3A] ++ text5A3C
    s.cfg.wf = true ∧ s.cfg.rxqCap = none ∧ s.t.lock = .free ∧
    (∀ n < (body ++ s.cfg.term).length,
      endsWith ((body ++ s.cfg.term).take n) s.cfg.term = false) ∧
    s.env.arrivals = List.replicate 0 [] ++
      ((body ++ s.cfg.term).flatMap (encodeChr s.cfg)).map (fun b => [b]) ++ [] ∧
    0 + 4 * (body.length + 2) ≤ s.cfg.retryMax := by decide

theorem witness_SilentPeerTimesOut :
    let s := sends 37 [] (baseWith { Config.atReset with retryMax := 36 })
    s.cfg.wf = true ∧ s.t.lock = .free ∧
    s.env.arrivals = List.replicate (s.cfg.retryMax + 1) [] ++ [] := by decide

/-- Widths 1 and 8 at the end of a text, and a chunk with a character that is no digit. -/
theorem witness_HexwReadsDigitsMostSignificantFirst :
    (3 + 1 ≤ text5A3C.length ∧ (text5A3C[3 + 0]?).bind hexDigit = some 12) ∧
    (let t : Text := List.replicate 8 0x46;
      0 + 8 ≤ t.length ∧ ∀ i < 8, (t[0 + i]?).bind hexDigit = (List.replicate 8 15)[i]?) ∧
    (let t : Text := [0x35, 0x47];
      0 + 2 ≤ t.length ∧ ∃ i < 2, (t[0 + i]?).bind hexDigit = none) := by decide

/-- V-F30 and V-F32: a text that decodes and one that is garbled in a chunk that is parsed though
its field is ignored. -/
theorem witness_DecodeGivesEveryTrackedFieldItsValue :
    (baseWith configLT).cfg.wf = true ∧ (baseWith configLT).cfg.stores[0]? = some storeLT ∧
    textF30.length = storeLT.respLen ∧
    (∀ d ∈ storeLT.layout, match d with
      | .decimal off w _ false => (hexWord textF30 off w).isSome = true
      | _ => True) ∧
    textF32.length = storeLT.respLen ∧ Descr.decimal 6 4 true false ∈ storeLT.layout ∧
    hexWord textF32 6 4 = none :=
  ⟨by decide, by decide, by decide, by
    intro d hd
    fin_cases hd <;> trivial,
    by decide, by decide, by decide⟩

theorem witness_BitAndDecimalViewsAgree :
    base.cfg.wf = true ∧ base.cfg.stores[0]? = some Config.exampleStore ∧
    text5A3C.length = Config.exampleStore.respLen ∧
    exec (.decode 0 text5A3C) base = .next (base.withOut (.fields (some newA))) ∧
    Config.exampleStore.layout[1]? = some (.binary 0 2 1 false false) ∧
    Config.exampleStore.layout[0]? = some (.decimal 0 4 false false) :=
  ⟨by decide, by decide, by decide, eq_next (by decide), by decide, by decide⟩

/-- V-D1 to V-D3: a change, an age equal to the expiry, an age above it; also for VALUE_OF and
HAS_PENDING. -/
theorem witness_UpdMarksOnChangeOrExpiry :
    (holding 5 2 100 40 false).cfg.stores[0]? = some Config.exampleStore ∧
    (holding 5 2 100 40 false).recordAt 0 0 = some ⟨5, 2, 100, 40, false, false⟩ ∧ 7 ≠ 5 ∧
    modularAge base.cfg ⟨7, 5, 300, 100, true, false⟩ 1300 = 1000 ∧
    modularAge base.cfg ⟨7, 5, 300, 100, true, false⟩ 1301 = 1001 := by decide

theorem witness_UpdPassesIgnoredFieldsOver :
    base.cfg.stores[0]? = some Config.exampleStore ∧
    base.recordAt 0 4 = some ⟨0, 0, 0, 0, false, true⟩ := by decide

theorem witness_FieldOperationsTouchOneRecord :
    exec (.upd 0 0 7 300) (holding 5 2 100 40 false)
      = .next (after (.upd 0 0 7 300) (holding 5 2 100 40 false)) ∧
    exec (.valueOf 5 3) base = .next (after (.valueOf 5 3) base) ∧
    exec (.hasPending 0 4) base = .next (after (.hasPending 0 4) base) :=
  ⟨exec_after (by decide), exec_after (by decide), exec_after (by decide)⟩

theorem witness_SetmodWritesTheModulus : ∃ st, base.stores[5]? = some st :=
  ⟨Store.reset Config.exampleStore, by decide⟩

/-- A disabled store and a tick that the modulus does not divide. -/
theorem witness_PollNotDueDoesNothing :
    (base.cfg.stores[0]? = some Config.exampleStore ∧
      base.stores[0]? = some (Store.reset Config.exampleStore) ∧
      ¬ ((Store.reset Config.exampleStore).mod ≠ 0 ∧ ∃ n : Int, 0 = n * (0 : Nat))) ∧
    (ready.stores[0]?).map Store.mod = some 2 ∧
      ¬ ((2 : Nat) ≠ 0 ∧ ∃ n : Int, -1 = n * (2 : Nat)) :=
  ⟨⟨by decide, by decide, fun h => h.1 rfl⟩, by decide, fun ⟨_, n, h⟩ => by omega⟩

/-- The four ends of a due POLL. -/
theorem witness_DuePollExchangesOnceAndChecksInOrder :
    ready.cfg.stores[0]? = some Config.exampleStore ∧ ready.pollDue 0 2 = true ∧
    ready.t.lock = .free ∧
    (after (.poll 0 2) (answered 500 ready)).status = .ok ∧
    (after (.poll 0 2) (sends 0 respShort ready)).status = .missLength ∧
    (after (.poll 0 2) (sends 0 respBad ready)).status = .missGarbled := by decide

/-- An ignored field, a field that is marked, and (at an age equal to the expiry) one that is not. -/
theorem witness_AcceptedPollUpdatesEveryTrackedField :
    (answered 500 ready).Inv ∧
    PollAccepts (answered 500 ready) 0 2 Config.exampleStore text5A3C newA
      (after (.poll 0 2) (answered 500 ready)) ∧
    (answered 500 ready).recordAt 0 0 = some ⟨0, 0, 0, 0, false, false⟩ ∧
    (answered 500 ready).recordAt 0 4 = some ⟨0, 0, 0, 0, false, true⟩ ∧
    modularAge base.cfg ⟨0, 0, 0, 0, false, false⟩ 1000 = 1000 :=
  ⟨answered_inv ready_inv 500, answered_accepts, by decide, by decide, by decide⟩

/-- A listed amount, and none. -/
theorem witness_AcceptedPollReadsTheTimeOnce :
    PollAccepts (answered 500 ready) 0 2 Config.exampleStore text5A3C newA
      (after (.poll 0 2) (answered 500 ready)) ∧
    (answered 500 ready).env.clock = 500 :: [] ∧
    PollAccepts (sends 0 respA ready) 0 2 Config.exampleStore text5A3C newA
      (after (.poll 0 2) (sends 0 respA ready)) ∧
    (sends 0 respA ready).env.clock = [] :=
  ⟨answered_accepts, rfl,
    accepts (by decide) (by decide) (by decide) (by decide) (by decide) (by decide) (by decide)
      (by decide), rfl⟩

/-- NOT_DUE, MISS_LENGTH, MISS_GARBLED, TIMEOUT. -/
theorem witness_AbandonedPollLeavesTheStores :
    (runs (.poll 0 1) ready = true ∧ (after (.poll 0 1) ready).status = .notDue) ∧
    (runs (.poll 0 2) (sends 0 respShort ready) = true ∧
      (after (.poll 0 2) (sends 0 respShort ready)).status = .missLength) ∧
    (runs (.poll 0 2) (sends 0 respBad ready) = true ∧
      (after (.poll 0 2) (sends 0 respBad ready)).status = .missGarbled) ∧
    (let s := (sends 37 [] (baseWith { Config.atReset with retryMax := 36 })).withStores ready.stores;
      runs (.poll 0 2) s = true ∧ (after (.poll 0 2) s).status = .timeout) := by decide

/-- P3 steps 4 and 9: the same text twice, 400 counts apart, one flag read in between. -/
theorem witness_DebounceLaw :
    let s1 := answered 500 ready
    let t1 := after (.poll 0 2) s1
    let s2 := answered 400 (after (.hasPending 0 0) t1)
    PollAccepts s1 0 2 Config.exampleStore text5A3C newA t1 ∧
    PollAccepts s2 0 4 Config.exampleStore text5A3C newA (after (.poll 0 4) s2) ∧
    (s2.stores[0]?).map (fun st => st.fields.map FieldRec.cleared)
      = (t1.stores[0]?).map (fun st => st.fields.map FieldRec.cleared) ∧
    (∀ r ∈ (s2.stores.getD 0 ⟨0, []⟩).fields, r.ign = false →
      modularAge s2.cfg r (after (.poll 0 4) s2).time ≤ (Config.exampleStore.expiry : Int)) :=
  ⟨answered_accepts,
    accepts (by decide) (by decide) (by decide) (by decide) (by decide) (by decide) (by decide)
      (by decide), by decide, by decide⟩

/-- V-D3: the value is held, and the age is 1001. -/
theorem witness_HeartbeatLaw :
    let s := answered 1301 (ready.writeField 0 0 ⟨0x5A3C, 5, 300, 100, true, false⟩)
    let t := after (.poll 0 2) s
    PollAccepts s 0 2 Config.exampleStore text5A3C newA t ∧
    s.recordAt 0 0 = some ⟨0x5A3C, 5, 300, 100, true, false⟩ ∧ newA[0]? = some (some 0x5A3C) ∧
    (Config.exampleStore.expiry : Int)
      < modularAge s.cfg ⟨0x5A3C, 5, 300, 100, true, false⟩ t.time :=
  ⟨accepts (by decide) (by decide) (by decide) (by decide) (by decide) (by decide) (by decide)
    (by decide), by decide, by decide, by decide⟩

theorem witness_ReservedDescriptorAndLateResetAreRefused :
    (after (.acq .reqq) base).t.lock ≠ .free := by decide

theorem witness_PureOperationsOnlyHandBackAResult :
    exec (.decode 0 text5A3C) base = .next (after (.decode 0 text5A3C) base) ∧
    exec (.enc 0x52) base = .next (after (.enc 0x52) base) :=
  ⟨exec_after (by decide), exec_after (by decide)⟩

theorem witness_FramerOperationsLeaveTheStores :
    exec (.xchg .reqq textIc) (answered 0 base)
      = .next (after (.xchg .reqq textIc) (answered 0 base)) ∧
    exec .rxresp (toPhase .rx (answered 0 base))
      = .next (after .rxresp (toPhase .rx (answered 0 base))) ∧
    exec (.lsRx 0x5A) base = .next (after (.lsRx 0x5A) base) :=
  ⟨exec_after (by decide), exec_after (by decide), exec_after (by decide)⟩

end Sys2Proof.Tests
end

/-! 00_scope sections 5 and 6: a step runs what its request decodes to (R15, R17), and the sequencer's
own steps run an exchange as its requester's one step does (R17a, 20_memory R72). -/

namespace Sys2Proof.Machine

/-- Settles O4: with no check failed, a step runs the next request or lets it wait. -/
theorem stepRunsTheDecodedOperation : Obligations.StepRunsTheDecodedOperation := by
  intro s r rest i hw hn hd hm hi
  have hf : i.failedCheck s.cfg = none := Instr.failedCheck_eq_none.mpr hi
  rw [step_of_nextRequest hw hn]
  simp only [hd, hm, hf, Bool.not_true, Bool.false_eq_true, if_false]

/-! ### An exchange under another account of turns

Every state of an exchange that the sequencer runs is a state of the one-step exchange, with the
ports of the state it began in and what is left of the script of turns. -/

/-- An environment with another script of turns. -/
def Env.withSched (e : Env) (l : List Agent) : Env := { e with sched := l }

@[simp] theorem State.rebook_t (s : State) (b : Env) : (s.rebook b).t = s.t := rfl

theorem State.mayTake_lock {s : State} {q : Requester} (h : s.mayTake q = true) :
    s.t.lock = .free := by
  simp only [State.mayTake, Bool.and_eq_true, beq_iff_eq] at h
  exact h.1

theorem State.mayTake_turn (s : State) (q : Requester) : s.turn.2.mayTake q = s.mayTake q := by
  simp only [State.mayTake, State.turn_t, State.turn_cfg, State.asking_turn]

/-- A requester with an exchange at its port makes the block not quiet. -/
theorem State.asking_not_quiet {s : State} {q : Requester} {i : Instr} (h : s.asking q = some i) :
    s.env.quiet = false := by
  obtain ⟨r, rest, hp, -⟩ := State.asking_cases h
  exact Env.not_quiet (a := Requester.agent q) (by rw [hp]; exact List.cons_ne_nil _ _)

/-- What a requester asks for depends on the configuration, the stores and the ports. -/
theorem State.asking_rebook {s x : State} (hc : x.cfg = s.cfg) (hs : x.stores = s.stores)
    (l : List Agent) (q : Requester) : (x.rebook (s.env.withSched l)).asking q = s.asking q :=
  State.asking_congr (s' := x.rebook (s.env.withSched l)) hc hs (fun a => by cases a <;> rfl) q

/-! ### The end of the operation -/

/-- What taking a request leaves at the ports depends on the ports the state was given. -/
theorem State.takeHead_rebook (x : State) (b : Env) (q : Requester) :
    (x.rebook b).takeHead q =
      x.rebook (b.withPort (Requester.agent q) (b.port (Requester.agent q)).tail) := by
  cases q <;> rfl

/-- Taking a request under two scripts of turns differs in the account of turns only. -/
theorem State.takeHead_withSched (x : State) (e : Env) (q : Requester) (l : List Agent) :
    let t := (x.rebook e).takeHead q
    let u := (x.rebook (e.withSched l)).takeHead q
    u = t.withEnv { t.env with sched := u.env.sched, schedN := u.env.schedN } := by
  cases q <;> rfl

/-- The last part of an exchange, as the end of the one-step exchange under another account. -/
theorem State.conclude_rebook (x : State) (b : Env) (q : Requester) (i : Instr) (st : Status)
    (raw : Text) :
    (x.rebook b).conclude q i st raw = ((deliver i (x.endExchange st raw)).rebook b).takeHead q := by
  unfold State.conclude
  rw [State.endExchange_rebook, deliver_rebook]

/-- The operation that runs an exchange, in one step of its requester with its request taken. -/
theorem exec_asking {s : State} {q : Requester} {i : Instr} (ha : s.asking q = some i)
    (hl : s.t.lock = .free) :
    exec i (s.takeHead q) =
      .next (((deliver i (s.exchange q (commandOf s.cfg i))).rebook s.env).takeHead q) := by
  obtain ⟨-, -, -, -, -, hi, hx⟩ := State.asking_cases ha
  have he : exec i (s.takeHead q) =
      .next (deliver i ((s.takeHead q).exchange q (commandOf s.cfg i))) :=
    exec_exchange (s := s.takeHead q) hl hi hx
  rw [he, State.takeHead_eq, State.exchange_rebook, deliver_rebook, State.takeHead_rebook]

/-! ### The sequencer's five moves -/

/-- The sequencer's move with the lock FREE is ACQ for the requester it names, if that one waits and
may take the lock (R140, R82). -/
theorem State.sequencerMove_acquire {s : State} {q : Requester} {i : Instr}
    (ha : s.asking q = some i) (hm : s.mayTake q = true) (hp : s.env.seqPort = []) :
    s.sequencerMove (.sequencer q) = some (s.acquire q) := by
  have hu : s.underWay = none := by simp only [State.underWay, State.mayTake_lock hm]
  simp only [State.sequencerMove, hu, hp, hm, ha, List.isEmpty_nil, Option.isSome_some,
    Bool.and_self, if_true]

theorem step_acquire {s : State} {q : Requester} {i : Instr} {rest : List Agent}
    (hw : s.cfg.wf = true) (ha : s.asking q = some i) (hm : s.mayTake q = true)
    (hp : s.env.seqPort = []) (hs : s.env.sched = .sequencer q :: rest) :
    step s = .next ((s.acquire q).rebook (s.env.withSched rest)) := by
  have ht : s.turn = (.sequencer q, s.rebook (s.env.withSched rest)) := by
    unfold State.turn; rw [hs]; rfl
  have hmove : s.turn.2.sequencerMove (.sequencer q) = some (s.turn.2.acquire q) :=
    State.sequencerMove_acquire ((s.asking_turn q).trans ha) ((s.mayTake_turn q).trans hm)
      ((s.turn_port (.sequencer q)).trans hp)
  rw [ht] at hmove
  exact step_of_sequencerMove hw (State.asking_not_quiet ha) (by rw [ht]; exact hmove)

/-- A part of the exchange of `q`, in a state that differs from `s` in what an exchange changes. -/
theorem step_part {s x t : State} {q q' : Requester} {i : Instr} {rest : List Agent}
    (hw : s.cfg.wf = true) (ha : s.asking q = some i) (hc : x.cfg = s.cfg)
    (hst : x.stores = s.stores) (hl : x.t.lock = .held q)
    (ht : (x.rebook (s.env.withSched rest)).advance q i = t) :
    step (x.rebook (s.env.withSched (.sequencer q' :: rest))) = .next t := by
  subst ht
  rw [← hc] at hw
  exact step_advance (s := x.rebook (s.env.withSched (.sequencer q' :: rest))) hw hl
    ((State.asking_rebook hc hst _ q).trans ha) rfl

theorem State.advance_drain {s : State} (h : s.t.phase = .drain) (q : Requester) (i : Instr) :
    s.advance q i = s.drainLine := by simp only [State.advance, h]

theorem State.advance_tx {s : State} (h : s.t.phase = .tx) (q : Requester) (i : Instr) :
    s.advance q i = s.transmit (commandOf s.cfg i) := by simp only [State.advance, h]

theorem State.advance_rx_ok {s : State} (h : s.t.phase = .rx) (hr : s.receive.1 = .ok)
    (q : Requester) (i : Instr) : s.advance q i = s.receive.2.2 := by
  simp only [State.advance, h, hr]

theorem State.advance_rx_timeout {s : State} (h : s.t.phase = .rx) (hr : s.receive.1 = .timeout)
    (q : Requester) (i : Instr) :
    s.advance q i = s.receive.2.2.conclude q i .timeout s.receive.2.1 := by
  simp only [State.advance, h, hr]

theorem State.advance_strip {s : State} (h : s.t.phase = .strip) (q : Requester) (i : Instr) :
    s.advance q i = s.conclude q i .ok s.t.rxtext := by simp only [State.advance, h]

/-! The steps of the exchange `i` that `q` asks for in `s`. -/

section
variable {s : State} {q : Requester} {i : Instr} (hw : s.cfg.wf = true) (ha : s.asking q = some i)
  (q' : Requester) (rest : List Agent)
include hw ha

theorem step_drain :
    step ((s.acquire q).rebook (s.env.withSched (.sequencer q' :: rest))) =
      .next ((s.acquire q).drainLine.rebook (s.env.withSched rest)) :=
  step_part hw ha rfl rfl rfl (State.advance_drain rfl q i)

theorem step_transmit :
    step ((s.acquire q).drainLine.rebook (s.env.withSched (.sequencer q' :: rest))) =
      .next ((s.sent q (commandOf s.cfg i)).rebook (s.env.withSched rest)) :=
  step_part hw ha rfl rfl rfl (State.advance_tx rfl q i)

/-- RXRESP that finds the terminator: phase STRIP, the end to follow. -/
theorem step_receive_ok (hr : (s.sent q (commandOf s.cfg i)).receive.1 = .ok) :
    step ((s.sent q (commandOf s.cfg i)).rebook (s.env.withSched (.sequencer q' :: rest))) =
      .next ((s.sent q (commandOf s.cfg i)).receive.2.2.rebook (s.env.withSched rest)) := by
  have hb := State.receive_rebook (s.sent q (commandOf s.cfg i)) (s.env.withSched rest)
  refine step_part hw ha rfl rfl rfl ?_
  rw [State.advance_rx_ok rfl (by rw [hb]; exact hr), hb]

/-- RXRESP that times out: the end of the operation at once. -/
theorem step_receive_timeout (hr : (s.sent q (commandOf s.cfg i)).receive.1 = .timeout) :
    step ((s.sent q (commandOf s.cfg i)).rebook (s.env.withSched (.sequencer q' :: rest))) =
      .next (((deliver i (s.exchange q (commandOf s.cfg i))).rebook
        (s.env.withSched rest)).takeHead q) := by
  have hb := State.receive_rebook (s.sent q (commandOf s.cfg i)) (s.env.withSched rest)
  refine step_part hw ha rfl rfl rfl ?_
  rw [State.advance_rx_timeout rfl (by rw [hb]; exact hr), hb, State.conclude_rebook,
    State.exchange, hr]

/-- The end of the operation after a response. -/
theorem step_strip (hr : (s.sent q (commandOf s.cfg i)).receive.1 = .ok) :
    step ((s.sent q (commandOf s.cfg i)).receive.2.2.rebook
        (s.env.withSched (.sequencer q' :: rest))) =
      .next (((deliver i (s.exchange q (commandOf s.cfg i))).rebook
        (s.env.withSched rest)).takeHead q) := by
  obtain ⟨f, ⟨-, htext, -, hphase, -⟩ | ⟨h, -⟩⟩ := (s.sent q (commandOf s.cfg i)).receive_spec
  · refine step_part hw ha f.cfg f.stores f.lock ?_
    rw [State.advance_strip (by rw [State.rebook_t]; exact hphase), State.rebook_t, ← htext,
      State.conclude_rebook, State.exchange, hr]
  · rw [hr] at h; cases h
end

/-- Settles O33: the sequencer's states are those of the one-step exchange under another account of
turns, and the receive phase answers the same in both. -/
theorem sequencerRunsAnExchangeInItsParts : Obligations.SequencerRunsAnExchangeInItsParts := by
  intro s q i sched hw ha hm hp hs
  have hacq := step_acquire hw ha hm hp hs
  have hone := exec_asking ha (State.mayTake_lock hm)
  rcases (s.sent q (commandOf s.cfg i)).receive_spec.2 with ⟨hr, -, -, hphase, -⟩ | ⟨hr, -⟩
  · exact ⟨_, _, _, _, _, _, hacq, step_drain hw ha _ _, step_transmit hw ha _ _,
      step_receive_ok hw ha _ _ hr, rfl, rfl, rfl, rfl, hone,
      .inl ⟨hphase, step_strip hw ha _ _ hr⟩, State.takeHead_withSched ..⟩
  · have hidle := (s.exchange_spec q (commandOf s.cfg i)).2.2.1
    refine ⟨_, _, _, _, _, _, hacq, step_drain hw ha _ _, step_transmit hw ha _ _,
      step_receive_timeout hw ha _ _ hr, rfl, rfl, rfl, rfl, hone,
      .inr ⟨?_, rfl⟩, State.takeHead_withSched ..⟩
    rwa [State.takeHead_eq, State.rebook_t, State.rebook_t, deliver_t]

end Sys2Proof.Machine

/-! 10_state: what each operation can do to the state, the invariant and the range of the values
under every step (R41, R48), and the state after RESET (R50). -/

namespace Sys2Proof.Machine

/-! ### What an operation with a next state did -/

/-- The operations that write nothing but their result (10_state R33), and the bare forms of the
line and of descriptors (log 9), of which the reserved one has no next state (30_encoding R121). -/
def Instr.isPure : Instr → Bool
  | .linkrd | .enc _ | .dec _ _ _ _ | .strip _ | .hexw _ _ _ | .fdec _ | .fbin _ _ _ _ | .fpar _ _ _
  | .decode _ _ | .ls _ _ | .sym0 | .sym1 | .sym2 | .sym3 | .cf _ | .term | .ldDecimal _ _ _ _
  | .lbBinary _ _ _ _ _ | .lbParityCount _ _ _ _ | .lReserved _ => true
  | _ => false

theorem exec_isPure {i : Instr} {s s' : State} (hi : Instr.isPure i = true)
    (h : exec i s = .next s') : ∃ r, s' = s.withOut r := by
  cases i with
  | decode k t =>
    change execDecode k t s = _ at h
    unfold execDecode at h
    split at h
    · cases h
    · exact ⟨_, (Host.Outcome.next.inj h).symm⟩
  | lReserved x => cases h
  | linkrd | enc | dec | strip | hexw | fdec | fbin | fpar | ls | sym0 | sym1 | sym2 | sym3 | cf
  | term | ldDecimal | lbBinary | lbParityCount => exact ⟨_, (Host.Outcome.next.inj h).symm⟩
  | _ => cases hi

/-- RESET ran with the lock FREE (70_reset R271). -/
theorem exec_reset_cases {s s' : State} (h : exec .reset s = .next s') :
    s.t.lock = .free ∧ s' = s.resetBlock := by
  change execReset s = _ at h
  unfold execReset at h
  split at h
  · exact ⟨‹_›, (Host.Outcome.next.inj h).symm⟩
  · cases h

/-- XCHG waited for the lock, or ran one exchange (40_transport R139, R140). -/
theorem exec_xchg_cases {s s' : State} {q : Requester} {cmd : Text}
    (h : exec (.xchg q cmd) s = .next s') :
    (s.t.lock ≠ .free ∧ s' = s) ∨
    (s.t.lock = .free ∧ s' = (s.exchange q cmd).2.2.withOut
      (.exchange (s.exchange q cmd).1 (s.exchange q cmd).2.1)) := by
  change execXchg q cmd s = _ at h
  unfold execXchg at h
  split at h
  · exact .inr ⟨‹_›, (Host.Outcome.next.inj h).symm⟩
  · exact .inl ⟨‹_›, (Host.Outcome.next.inj h).symm⟩

/-- ACQ waited for the lock, or took it (R140). -/
theorem exec_acq_cases {s s' : State} {q : Requester} (h : exec (.acq q) s = .next s') :
    (s.t.lock ≠ .free ∧ s' = s) ∨ (s.t.lock = .free ∧ s' = (s.acquire q).withOut .none) := by
  change execAcq q s = _ at h
  unfold execAcq at h
  split at h
  · exact .inr ⟨‹_›, (Host.Outcome.next.inj h).symm⟩
  · exact .inl ⟨‹_›, (Host.Outcome.next.inj h).symm⟩

theorem exec_decb (s : State) (b : Line) : exec (.decb b) s =
    .next ((s.withT (s.t.decb s.cfg b).1).withOut (.optChr (s.t.decb s.cfg b).2)) := rfl

theorem exec_lsRx (s : State) (b : Line) : exec (.lsRx b) s = .next (s.peerPut [b]) := rfl

/-- SETMOD (42_debouncer R216). -/
theorem exec_setmod_cases {s s' : State} {k m : Nat} (h : exec (.setmod k m) s = .next s') :
    s' = (s.withStores (s.stores.modify k fun x => { x with mod := m })).withOut .none := by
  change execSetmod k m s = _ at h
  unfold execSetmod at h
  split at h
  · cases h
  · exact (Host.Outcome.next.inj h).symm

/-- An operation on a field that runs on the record its operands name, and not otherwise (R224). -/
theorem exec_at_field {s s' : State} {k f : Nat}
    {run : StoreConfig × FieldRec → Host.Outcome State Fault Refusal}
    (h : (match s.fieldAt k f with | none => badIndex .fieldIndex | some p => run p) = .next s') :
    ∃ c r, s.cfg.stores[k]? = some c ∧ s.recordAt k f = some r ∧ run (c, r) = .next s' := by
  split at h
  · cases h
  · rename_i p hp
    obtain ⟨hc, hr⟩ := State.fieldAt_eq_some.mp hp
    exact ⟨_, _, hc, hr, h⟩

/-- UPD (R202). -/
theorem exec_upd_cases {s s' : State} {k f new now : Nat}
    (h : exec (.upd k f new now) s = .next s') :
    ∃ c r, s.cfg.stores[k]? = some c ∧ s.recordAt k f = some r ∧
      s' = (s.writeField k f (r.update s.cfg c.expiry new now).1).withOut
        (.bit (r.update s.cfg c.expiry new now).2) := by
  obtain ⟨c, r, hc, hr, e⟩ := exec_at_field h
  exact ⟨c, r, hc, hr, (Host.Outcome.next.inj e).symm⟩

/-- VALUE_OF (R220). -/
theorem exec_valueOf_cases {s s' : State} {k f : Nat} (h : exec (.valueOf k f) s = .next s') :
    ∃ c r, s.cfg.stores[k]? = some c ∧ s.recordAt k f = some r ∧
      s' = (s.writeField k f r.cleared).withOut (.value r.cur) := by
  obtain ⟨c, r, hc, hr, e⟩ := exec_at_field h
  exact ⟨c, r, hc, hr, (Host.Outcome.next.inj e).symm⟩

/-- HAS_PENDING (R222). -/
theorem exec_hasPending_cases {s s' : State} {k f : Nat} (h : exec (.hasPending k f) s = .next s') :
    ∃ c r, s.cfg.stores[k]? = some c ∧ s.recordAt k f = some r ∧
      s' = (s.writeField k f r.cleared).withOut (.bit r.pend) := by
  obtain ⟨c, r, hc, hr, e⟩ := exec_at_field h
  exact ⟨c, r, hc, hr, (Host.Outcome.next.inj e).symm⟩

/-! ### Unit T and the stores -/

/-- An exchange leaves the stores as they are (20_memory R71). -/
@[simp] theorem State.exchange_stores (s : State) (q : Requester) (cmd : Text) :
    (s.exchange q cmd).2.2.stores = s.stores := by
  obtain ⟨-, -, -, -, h, -⟩ := s.exchange_spec q cmd
  exact h

@[simp] theorem State.exchange_cfg (s : State) (q : Requester) (cmd : Text) :
    (s.exchange q cmd).2.2.cfg = s.cfg := by
  obtain ⟨-, -, -, -, -, -, h, -⟩ := s.exchange_spec q cmd
  exact h

/-- The lock is FREE and the sequencer IDLE after an exchange (40_transport R152). -/
theorem State.exchange_rested (s : State) (q : Requester) (cmd : Text) :
    (s.exchange q cmd).2.2.Rested := by
  obtain ⟨-, hl, hp, -⟩ := s.exchange_spec q cmd
  exact ⟨hl, hp⟩

/-- The operations of unit T that write its state, and the peer's append. -/
def Instr.isFramer : Instr → Bool
  | .xchg _ _ | .decb _ | .drain | .txcmd _ | .rxresp | .acq _ | .rel | .lsRx _ => true
  | _ => false

/-- They touch no store (R60, R71). -/
theorem exec_isFramer {i : Instr} {s s' : State} (hi : Instr.isFramer i = true)
    (h : exec i s = .next s') : s'.cfg = s.cfg ∧ s'.stores = s.stores := by
  cases i with
  | xchg q cmd =>
    rcases exec_xchg_cases h with ⟨-, rfl⟩ | ⟨-, rfl⟩
    · exact ⟨rfl, rfl⟩
    · exact ⟨s.exchange_cfg q cmd, s.exchange_stores q cmd⟩
  | acq q => rcases exec_acq_cases h with ⟨-, rfl⟩ | ⟨-, rfl⟩ <;> exact ⟨rfl, rfl⟩
  | decb b => rw [exec_decb] at h; cases h; exact ⟨rfl, rfl⟩
  | lsRx b => rw [exec_lsRx] at h; cases h; exact ⟨rfl, rfl⟩
  | drain => rw [exec_drain] at h; cases h; split <;> exact ⟨rfl, rfl⟩
  | txcmd cmd => rw [exec_txcmd] at h; cases h; split <;> exact ⟨rfl, rfl⟩
  | rel => rw [exec_rel] at h; cases h; split <;> exact ⟨rfl, rfl⟩
  | rxresp =>
    rw [exec_rxresp] at h
    cases h
    split
    · exact ⟨s.receive_spec.1.cfg, s.receive_spec.1.stores⟩
    · exact ⟨rfl, rfl⟩
  | _ => cases hi

/-- One part of an exchange (10_state R24): DRAIN, TXCMD, RXRESP, or the end of the exchange, which
is RXRESP's own on TIMEOUT. -/
theorem State.advance_cases (s : State) (q : Requester) (i : Instr) :
    s.advance q i = s.drainLine ∨ s.advance q i = s.transmit (commandOf s.cfg i) ∨
    s.advance q i = s.receive.2.2 ∨
    ∃ x st raw, (x = s ∨ x = s.receive.2.2) ∧ s.advance q i = x.conclude q i st raw := by
  cases hp : s.t.phase with
  | drain => exact .inl (State.advance_drain hp q i)
  | tx => exact .inr (.inl (State.advance_tx hp q i))
  | rx =>
    rcases s.receive_spec.2 with ⟨hr, -⟩ | ⟨hr, -⟩
    · exact .inr (.inr (.inl (State.advance_rx_ok hp hr q i)))
    · exact .inr (.inr (.inr ⟨_, _, _, .inr rfl, State.advance_rx_timeout hp hr q i⟩))
  | strip => exact .inr (.inr (.inr ⟨s, _, _, .inl rfl, State.advance_strip hp q i⟩))
  | idle => exact .inr (.inr (.inr ⟨s, .timeout, [], .inl rfl, by simp only [State.advance, hp]⟩))

/-! ### The invariant -/

/-- What the checks of an operation and of the configuration give an exchange: a command of at most
`CMD_MAX` characters (R25). -/
theorem commandOf_length {c : Config} (hc : c.wf = true) {i : Instr} (hi : i.wf c = true) :
    (commandOf c i).length ≤ c.cmdMax := by
  cases i with
  | xchg q cmd => simpa [commandOf, Instr.wf, Instr.checks, Config.commandOk] using hi
  | poll k tick =>
    simp only [commandOf]
    split
    · exact Config.wf_cmd hc (List.mem_of_getElem? ‹_›)
    · exact Nat.zero_le _
  | _ => exact Nat.zero_le _

theorem State.Inv.setmod {s : State} (h : s.Inv) {m : Nat} (hm : m < 2 ^ s.cfg.modW) (k : Nat) :
    (s.withStores (s.stores.modify k fun x => { x with mod := m })).Inv :=
  ⟨h.cfg, h.framer, h.rxq, h.rxqCap, h.txs, h.time,
    h.modifyStore k _ fun _ _ _ _ hst => ⟨hm, hst.fields⟩⟩

/-- Clearing a flag (R220, R222). -/
theorem State.Inv.clearField {s : State} (h : s.Inv) {k f : Nat} {c : StoreConfig} {r : FieldRec}
    (hc : s.cfg.stores[k]? = some c) (hr : s.recordAt k f = some r) :
    (s.writeField k f r.cleared).Inv := by
  obtain ⟨d, hd, hs⟩ := h.recordAt hc hr
  refine h.writeField k f _ fun c' d' hc' hd' => ?_
  cases hc.symm.trans hc'
  cases hd.symm.trans hd'
  exact hs.cleared

/-- UPD with operands within their widths (R202). -/
theorem State.Inv.updateField {s : State} (h : s.Inv) {k f new now : Nat} {c : StoreConfig}
    {r : FieldRec} (hc : s.cfg.stores[k]? = some c) (hr : s.recordAt k f = some r)
    (hv : new < 2 ^ s.cfg.valW) (hn : now < 2 ^ s.cfg.tsW) :
    (s.writeField k f (r.update s.cfg c.expiry new now).1).Inv := by
  obtain ⟨d, hd, hs⟩ := h.recordAt hc hr
  refine h.writeField k f _ fun c' d' hc' hd' => ?_
  cases hc.symm.trans hc'
  cases hd.symm.trans hd'
  exact hs.update c.expiry hv hn

theorem State.Inv.deliver {i : Instr} {r : Status × Text × State} (h : r.2.2.Inv) :
    (deliver i r).Inv := by
  unfold Machine.deliver
  split
  · split
    · exact h.finishPoll ‹_› _ _
    · exact h
  · exact h.withOut _

theorem State.Inv.conclude {s : State} (h : s.Inv) (q : Requester) (i : Instr) (st : Status)
    (raw : Text) : (s.conclude q i st raw).Inv :=
  State.Inv.withEnv (State.Inv.deliver (h.endExchange st raw)) _

/-- One part of an exchange under way. -/
theorem State.Inv.advance {s : State} (h : s.Inv) (hl : s.t.lock ≠ .free) (q : Requester)
    {i : Instr} (hi : i.wf s.cfg = true) : (s.advance q i).Inv := by
  rcases s.advance_cases q i with e | e | e | ⟨x, st, raw, rfl | rfl, e⟩ <;> rw [e]
  · exact h.drainLine hl
  · exact h.transmit hl (commandOf_length h.cfg hi)
  · exact h.receive hl
  · exact h.conclude q i st raw
  · exact (h.receive hl).conclude q i st raw

/-- RESET (R50): every element at its reset value, the time as it was. -/
theorem State.Inv.resetFor {c : Config} (hc : c.wf = true) {time : Nat} (ht : time < 2 ^ c.tsW)
    (env : Env) : (State.resetFor c time env).Inv where
  cfg := hc
  framer := ⟨Nat.zero_le _, Nat.zero_le _, Nat.succ_pos _, .inl rfl, Nat.zero_le _, Nat.zero_le _,
    Nat.zero_le _, (fun e => by cases e), fun _ => rfl⟩
  rxq := fun _ hb => by cases hb
  rxqCap := withinCap_of_le fun _ _ => Nat.zero_le _
  txs := fun _ hb => by cases hb
  time := ht
  stores := List.forall₂_map_right_iff.mpr (List.forall₂_same.mpr fun _ _ =>
    ⟨Nat.two_pow_pos _, List.forall₂_map_right_iff.mpr (List.forall₂_same.mpr fun d _ =>
      FieldRec.Sound.reset c d)⟩)

/-- Every well-formed operation that has a next state. -/
theorem State.Inv.exec {s s' : State} (h : s.Inv) {i : Instr} (hi : i.wf s.cfg = true)
    (he : exec i s = .next s') : s'.Inv := by
  cases hp : Instr.isPure i with
  | true => obtain ⟨r, rfl⟩ := exec_isPure hp he; exact h.withOut r
  | false =>
    cases i with
    | reset => obtain ⟨-, rfl⟩ := exec_reset_cases he; exact State.Inv.resetFor h.cfg h.time _
    | xchg q cmd =>
      rcases exec_xchg_cases he with ⟨-, rfl⟩ | ⟨-, rfl⟩
      · exact h
      · exact (h.exchange q (commandOf_length h.cfg hi)).withOut _
    | poll k tick =>
      obtain ⟨c, st, hc, -, ⟨-, rfl⟩ | ⟨-, -, rfl⟩ | ⟨-, -, rfl⟩⟩ := execPoll_cases he
      · exact (h.withStatus _).withOut _
      · exact h
      · have hx := h.exchange .pollq (Config.wf_cmd h.cfg (List.mem_of_getElem? hc))
        exact hx.finishPoll (by rw [State.exchange_cfg]; exact hc) _ _
    | valueOf k f =>
      obtain ⟨c, r, hc, hr, rfl⟩ := exec_valueOf_cases he
      exact (h.clearField hc hr).withOut _
    | hasPending k f =>
      obtain ⟨c, r, hc, hr, rfl⟩ := exec_hasPending_cases he
      exact (h.clearField hc hr).withOut _
    | upd k f new now =>
      obtain ⟨c, r, hc, hr, rfl⟩ := exec_upd_cases he
      simp only [Instr.wf, Instr.checks, Config.valueOk, List.all_cons, Bool.and_eq_true,
        decide_eq_true_eq] at hi
      obtain ⟨-, -, hv, -, hn, -⟩ := hi
      exact (h.updateField hc hr hv hn).withOut _
    | setmod k m =>
      obtain rfl := exec_setmod_cases he
      simp only [Instr.wf, Instr.checks, List.all_cons, Bool.and_eq_true, decide_eq_true_eq] at hi
      obtain ⟨-, hm, -⟩ := hi
      exact (h.setmod hm k).withOut _
    | acq q =>
      rcases exec_acq_cases he with ⟨-, rfl⟩ | ⟨-, rfl⟩
      · exact h
      · exact (h.acquire q).withOut _
    | decb b => rw [exec_decb] at he; cases he; exact (h.withT (h.framer.decb b)).withOut _
    | lsRx b => rw [exec_lsRx] at he; cases he; exact h.peerPut _
    | drain =>
      rw [exec_drain] at he
      cases he
      split
      · exact (h.drainLine (State.inPhase_iff.mp ‹_›).1).withOut _
      · exact h
    | txcmd cmd =>
      rw [exec_txcmd] at he
      cases he
      have hc : cmd.length ≤ s.cfg.cmdMax := by
        simpa [Instr.wf, Instr.checks, Config.commandOk] using hi
      split
      · exact (h.transmit (State.inPhase_iff.mp ‹_›).1 hc).withOut _
      · exact h
    | rxresp =>
      rw [exec_rxresp] at he
      cases he
      split
      · exact (h.receive (State.inPhase_iff.mp ‹_›).1).withOut _
      · exact h
    | rel =>
      rw [exec_rel] at he
      cases he
      split
      · exact h.release.withOut _
      · exact h
    | _ => cases hp

theorem State.Inv.turn {s : State} (h : s.Inv) : s.turn.2.Inv := by
  obtain ⟨e, he, -⟩ := s.turn_cases
  rw [he]
  exact h.withEnv e

theorem State.Inv.taken {s : State} (h : s.Inv) (a : Agent) (l : List Request) :
    (s.taken a l).Inv := h.withEnv _

/-- The sequencer's move. -/
theorem State.Inv.sequencerMove {s t : State} (h : s.Inv) {a : Agent}
    (ht : s.sequencerMove a = some t) : t.Inv := by
  obtain ⟨q, -, ⟨q', i, hl, ha, rfl⟩ | ⟨-, -, -, -, rfl⟩ | rfl⟩ := State.sequencerMove_cases ht
  · obtain ⟨-, -, -, -, -, hi, -⟩ := State.asking_cases ha
    exact h.advance (by rw [hl]; exact Lock.noConfusion) q' hi
  · exact h.acquire q
  · exact h

/-- Settles O11: the move of every agent keeps the invariant, and so does the account of turns. -/
theorem stepKeepsTheInvariant : Obligations.StepKeepsTheInvariant := by
  intro s s' h hs
  obtain ⟨-, rfl | rfl | hm | ⟨r, rest, i, -, -, -, hf, -, he⟩⟩ := step_cases hs
  · exact h
  · exact h.turn
  · exact h.turn.sequencerMove hm
  · have hi : i.wf s.turn.2.cfg = true := by
      rw [State.turn_cfg]; exact Instr.failedCheck_eq_none.mp hf
    exact (h.turn.taken s.turn.1 rest).exec hi he

/-! ### The range of the values -/

/-- Every current value of a store lies in the range of its descriptor (10_state R41). -/
def Store.InRange (sc : StoreConfig) (st : Store) : Prop :=
  List.Forall₂ (fun (d : Descr) (r : FieldRec) => r.cur < d.values) sc.layout st.fields

theorem State.valuesInRange_iff {s : State} :
    s.ValuesInRange ↔ List.Forall₂ Store.InRange s.cfg.stores s.stores := Iff.rfl

theorem forall₂_modify {α β : Type} {R : α → β → Prop} {l : List α} {l' : List β}
    (h : List.Forall₂ R l l') (k : Nat) (g : β → β)
    (hg : ∀ a b, l[k]? = some a → l'[k]? = some b → R a b → R a (g b)) :
    List.Forall₂ R l (l'.modify k g) := by
  refine forall₂_of_getElem? (by rw [List.length_modify]; exact h.length_eq) fun i a b ha hb => ?_
  obtain ⟨b', hb', hr⟩ := forall₂_getElem? h ha
  rw [List.getElem?_modify, hb'] at hb
  by_cases hi : k = i
  · subst hi
    obtain rfl : g b' = b := by simpa using hb
    exact hg a b' ha hb' hr
  · obtain rfl : b' = b := by simpa [hi] using hb
    exact hr

theorem Descr.values_pos (d : Descr) : 0 < Descr.values d := by
  cases d with
  | decimal => exact Nat.two_pow_pos _
  | binary => exact Nat.two_pow_pos _
  | parityCount => exact Nat.succ_pos _

/-- The current value of a record after UPD is the one it had or the new one (42_debouncer R202). -/
theorem FieldRec.update_cur (c : Config) (e : Nat) (r : FieldRec) (new now : Nat) :
    (r.update c e new now).1.cur = r.cur ∨ (r.update c e new now).1.cur = new := by
  rw [FieldRec.update_eq]
  split
  · exact .inr rfl
  · exact .inl rfl

/-- The update loop with values in the range of their fields. -/
theorem Store.InRange.updateFields {sc : StoreConfig} {st : Store} (h : Store.InRange sc st)
    (c : Config) (e now : Nat) {new : List (Option Nat)}
    (hv : ∀ (f v : Nat) (d : Descr), new[f]? = some (some v) → sc.layout[f]? = some d →
      v < d.values) :
    Store.InRange sc { st with fields := (updateFields c e now st.fields new).1 } := by
  refine forall₂_of_getElem? (by rw [updateFields_length]; exact h.length_eq) fun f d r hd hr => ?_
  obtain ⟨r0, hr0, hlt⟩ := forall₂_getElem? h hd
  rw [updateFields_getElem?, hr0, Option.map_some, Option.some.injEq] at hr
  subst hr
  match hnew : new[f]? with
  | some (some v) =>
    rw [updatedBy_value]
    rcases FieldRec.update_cur c e r0 v now with hc | hc <;> rw [hc]
    · exact hlt
    · exact hv f v d hnew hd
  | some none => exact hlt
  | none => exact hlt

theorem Store.InRange.reset (c : StoreConfig) : Store.InRange c (Store.reset c) :=
  List.forall₂_map_right_iff.mpr (List.forall₂_same.mpr fun d _ => Descr.values_pos d)

theorem State.ValuesInRange.resetFor (c : Config) (time : Nat) (env : Env) :
    (State.resetFor c time env).ValuesInRange :=
  List.forall₂_map_right_iff.mpr (List.forall₂_same.mpr fun sc _ => Store.InRange.reset sc)

/-- What leaves the configuration and the stores leaves the values. -/
theorem State.ValuesInRange.of_stores {s s' : State} (h : s.ValuesInRange) (hc : s'.cfg = s.cfg)
    (hs : s'.stores = s.stores) : s'.ValuesInRange := by
  rw [State.valuesInRange_iff, hc, hs]
  exact h

/-- The current value of a record there is. -/
theorem State.ValuesInRange.recordAt {s : State} (h : s.ValuesInRange) {k f : Nat} {c : StoreConfig}
    {d : Descr} {r : FieldRec} (hc : s.cfg.stores[k]? = some c) (hd : c.layout[f]? = some d)
    (hr : s.recordAt k f = some r) : r.cur < d.values := by
  obtain ⟨st, hs, hst⟩ := forall₂_getElem? (State.valuesInRange_iff.mp h) hc
  obtain ⟨r', hr', hlt⟩ := forall₂_getElem? hst hd
  rw [State.recordAt, hs, Option.bind_some, hr', Option.some.injEq] at hr
  exact hr ▸ hlt

theorem State.ValuesInRange.writeField {s : State} (h : s.ValuesInRange) (k f : Nat) (r : FieldRec)
    (hr : ∀ c d, s.cfg.stores[k]? = some c → c.layout[f]? = some d → r.cur < Descr.values d) :
    (s.writeField k f r).ValuesInRange := by
  refine forall₂_modify (R := Store.InRange) h k _ fun c st hc _ hst => ?_
  show List.Forall₂ _ c.layout (st.fields.set f r)
  rw [List.set_eq_modify]
  exact forall₂_modify hst f _ fun d _ hd _ _ => hr c d hc hd

/-- Clearing a flag leaves the value. -/
theorem State.ValuesInRange.clearField {s : State} (h : s.ValuesInRange) {k f : Nat} {r : FieldRec}
    (hr : s.recordAt k f = some r) : (s.writeField k f r.cleared).ValuesInRange :=
  h.writeField k f _ fun _ _ hc hd => show r.cur < _ from h.recordAt hc hd hr

/-- The end of a POLL: what DECODE gives is in range (41_field_decoder R173 to R175). -/
theorem State.ValuesInRange.finishPoll {x : State} (h : x.ValuesInRange) (hw : x.cfg.wf = true)
    {k : Nat} {c : StoreConfig} (hc : x.cfg.stores[k]? = some c) (st : Status) (text : Text) :
    (x.finishPoll k c st text).ValuesInRange := by
  rcases x.finishPoll_cases k c st text with
    ⟨-, e⟩ | ⟨-, -, e⟩ | ⟨-, -, -, e⟩ | ⟨new, -, -, hdec, e⟩ <;> rw [e]
  · exact h
  · exact h
  · exact h
  · show List.Forall₂ Store.InRange x.readClock.cfg.stores _
    rw [State.readClock_cfg]
    refine forall₂_modify h k _ fun c' st' hc' hs' hst => ?_
    cases hc.symm.trans hc'
    rw [List.getD, hs', Option.getD_some]
    refine Store.InRange.updateFields hst _ _ _ fun f v d hv hd => ?_
    obtain ⟨d', hd', -, hlt, -⟩ := decodeResponse_value hw (List.mem_of_getElem? hc) hdec hv
    cases hd.symm.trans hd'
    exact hlt

/-- Every well-formed operation that has a next state. -/
theorem State.ValuesInRange.exec {s s' : State} (h : s.ValuesInRange) (hw : s.cfg.wf = true)
    {i : Instr} (hi : i.wf s.cfg = true) (he : exec i s = .next s') : s'.ValuesInRange := by
  cases hp : Instr.isPure i with
  | true => obtain ⟨r, rfl⟩ := exec_isPure hp he; exact h
  | false =>
    cases hf : Instr.isFramer i with
    | true =>
      obtain ⟨hc, hs⟩ := exec_isFramer hf he
      exact h.of_stores hc hs
    | false =>
      cases i with
      | reset => obtain ⟨-, rfl⟩ := exec_reset_cases he; exact State.ValuesInRange.resetFor _ _ _
      | poll k tick =>
        obtain ⟨c, st, hc, -, ⟨-, rfl⟩ | ⟨-, -, rfl⟩ | ⟨-, -, rfl⟩⟩ := execPoll_cases he
        · exact h
        · exact h
        · have hcfg := s.exchange_cfg .pollq c.cmd
          have hx := h.of_stores hcfg (s.exchange_stores .pollq c.cmd)
          exact hx.finishPoll (by rw [hcfg]; exact hw) (by rw [hcfg]; exact hc) _ _
      | valueOf k f => obtain ⟨c, r, -, hr, rfl⟩ := exec_valueOf_cases he; exact h.clearField hr
      | hasPending k f =>
        obtain ⟨c, r, -, hr, rfl⟩ := exec_hasPending_cases he
        exact h.clearField hr
      | upd k f new now =>
        obtain ⟨c, r, hc, hr, rfl⟩ := exec_upd_cases he
        refine h.writeField k f _ fun c' d hc' hd => ?_
        have hv : new < d.values := by
          simp only [Instr.wf, Instr.checks, Config.fieldValueOk, hc', Option.bind_some, hd,
            List.all_cons, Bool.and_eq_true, decide_eq_true_eq] at hi
          obtain ⟨-, -, -, hv, -⟩ := hi
          exact hv
        rcases FieldRec.update_cur s.cfg c.expiry r new now with e | e <;> rw [e]
        · exact h.recordAt hc' hd hr
        · exact hv
      | setmod k m =>
        obtain rfl := exec_setmod_cases he
        exact forall₂_modify (R := Store.InRange) h k _ fun _ _ _ _ hst => hst
      | xchg | decb | drain | txcmd | rxresp | acq | rel | lsRx => cases hf
      | _ => cases hp

theorem State.ValuesInRange.conclude {s : State} (h : s.ValuesInRange) (hw : s.cfg.wf = true)
    (q : Requester) (i : Instr) (st : Status) (raw : Text) :
    (s.conclude q i st raw).ValuesInRange := by
  have hx : (s.endExchange st raw).2.2.ValuesInRange :=
    h.of_stores (State.endExchange_cfg ..) (State.endExchange_stores ..)
  show (deliver i (s.endExchange st raw)).ValuesInRange
  unfold deliver
  split
  · split
    · exact hx.finishPoll (by rw [State.endExchange_cfg]; exact hw) ‹_› _ _
    · exact hx
  · exact hx

/-- The sequencer's move. -/
theorem State.ValuesInRange.sequencerMove {s t : State} (h : s.ValuesInRange)
    (hw : s.cfg.wf = true) {a : Agent} (ht : s.sequencerMove a = some t) : t.ValuesInRange := by
  have hr : s.receive.2.2.ValuesInRange := h.of_stores s.receive_spec.1.cfg s.receive_spec.1.stores
  obtain ⟨-, -, ⟨q, i, -, -, rfl⟩ | ⟨-, -, -, -, rfl⟩ | rfl⟩ := State.sequencerMove_cases ht
  · rcases s.advance_cases q i with e | e | e | ⟨x, st, raw, rfl | rfl, e⟩ <;> rw [e]
    · exact h
    · exact h
    · exact hr
    · exact h.conclude hw q i st raw
    · exact hr.conclude (by rw [s.receive_spec.1.cfg]; exact hw) q i st raw
  · exact h
  · exact h

/-- Settles O13: a step leaves the stores, or resets them, or writes a value that DECODE gave or
that was checked against the descriptor. -/
theorem stepKeepsValuesInRange : Obligations.StepKeepsValuesInRange := by
  intro s s' hinv h hs
  have hturn : s.turn.2.ValuesInRange := h.of_stores s.turn_cfg s.turn_stores
  have hw : s.turn.2.cfg.wf = true := by rw [State.turn_cfg]; exact hinv.cfg
  obtain ⟨-, rfl | rfl | hm | ⟨r, rest, i, -, -, -, hf, -, he⟩⟩ := step_cases hs
  · exact h
  · exact hturn
  · exact hturn.sequencerMove hw hm
  · have hi : i.wf s.turn.2.cfg = true := by
      rw [State.turn_cfg]; exact Instr.failedCheck_eq_none.mp hf
    have ht : (s.turn.2.taken s.turn.1 rest).ValuesInRange := hturn
    exact ht.exec hw hi he

/-! ### RESET, rest, and single operations -/

/-- Settles O10: the reset values are in range, for the machine's own configuration too. -/
theorem resetStateIsSound : Obligations.ResetStateIsSound := by
  have hall : ∀ (c : Config) (time : Nat) (env : Env), c.wf = true → time < 2 ^ c.tsW →
      (State.resetFor c time env).Inv ∧ (State.resetFor c time env).ValuesInRange ∧
      (State.resetFor c time env).Rested := fun c time env hc ht =>
    ⟨State.Inv.resetFor hc ht env, State.ValuesInRange.resetFor c time env, rfl, rfl⟩
  exact ⟨hall, hall Config.atReset 0 Env.unlisted (by decide) (Nat.two_pow_pos _)⟩

/-- What leaves the framer leaves the block at rest. -/
theorem State.Rested.of_t {s s' : State} (h : s.Rested) (ht : s'.t = s.t) : s'.Rested := by
  unfold State.Rested
  rw [ht]
  exact h

/-- Settles O14: an exchange ends at rest, RESET puts the block at rest, and the other host
operations leave the lock and the phase. -/
theorem hostOperationsLeaveTheBlockAtRest : Obligations.HostOperationsLeaveTheBlockAtRest := by
  intro i s s' hi h he
  cases i with
  | reset => obtain ⟨-, rfl⟩ := exec_reset_cases he; exact ⟨rfl, rfl⟩
  | xchg q cmd =>
    rcases exec_xchg_cases he with ⟨-, rfl⟩ | ⟨-, rfl⟩
    · exact h
    · exact s.exchange_rested q cmd
  | linkrd => obtain ⟨r, rfl⟩ := exec_isPure rfl he; exact h
  | poll k tick =>
    obtain ⟨c, st, -, -, ⟨-, rfl⟩ | ⟨-, -, rfl⟩ | ⟨-, -, rfl⟩⟩ := execPoll_cases he
    · exact h
    · exact h
    · exact (s.exchange_rested .pollq c.cmd).of_t (State.finishPoll_t ..)
  | valueOf k f => obtain ⟨c, r, -, -, rfl⟩ := exec_valueOf_cases he; exact h
  | hasPending k f => obtain ⟨c, r, -, -, rfl⟩ := exec_hasPending_cases he; exact h
  | setmod k m => obtain rfl := exec_setmod_cases he; exact h
  | _ => cases hi

/-- UPD, VALUE_OF and HAS_PENDING write one record and the result. -/
theorem exec_fieldOperation {i : Instr} {s s' : State} {k f new now : Nat}
    (hi : i = .upd k f new now ∨ i = .valueOf k f ∨ i = .hasPending k f)
    (h : exec i s = .next s') : ∃ r o, s' = (s.writeField k f r).withOut o := by
  rcases hi with rfl | rfl | rfl
  · obtain ⟨_, _, -, -, e⟩ := exec_upd_cases h; exact ⟨_, _, e⟩
  · obtain ⟨_, _, -, -, e⟩ := exec_valueOf_cases h; exact ⟨_, _, e⟩
  · obtain ⟨_, _, -, -, e⟩ := exec_hasPending_cases h; exact ⟨_, _, e⟩

/-- Settles O48, by the frame of `FieldWrite`. -/
theorem fieldOperationsTouchOneRecord : Obligations.FieldOperationsTouchOneRecord := by
  intro i s s' k f new now hi h
  obtain ⟨r, o, rfl⟩ := exec_fieldOperation hi h
  refine ⟨rfl, rfl, rfl, rfl, rfl, rfl, rfl, List.length_modify .., s.writeField_mod k f r, ?_⟩
  intro k' f' hne
  have hn : ¬ (k' = k ∧ f' = f) := not_and_or.mpr hne
  exact (s.writeField_recordAt k f r k' f').trans (if_neg hn)

/-- Settles O5: the two tests a step begins with. -/
theorem quietBlockDoesNothing : Obligations.QuietBlockDoesNothing := by
  intro s
  refine ⟨fun hw h1 h2 h3 h4 => ?_, fun hw => ?_⟩
  · have hq : s.env.quiet = true := by
      simp only [Env.quiet, h1, h2, h3, h4, List.isEmpty_nil, Bool.and_self]
    simp only [step, hw, hq, Bool.not_true, Bool.false_eq_true, if_false, if_true]
  · simp only [step, hw, Bool.not_false, if_true]

/-- A queue with room takes the symbol (R23). -/
theorem queueOne_room {c : Config} {cap : Nat} (hc : c.rxqCap = some cap) {q : List Line}
    (hl : q.length < cap) (b : Line) : queueOne c q b = q ++ [b % 2 ^ c.lineW] := by
  simp only [queueOne, hc, hl, if_true]

/-- A full queue loses the newest symbol (93 U17, log 15). -/
theorem queueOne_dropNewest {c : Config} {cap : Nat} (hc : c.rxqCap = some cap) {q : List Line}
    (hl : cap ≤ q.length) (hp : c.rxqFull = .dropNewest) (b : Line) : queueOne c q b = q := by
  simp only [queueOne, hc, hp, Nat.not_lt.mpr hl, if_false]

/-- A full queue loses the oldest symbol (93 U17, log 15). -/
theorem queueOne_dropOldest {c : Config} {cap : Nat} (hc : c.rxqCap = some cap) {q : List Line}
    (hl : q.length = cap) (hp : c.rxqFull = .dropOldest) (b : Line) :
    queueOne c q b = (q ++ [b % 2 ^ c.lineW]).drop 1 := by
  simp only [queueOne, hc, hp, hl, Nat.lt_irrefl, if_false, Nat.add_sub_cancel_left]

/-- Settles O23: the queue without bound, with room, and full under either policy. -/
theorem receivedSymbolIsQueued : Obligations.ReceivedSymbolIsQueued := by
  intro s b hb
  have hm : b % 2 ^ s.cfg.lineW = b := Nat.mod_eq_of_lt hb
  refine ⟨queueOne s.cfg s.rxq b, rfl, fun hc => ?_, fun cap hc =>
    ⟨fun hl => ?_, fun hl hp => queueOne_dropNewest hc hl hp b, fun hl hp => ?_⟩⟩
  · rw [queueOne_none hc, hm]
  · rw [queueOne_room hc hl, hm]
  · rw [queueOne_dropOldest hc hl hp, hm]

/-- Settles O45: an ignored record is passed over, and writing it back changes nothing. -/
theorem updPassesIgnoredFieldsOver : Obligations.UpdPassesIgnoredFieldsOver := by
  intro s k f new now c r hc hr hi
  have hf : s.fieldAt k f = some (c, r) := State.fieldAt_eq_some.mpr ⟨hc, hr⟩
  have hu : r.update s.cfg c.expiry new now = (r, false) := by
    simp only [FieldRec.update, hi, if_true]
  simp only [exec, execUpd, hf, hu, State.writeField_same hr]

/-- Settles O59, by the list of the pure operations. -/
theorem pureOperationsOnlyHandBackAResult : Obligations.PureOperationsOnlyHandBackAResult := by
  intro s s' i c b0 b1 b2 b3 t off w word lo n k inv ign skip h l hi he
  have hp : Instr.isPure i = true := by
    rcases hi with rfl | rfl | rfl | rfl | rfl | rfl | rfl | rfl | rfl | rfl | rfl | rfl | rfl |
      rfl | rfl | rfl | rfl | rfl | rfl <;> rfl
  obtain ⟨r, rfl⟩ := exec_isPure hp he
  rfl

end Sys2Proof.Machine

/-! 20_memory: no step writes a constant (R83), unit T touches no store and only the line sequences
its operations use (R60, R71), and the line is reached inside an exchange only (R61, R77, R81). -/

namespace Sys2Proof.Machine

/-! ### The operations on a store -/

/-- The operations of unit D that run no exchange: they write the stores (42_debouncer R202, R216,
R220, R222). -/
def Instr.isStore : Instr → Bool
  | .valueOf _ _ | .hasPending _ _ | .setmod _ _ | .upd _ _ _ _ => true
  | _ => false

theorem exec_isStore {i : Instr} {s s' : State} (hi : Instr.isStore i = true)
    (h : exec i s = .next s') : ∃ l r, s' = (s.withStores l).withOut r := by
  cases i with
  | valueOf k f => obtain ⟨_, _, -, -, rfl⟩ := exec_valueOf_cases h; exact ⟨_, _, rfl⟩
  | hasPending k f => obtain ⟨_, _, -, -, rfl⟩ := exec_hasPending_cases h; exact ⟨_, _, rfl⟩
  | upd k f new now => obtain ⟨_, _, -, -, rfl⟩ := exec_upd_cases h; exact ⟨_, _, rfl⟩
  | setmod k m => obtain rfl := exec_setmod_cases h; exact ⟨_, _, rfl⟩
  | _ => cases hi

/-! ### The configuration -/

/-- No operation writes a constant (R83). -/
theorem exec_cfg {i : Instr} {s s' : State} (h : exec i s = .next s') : s'.cfg = s.cfg := by
  cases hp : Instr.isPure i with
  | true => obtain ⟨r, rfl⟩ := exec_isPure hp h; rfl
  | false =>
    cases hf : Instr.isFramer i with
    | true => exact (exec_isFramer hf h).1
    | false =>
      cases hd : Instr.isStore i with
      | true => obtain ⟨l, r, rfl⟩ := exec_isStore hd h; rfl
      | false =>
        cases i with
        | reset => obtain ⟨-, rfl⟩ := exec_reset_cases h; rfl
        | poll k tick =>
          obtain ⟨c, st, -, -, ⟨-, rfl⟩ | ⟨-, -, rfl⟩ | ⟨-, -, rfl⟩⟩ := execPoll_cases h
          · rfl
          · rfl
          · rw [State.finishPoll_cfg, State.exchange_cfg]
        | valueOf | hasPending | setmod | upd => cases hd
        | xchg | decb | drain | txcmd | rxresp | acq | rel | lsRx => cases hf
        | _ => cases hp

theorem State.sequencerMove_cfg {s t : State} {a : Agent} (h : s.sequencerMove a = some t) :
    t.cfg = s.cfg := by
  obtain ⟨-, -, ⟨q, i, -, -, rfl⟩ | ⟨-, -, -, -, rfl⟩ | rfl⟩ := State.sequencerMove_cases h
  · exact s.advance_cfg q i
  · rfl
  · rfl

/-- Settles O12: neither the account of turns, nor the sequencer, nor an operation writes it. -/
theorem stepKeepsTheConfiguration : Obligations.StepKeepsTheConfiguration := by
  intro s s' h
  obtain ⟨-, rfl | rfl | hm | ⟨r, rest, i, -, -, -, -, -, he⟩⟩ := step_cases h
  · rfl
  · exact s.turn_cfg
  · exact (State.sequencerMove_cfg hm).trans s.turn_cfg
  · exact (exec_cfg he).trans s.turn_cfg

/-! ### What unit T does to the line sequences -/

/-- The operations of unit T that take symbols from the receive queue or empty it, and the peer's
append to it. -/
def Instr.usesRxq : Instr → Bool
  | .xchg _ _ | .drain | .rxresp | .lsRx _ => true
  | _ => false

/-- The operations of unit T that send (R60). -/
def Instr.usesTxs : Instr → Bool
  | .xchg _ _ | .txcmd _ => true
  | _ => false

/-- An operation of unit T leaves the time, and the line sequences it does not use (R60, R71). -/
theorem exec_isFramer_line {i : Instr} {s s' : State} (hi : Instr.isFramer i = true)
    (h : exec i s = .next s') :
    s'.time = s.time ∧ (Instr.usesRxq i = false → s'.rxq = s.rxq) ∧
      (Instr.usesTxs i = false → s'.txs = s.txs) := by
  cases i with
  | xchg q cmd =>
    refine ⟨?_, nofun, nofun⟩
    rcases exec_xchg_cases h with ⟨-, rfl⟩ | ⟨-, rfl⟩
    · rfl
    · obtain ⟨-, -, -, -, -, htime, -⟩ := s.exchange_spec q cmd
      exact htime
  | acq q =>
    rcases exec_acq_cases h with ⟨-, rfl⟩ | ⟨-, rfl⟩ <;> exact ⟨rfl, fun _ => rfl, fun _ => rfl⟩
  | decb b => rw [exec_decb] at h; cases h; exact ⟨rfl, fun _ => rfl, fun _ => rfl⟩
  | lsRx b => rw [exec_lsRx] at h; cases h; exact ⟨rfl, nofun, fun _ => rfl⟩
  | drain => rw [exec_drain] at h; cases h; split <;> exact ⟨rfl, nofun, fun _ => rfl⟩
  | txcmd cmd => rw [exec_txcmd] at h; cases h; split <;> exact ⟨rfl, fun _ => rfl, nofun⟩
  | rel => rw [exec_rel] at h; cases h; split <;> exact ⟨rfl, fun _ => rfl, fun _ => rfl⟩
  | rxresp =>
    rw [exec_rxresp] at h
    cases h
    split
    · exact ⟨s.receive_spec.1.time, nofun, fun _ => s.receive_spec.1.txs⟩
    · exact ⟨rfl, nofun, fun _ => rfl⟩
  | _ => cases hi

/-- Settles O60, by the list of unit T's operations and the sequences each uses. -/
theorem framerOperationsLeaveTheStores : Obligations.FramerOperationsLeaveTheStores := by
  intro s s' i q cmd b hi he
  have hf : Instr.isFramer i = true := by
    rcases hi with rfl | rfl | rfl | rfl | rfl | rfl | rfl | rfl <;> rfl
  obtain ⟨hcfg, hstores⟩ := exec_isFramer hf he
  obtain ⟨htime, hrxq, htxs⟩ := exec_isFramer_line hf he
  refine ⟨hstores, htime, hcfg, fun hr => hrxq ?_, fun ht => htxs ?_, ?_⟩
  · rcases hr with rfl | rfl | rfl | rfl <;> rfl
  · rcases ht with rfl | rfl | rfl | rfl | rfl | rfl <;> rfl
  · rintro rfl
    rw [exec_lsRx] at he
    cases he
    rfl

/-! ### A part of an exchange out of its phase -/

theorem State.inPhase_eq_false {s : State} {p : Phase} (h : s.t.lock = .free ∨ s.t.phase ≠ p) :
    s.inPhase p = false :=
  Bool.eq_false_iff.mpr fun hin =>
    have ⟨hl, hp⟩ := State.inPhase_iff.mp hin
    h.elim hl fun hne => hne hp

theorem State.atEnd_eq_false {s : State}
    (h : s.t.lock = .free ∨ s.t.phase ≠ .strip ∧ s.t.phase ≠ .idle) : s.atEnd = false :=
  Bool.eq_false_iff.mpr fun he =>
    have ⟨hl, hp⟩ := State.atEnd_iff.mp he
    h.elim hl fun hne => hp.elim hne.1 hne.2

theorem exec_drain_waits {s : State} (h : s.t.lock = .free ∨ s.t.phase ≠ .drain) :
    exec .drain s = .next s := by
  rw [exec_drain, State.inPhase_eq_false h]; rfl

theorem exec_txcmd_waits {s : State} (h : s.t.lock = .free ∨ s.t.phase ≠ .tx) (cmd : Text) :
    exec (.txcmd cmd) s = .next s := by
  rw [exec_txcmd, State.inPhase_eq_false h]; rfl

theorem exec_rxresp_waits {s : State} (h : s.t.lock = .free ∨ s.t.phase ≠ .rx) :
    exec .rxresp s = .next s := by
  rw [exec_rxresp, State.inPhase_eq_false h]; rfl

theorem exec_rel_waits {s : State}
    (h : s.t.lock = .free ∨ s.t.phase ≠ .strip ∧ s.t.phase ≠ .idle) :
    exec .rel s = .next s := by
  rw [exec_rel, State.atEnd_eq_false h]; rfl

/-! ### The line at each agent's move -/

@[simp] theorem State.turn_rxq (s : State) : s.turn.2.rxq = s.rxq := by
  obtain ⟨e, h, -⟩ := s.turn_cases; rw [h]; rfl
@[simp] theorem State.turn_txs (s : State) : s.turn.2.txs = s.txs := by
  obtain ⟨e, h, -⟩ := s.turn_cases; rw [h]; rfl

/-- Whether an operation runs an exchange depends on the stores (42_debouncer R206). -/
theorem State.runsExchange_congr {s s' : State} (hs : s'.stores = s.stores) (i : Instr) :
    s'.runsExchange i = s.runsExchange i := by
  cases i with
  | poll k tick => simp only [State.runsExchange, State.pollDue, hs]
  | _ => rfl

/-- An exchange that does not wait finds the lock FREE (40_transport R140). -/
theorem lock_free_of_not_waits {s : State} {a : Agent} {i : Instr} (hw : waits s a i = false)
    (hx : s.runsExchange i = true) : s.t.lock = .free := by
  obtain ⟨-, hw⟩ := Bool.or_eq_false_iff.mp hw
  cases i with
  | xchg q cmd => exact State.mayTake_lock ((Bool.not_eq_false' _).mp hw)
  | poll k tick =>
    have hd : s.pollDue k tick = true := hx
    have ht : s.mayTake .pollq = true := by simpa [hd] using hw
    exact State.mayTake_lock ht
  | _ => cases hx

/-- What a requester may issue reaches the line by an exchange or by RESET only (R61, R77). -/
theorem exec_of_requester {s s' : State} {q : Requester} {i : Instr}
    (hm : mayIssue (Requester.agent q) i = true) (hx : s.runsExchange i = false) (hr : i ≠ .reset)
    (h : exec i s = .next s') : s'.t = s.t ∧ s'.rxq = s.rxq ∧ s'.txs = s.txs := by
  cases hp : Instr.isPure i with
  | true => obtain ⟨r, rfl⟩ := exec_isPure hp h; exact ⟨rfl, rfl, rfl⟩
  | false =>
    cases hd : Instr.isStore i with
    | true => obtain ⟨l, r, rfl⟩ := exec_isStore hd h; exact ⟨rfl, rfl, rfl⟩
    | false =>
      cases i with
      | reset => exact absurd rfl hr
      | xchg => cases hx
      | poll k tick =>
        obtain ⟨c, st, -, hs, hcases⟩ := execPoll_cases h
        have hnot : due st.mod tick = false := by
          simpa only [State.runsExchange, State.pollDue, hs] using hx
        rcases hcases with ⟨-, rfl⟩ | ⟨hdue, -⟩ | ⟨hdue, -⟩
        · exact ⟨rfl, rfl, rfl⟩
        · rw [hnot] at hdue; cases hdue
        · rw [hnot] at hdue; cases hdue
      | decb | drain | txcmd | rxresp | acq | rel | lsRx => cases q <;> cases hm
      | valueOf | hasPending | setmod | upd => cases hd
      | _ => cases hp

/-- What the sequencer may issue neither reads nor sends with the lock FREE (R61, R81). -/
theorem exec_of_sequencer_free {s s' : State} {q : Requester} {i : Instr}
    (hm : mayIssue (.sequencer q) i = true) (hl : s.t.lock = .free) (h : exec i s = .next s') :
    s'.rxq = s.rxq ∧ s'.txs = s.txs := by
  cases hp : Instr.isPure i with
  | true => obtain ⟨r, rfl⟩ := exec_isPure hp h; exact ⟨rfl, rfl⟩
  | false =>
    cases i with
    | drain => rw [exec_drain_waits (.inl hl)] at h; cases h; exact ⟨rfl, rfl⟩
    | txcmd cmd => rw [exec_txcmd_waits (.inl hl)] at h; cases h; exact ⟨rfl, rfl⟩
    | rxresp => rw [exec_rxresp_waits (.inl hl)] at h; cases h; exact ⟨rfl, rfl⟩
    | acq | rel | decb =>
      obtain ⟨-, hrxq, htxs⟩ := exec_isFramer_line rfl h
      exact ⟨hrxq rfl, htxs rfl⟩
    | xchg q' cmd => cases q' <;> cases hm
    | reset | poll | valueOf | hasPending | setmod | upd | lsRx => cases hm
    | _ => cases hp

/-- A requester's move leaves the framer and the line, or its request is an exchange or RESET, with
the lock FREE. -/
theorem step_of_requester {s t : State} {q : Requester} (ha : s.turn.1 = Requester.agent q)
    (h : step s = .next t) :
    (t.t = s.t ∧ t.rxq = s.rxq ∧ t.txs = s.txs) ∨
    (s.t.lock = .free ∧ ∃ r rest i, s.NextRequest r rest ∧ decode s.cfg r = some i ∧
      (s.runsExchange i = true ∨ i = .reset)) := by
  obtain ⟨-, rfl | rfl | hm | ⟨r, rest, i, hn, hd, hm, -, hw, he⟩⟩ := step_cases h
  · exact .inl ⟨rfl, rfl, rfl⟩
  · exact .inl ⟨s.turn_t, s.turn_rxq, s.turn_txs⟩
  · rw [ha] at hm; cases q <;> cases hm
  · by_cases hr : i = .reset
    · subst hr
      exact .inr ⟨s.turn_t ▸ (exec_reset_cases he).1, r, rest, _, hn, hd, .inr rfl⟩
    · cases hx : s.runsExchange i with
      | true => exact .inr ⟨lock_free_of_not_waits hw hx, r, rest, i, hn, hd, .inl hx⟩
      | false =>
        have hx' := State.runsExchange_congr (s' := s.turn.2.taken s.turn.1 rest) s.turn_stores i
        obtain ⟨ht, hrxq, htxs⟩ := exec_of_requester (ha ▸ hm) (hx'.trans hx) hr he
        exact .inl ⟨ht.trans s.turn_t, hrxq.trans s.turn_rxq, htxs.trans s.turn_txs⟩

/-- The peer appends to the receive queue (10_state R23). -/
theorem step_of_peer {s t : State} (ha : s.turn.1 = .peer) (h : step s = .next t) :
    t.t = s.t ∧ t.txs = s.txs := by
  obtain ⟨-, rfl | rfl | hm | ⟨r, rest, i, -, -, hm, -, -, he⟩⟩ := step_cases h
  · exact ⟨rfl, rfl⟩
  · exact ⟨s.turn_t, s.turn_txs⟩
  · rw [ha] at hm; cases hm
  · rw [ha] at hm
    cases i with
    | lsRx b =>
      rw [exec_lsRx] at he
      cases he
      exact ⟨s.turn_t, s.turn_txs⟩
    | xchg q cmd => cases q <;> cases hm
    | _ => cases hm

/-- The sequencer's move with the lock FREE. -/
theorem step_of_sequencer_free {s t : State} {q : Requester} (ha : s.turn.1 = .sequencer q)
    (hl : s.t.lock = .free) (h : step s = .next t) : t.rxq = s.rxq ∧ t.txs = s.txs := by
  have hl' : s.turn.2.t.lock = .free := s.turn_t ▸ hl
  obtain ⟨-, rfl | rfl | hm | ⟨r, rest, i, -, -, hm, -, -, he⟩⟩ := step_cases h
  · exact ⟨rfl, rfl⟩
  · exact ⟨s.turn_rxq, s.turn_txs⟩
  · obtain ⟨-, -, ⟨q', i, hheld, -⟩ | ⟨-, -, -, -, rfl⟩ | rfl⟩ := State.sequencerMove_cases hm
    · rw [hl'] at hheld; cases hheld
    · exact ⟨s.turn_rxq, s.turn_txs⟩
    · exact ⟨s.turn_rxq, s.turn_txs⟩
  · obtain ⟨hrxq, htxs⟩ :=
      exec_of_sequencer_free (s := s.turn.2.taken s.turn.1 rest) (ha ▸ hm) hl' he
    exact ⟨hrxq.trans s.turn_rxq, htxs.trans s.turn_txs⟩

/-- The request at the head of a port, and what it decodes to, are determined. -/
theorem State.NextRequest.decode_unique {s : State} {r r' : Request} {rest rest' : List Request}
    {i i' : Instr} (h : s.NextRequest r rest) (h' : s.NextRequest r' rest')
    (hd : decode s.cfg r = some i) (hd' : decode s.cfg r' = some i') : i = i' := by
  obtain ⟨rfl, -⟩ := List.cons.inj (h.port.symm.trans h'.port)
  exact Option.some.inj (hd.symm.trans hd')

/-- Settles O27: a requester reaches the line by an exchange or RESET, with the lock FREE; the peer
only appends; the sequencer's parts wait with the lock FREE. -/
theorem onlyAnExchangeReachesTheLine : Obligations.OnlyAnExchangeReachesTheLine := by
  refine ⟨fun s t h => ⟨fun q ha hl => ?_, fun ha => step_of_peer ha h,
    fun q ha hl => step_of_sequencer_free ha hl h, fun q r rest i ha _ hn hd hx hr => ?_⟩,
    fun s cmd => ⟨exec_drain_waits, fun hw => exec_txcmd_waits hw cmd, exec_rxresp_waits,
      exec_rel_waits⟩⟩
  · rcases step_of_requester ha h with hsame | ⟨hfree, -⟩
    · exact hsame
    · exact absurd hfree hl
  · rcases step_of_requester ha h with hsame | ⟨-, r', rest', i', hn', hd', hreach⟩
    · exact hsame
    · obtain rfl := hn.decode_unique hn' hd hd'
      rcases hreach with hx' | hr'
      · rw [hx] at hx'; cases hx'
      · exact absurd hr' hr

end Sys2Proof.Machine

/-! 30_encoding: the decoder reads back what the encoder writes and refuses unassigned numbers
(R118, R121), the bare forms stand for their symbols and records (R91 to R94, R110, R115), and a
composite operation is its parts (R120). -/

namespace Sys2Proof.Machine

open Sys2Proof.Laws

/-! ### The decoder -/

/-- Settles O1, constructor by constructor: the family `Encoding` states it of each. -/
theorem decodeUndoesEncode : Obligations.DecodeUndoesEncode := by
  intro c i
  cases i with
  | reset => exact Encoding.reset c
  | xchg q cmd => exact Encoding.xchg q cmd c
  | linkrd => exact Encoding.linkrd c
  | poll s tick => exact Encoding.poll s tick c
  | valueOf s f => exact Encoding.valueOf s f c
  | hasPending s f => exact Encoding.hasPending s f c
  | setmod s m => exact Encoding.setmod s m c
  | enc ch => exact Encoding.enc ch c
  | decb b => exact Encoding.decb b c
  | dec b0 b1 b2 b3 => exact Encoding.dec b0 b1 b2 b3 c
  | drain => exact Encoding.drain c
  | txcmd cmd => exact Encoding.txcmd cmd c
  | rxresp => exact Encoding.rxresp c
  | strip raw => exact Encoding.strip raw c
  | acq q => exact Encoding.acq q c
  | rel => exact Encoding.rel c
  | hexw t off w => exact Encoding.hexw t off w c
  | fdec word => exact Encoding.fdec word c
  | fbin word lo n inv => exact Encoding.fbin word lo n inv c
  | fpar word lo n => exact Encoding.fpar word lo n c
  | decode s t => exact Encoding.decode s t c
  | upd s f new now => exact Encoding.upd s f new now c
  | ls h l => exact Encoding.ls h l c
  | sym0 => exact Encoding.sym0 c
  | sym1 => exact Encoding.sym1 c
  | sym2 => exact Encoding.sym2 c
  | sym3 => exact Encoding.sym3 c
  | lsRx b => exact Encoding.lsRx b c
  | cf ch => exact Encoding.cf ch c
  | term => exact Encoding.term c
  | ldDecimal skip ign off w => exact Encoding.ldDecimal skip ign off w c
  | lbBinary inv ign k lo n => exact Encoding.lbBinary inv ign k lo n c
  | lbParityCount ign k lo n => exact Encoding.lbParityCount ign k lo n c
  | lReserved x => exact Encoding.lReserved x c

/-- Settles O2: the decoder runs on each word. -/
theorem tableWordsDecodeToTheirRows : Obligations.TableWordsDecodeToTheirRows := by
  unfold Obligations.TableWordsDecodeToTheirRows
  decide

/-- The numbers of R118. -/
def assignedNumbers : List Nat :=
  [0x00, 0x01, 0x02, 0x10, 0x11, 0x12, 0x13, 0x80, 0x81, 0x82, 0x83, 0x84, 0x85, 0x86, 0x87, 0x88,
    0x90, 0x91, 0x92, 0x93, 0x94, 0xA0]

/-- No other number has operands (R118). -/
theorem readOperands_unassigned {op : Nat} (h : op ∉ assignedNumbers) (bs : List Byte) :
    readOperands op bs = none := by
  unfold readOperands
  split
  case h_23 => rfl
  all_goals exact absurd (by decide) h

/-- Settles O3: the decoder reads no operation behind an unassigned number. -/
theorem unassignedNumbersRefused : Obligations.UnassignedNumbersRefused := by
  intro s n bs rest hw hn hop
  have hd : decode s.cfg ⟨.ho, n :: bs⟩ = none := by
    simp only [decode, readHost, readOperands_unassigned hop]
  rw [step_of_nextRequest hw hn]
  simp only [hd]

/-! ### The bare forms -/

/-- Settles O21: the bits of a transmitted symbol. -/
theorem lineSymbolFormIsItsPairAndFill : Obligations.LineSymbolFormIsItsPairAndFill :=
  fun s h l hw => ⟨lineSymbol s.cfg l h, rfl, testBit_lineSymbol (Config.wf_payload hw).1 l h⟩

theorem exec_term (s : State) :
    exec .term s = .next (s.withOut (.symbols (encodeText s.cfg s.cfg.term))) := rfl

/-! With the default payload positions, width and `FILL`. -/

section
variable {c : Config} (hwidth : c.lineW = 8) (hlo : c.pLo = 2) (hhi : c.pHi = 5)
  (hfill : c.fill = 0xFF)
include hwidth hlo hhi hfill

/-- R92: the pair of a symbol stands at bits 2 and 5, over `0xDB`. -/
theorem lineSymbol_default (lo hi : Bool) :
    lineSymbol c lo hi = 0xDB + 0x04 * lo.toNat + 0x20 * hi.toNat := by
  rw [lineSymbol, hwidth, hlo, hhi, hfill]
  cases lo <;> cases hi <;> rfl

/-- R93: the frame of a character, lower pair first. -/
theorem encodeChr_default (ho : c.pairOrder = .lspFirst) (ch : Chr) :
    encodeChr c ch = (List.range 4).map fun g =>
      0xDB + 0x04 * (ch.getLsbD (2 * g)).toNat + 0x20 * (ch.getLsbD (2 * g + 1)).toNat := by
  simp only [encodeChr, pairIndex, ho, pairOnLine, lineSymbol_default hwidth hlo hhi hfill]
  rfl

/-- R94: the frame of the default terminator. -/
theorem encodeText_default_term (ho : c.pairOrder = .lspFirst) :
    encodeText c [0x0D, 0x0A] = [0xDF, 0xFF, 0xDB, 0xDB, 0xFB, 0xFB, 0xDB, 0xDB] := by
  simp only [encodeText_cons, encodeText_nil, encodeChr_default hwidth hlo hhi hfill ho]
  decide

end

/-- Settles O22: the forms run `lineSymbol` and ENC, whose values with the default parameters are
the tables'. -/
theorem lineFormsAreTheirSymbols : Obligations.LineFormsAreTheirSymbols := by
  intro s hw
  refine ⟨⟨_, _, _, _, rfl, rfl, rfl, rfl, rfl, rfl, rfl, rfl⟩, fun c => ⟨_, rfl, rfl⟩, ?_, ?_⟩
  · obtain ⟨a, b, ht⟩ := List.length_eq_two.mp (Config.wf_term hw)
    refine ⟨a, b, _, _, ht, rfl, rfl, ?_⟩
    rw [exec_term, ht, encodeText_cons, encodeText_cons, encodeText_nil, List.append_nil]
  · intro hwidth hlo hhi hfill
    have hshow : ∀ h l, s.showSymbol h l =
        s.withOut (.symbols [0xDB + 0x04 * l.toNat + 0x20 * h.toNat]) := fun h l => by
      rw [State.showSymbol, lineSymbol_default hwidth hlo hhi hfill]
    refine ⟨congrArg _ (hshow false false), congrArg _ (hshow false true),
      congrArg _ (hshow true false), congrArg _ (hshow true true),
      fun ho => ⟨fun c => ?_, fun ht => ?_⟩⟩
    · rw [← encodeChr_default hwidth hlo hhi hfill ho]
      rfl
    · rw [exec_term, ht, encodeText_default_term hwidth hlo hhi hfill ho]

/-- Settles O57: each form answers its record. -/
theorem packedDescriptorsReadAsTheirRecords : Obligations.PackedDescriptorsReadAsTheirRecords :=
  fun _ => ⟨fun _ _ _ _ => rfl, fun _ _ _ _ _ => rfl, fun _ _ _ _ => rfl⟩

/-- Settles O58: the reserved kind has no next state, and RESET tests the lock. -/
theorem reservedDescriptorAndLateResetAreRefused :
    Obligations.ReservedDescriptorAndLateResetAreRefused :=
  fun _ => ⟨fun _ => rfl, fun hl => if_neg hl⟩

/-! ### The composite operations -/

/-- DECB at the offset of line position `g`, which is not the last, puts pair `pairIndex c g` and
gives no character (R134). -/
theorem exec_decb_pair {s : State} {g : Nat} (hg : g < 3) (h : s.t.rxs = 2 * g) (b : Line) :
    exec (.decb b) s = .next ((s.withT { s.t with
      rxacc := putPair s.cfg s.t.rxacc (pairIndex s.cfg g) b, rxs := 2 * (g + 1) }).withOut
        (.optChr none)) := by
  rw [exec_decb, Framer.decb, h, decbStep_eq _ _ (by omega), if_neg (by omega)]

/-- DECB at the last line position completes a character (R134). -/
theorem exec_decb_last {s : State} (h : s.t.rxs = 6) (b : Line) :
    exec (.decb b) s = .next ((s.withT { s.t with
      rxacc := putPair s.cfg s.t.rxacc (pairIndex s.cfg 3) b, rxs := 0 }).withOut
        (.optChr (some (putPair s.cfg s.t.rxacc (pairIndex s.cfg 3) b)))) := by
  rw [exec_decb, Framer.decb, h, decbStep_6]

/-- Settles O20: the four pairs overwrite whatever the accumulator held. -/
theorem fourDecbMakeOneDec : Obligations.FourDecbMakeOneDec := by
  intro s b0 b1 b2 b3 h
  refine ⟨_, _, _, _, _, exec_decb_pair (g := 0) (by decide) h b0, rfl,
    exec_decb_pair (g := 1) (by decide) rfl b1, rfl,
    exec_decb_pair (g := 2) (by decide) rfl b2, rfl, exec_decb_last rfl b3, rfl, rfl, ?_⟩
  have hforget := putPairs_forget s.cfg s.t.rxacc b0 b1 b2 b3
  exact congrArg (fun c => Host.Outcome.next (s.withOut (.chr c))) hforget.symm

/-- ACQ, DRAIN and TXCMD, each in its phase, lead to the start of an exchange's receive phase. -/
theorem exec_sent {s : State} (q : Requester) (cmd : Text) (hl : s.t.lock = .free) :
    ∃ s1 s2, exec (.acq q) s = .next s1 ∧ exec .drain s1 = .next s2 ∧
      exec (.txcmd cmd) s2 = .next ((s.sent q cmd).withOut .none) :=
  ⟨_, _, if_pos hl, rfl, rfl⟩

/-- RXRESP in its phase does not look at the result handed out before. -/
theorem exec_rxresp_withOut {s : State} (h : s.inPhase .rx = true) (r : Result) :
    exec .rxresp (s.withOut r) =
      .next (s.receive.2.2.withOut (.exchange s.receive.1 s.receive.2.1)) := by
  have hr : (s.withOut r).receive =
      (s.receive.1, s.receive.2.1, s.receive.2.2.reout r s.status) :=
    State.receive_reout s r s.status
  rw [exec_rxresp, if_pos (show (s.withOut r).inPhase .rx = true from h), hr,
    ← s.receive_spec.1.status]
  rfl

/-- REL after a response or a timeout frees the lock (R152). -/
theorem exec_rel_atEnd {s : State} (h : s.atEnd = true) :
    exec .rel s = .next (s.release.withOut .none) := by
  rw [exec_rel, if_pos h]

/-- XCHG with the lock FREE runs one exchange (R139). -/
theorem exec_xchg_free {s : State} (hl : s.t.lock = .free) (q : Requester) (cmd : Text) :
    exec (.xchg q cmd) s = .next ((s.exchange q cmd).2.2.withOut
      (.exchange (s.exchange q cmd).1 (s.exchange q cmd).2.1)) :=
  if_pos hl

/-- Settles O32: the parts run to the end of the receive phase, which finds the terminator (phase
STRIP) or times out (phase IDLE); REL runs in both. -/
theorem xchgIsItsPartsInOrder : Obligations.XchgIsItsPartsInOrder := by
  intro s q cmd hl
  obtain ⟨s1, s2, hacq, hdrain, htx⟩ := exec_sent q cmd hl
  obtain ⟨f, hend⟩ := (s.sent q cmd).receive_spec
  have hrx := exec_rxresp_withOut (s := s.sent q cmd) rfl .none
  have hlock : (s.sent q cmd).receive.2.2.t.lock ≠ .free := by
    rw [f.lock]
    exact nofun
  refine ⟨s1, s2, _, _, _, _, _, hacq, hdrain, htx, hrx, rfl,
    exec_xchg_free hl q cmd, ?_⟩
  rcases hend with ⟨hst, -, -, hphase, -⟩ | ⟨hst, -, hphase, -⟩
  · refine .inl ⟨hst, _, _, _, rfl, rfl,
      exec_rel_atEnd (State.atEnd_iff.mpr ⟨hlock, .inl hphase⟩), ?_⟩
    rw [State.exchange, hst]
    rfl
  · refine .inr ⟨hst, _, exec_rel_atEnd (State.atEnd_iff.mpr ⟨hlock, .inr hphase⟩), ?_⟩
    rw [State.exchange, hst]
    rfl

end Sys2Proof.Machine

/-! 40_transport: characters and line symbols (R131 to R136), the parts of an exchange in their
phase (R140 to R154), and a whole exchange, with a peer that answers and with one that is silent
(R139, R158). -/

namespace Sys2Proof.Machine

/-! ### Characters and line symbols -/

theorem pairIndex_eq_ite (c : Config) (g : Nat) :
    pairIndex c g = if c.pairOrder = .lspFirst then g else 3 - g := by
  unfold pairIndex
  cases c.pairOrder <;> rfl

theorem decbOffset_eq_ite (c : Config) (s : Nat) :
    decbOffset c s = if c.pairOrder = .lspFirst then s else 6 - s := by
  unfold decbOffset
  cases c.pairOrder <;> rfl

/-- Symbol `g` of ENC carries pair `pairIndex c g` (R131). -/
theorem encodeChr_getD (c : Config) (ch : Chr) {g : Nat} (hg : g < 4) :
    (encodeChr c ch).getD g 0 = pairOnLine c ch (pairIndex c g) := by
  interval_cases g <;> rfl

/-- DECB writes the two payload bits at its offset and keeps the other bits (R134). -/
theorem getLsbD_decbStep (c : Config) (acc : Chr) {s : Nat} (hs : s ≤ 6) (b : Line) (j : Nat) :
    (decbStep c acc s b).1.getLsbD j =
      if j = decbOffset c s then b.testBit c.pLo
      else if j = decbOffset c s + 1 then b.testBit c.pHi
      else acc.getLsbD j := by
  have hoff : decbOffset c s ≤ 6 := by
    rw [decbOffset_eq_ite]
    split <;> omega
  have hacc : (decbStep c acc s b).1 = setChrBit (setChrBit acc (decbOffset c s) (b.testBit c.pLo))
      (decbOffset c s + 1) (b.testBit c.pHi) := by
    unfold decbStep
    dsimp only
    split <;> rfl
  rw [hacc, getLsbD_setChrBit _ (by omega), getLsbD_setChrBit _ (by omega)]
  by_cases hlo : j = decbOffset c s
  · rw [if_neg (by omega), if_pos hlo, if_pos hlo]
  · rw [if_neg hlo, if_neg hlo]

/-- Settles O16: symbol `g` is the line symbol of pair `pairIndex` of `g`. -/
theorem encSplitsACharacterIntoPairs : Obligations.EncSplitsACharacterIntoPairs := by
  intro s c hw
  refine ⟨encodeChr s.cfg c, rfl, encodeChr_length s.cfg c, fun g hg i => ?_⟩
  rw [encodeChr_getD s.cfg c hg, pairOnLine, testBit_lineSymbol (Config.wf_payload hw).1,
    pairIndex_eq_ite]

/-- Settles O17: the bits of a decoded character, pair by pair. -/
theorem decReadsThePayloadBits : Obligations.DecReadsThePayloadBits := by
  intro s b0 b1 b2 b3
  refine ⟨decodeChr s.cfg b0 b1 b2 b3, rfl, fun g hg => ?_⟩
  rw [← pairIndex_eq_ite]
  exact getLsbD_decodeChr s.cfg b0 b1 b2 b3 hg

/-- Settles O18: the payload positions of a well-formed configuration differ, so no pair is lost. -/
theorem decUndoesEnc : Obligations.DecUndoesEnc := fun s c hw =>
  ⟨_, _, _, _, rfl, congrArg (fun ch => Host.Outcome.next (s.withOut (.chr ch)))
    (decodeChr_encodeChr (Config.wf_payload hw).1 c)⟩

/-- Settles O19: the offset moves on, or from 6 back to 0 with a character. -/
theorem decbTakesInOnePair : Obligations.DecbTakesInOnePair := by
  intro s b hs
  have hbits := getLsbD_decbStep s.cfg s.t.rxacc (s := s.t.rxs) (by omega) b
  rw [decbOffset_eq_ite] at hbits
  refine ⟨_, _, _, exec_decb s b, fun h6 => ?_, fun h6 => ?_, fun j _ => hbits j⟩
  · rw [Framer.decb, h6, decbStep_6]
    exact ⟨rfl, rfl⟩
  · rcases decbStep_offset (c := s.cfg) (acc := s.t.rxacc) (b := b) hs with
      ⟨hnone, hnext, -⟩ | ⟨_, -, -, h⟩
    · exact ⟨hnext, hnone⟩
    · exact absurd h h6

/-! ### The lock -/

/-- A POLL that is due waits while the lock is taken (R140). -/
theorem exec_poll_waits {s : State} {k : Nat} {tick : Int} {c : StoreConfig} {st : Store}
    (hl : s.t.lock ≠ .free) (hc : s.cfg.stores[k]? = some c) (hst : s.stores[k]? = some st)
    (hd : due st.mod tick = true) : exec (.poll k tick) s = .next s := by
  show execPoll k tick s = _
  simp only [execPoll, hc, hst, hd, Bool.not_true, Bool.false_eq_true, if_false, if_neg hl]

theorem Requester.agent_injective : Function.Injective Requester.agent := by
  intro q q' h
  cases q <;> cases q' <;> simp_all [Requester.agent]

/-- A requester that owns the lock takes no other step (R140). -/
theorem waits_of_held {s : State} {q : Requester} (h : s.t.lock = .held q) (i : Instr) :
    waits s (Requester.agent q) i = true := by
  refine (Bool.or_eq_true _ _).mpr (.inl ?_)
  cases q <;> simp only [State.ownsLock, Requester.agent, h, beq_self_eq_true]

/-- A requester's exchange waits while the requester may not take the lock (R140). -/
theorem waits_of_not_mayTake {s : State} {q : Requester} {i : Instr}
    (hm : mayIssue (Requester.agent q) i = true) (hx : s.runsExchange i = true)
    (ht : s.mayTake q = false) : waits s (Requester.agent q) i = true := by
  refine (Bool.or_eq_true _ _).mpr (.inr ?_)
  cases i with
  | xchg q' cmd =>
    obtain rfl : q = q' := Requester.agent_injective (beq_iff_eq.mp hm)
    simp only [ht, Bool.not_false]
  | poll k tick =>
    have hd : s.pollDue k tick = true := hx
    cases q with
    | pollq => simp only [hd, ht, Bool.not_false, Bool.and_self]
    | reqq => cases hm
  | _ => cases hx

/-- `LOCK_GRANT` withholds the lock from a requester it does not list while the other waits (R82). -/
theorem State.mayTake_of_not_granted {s : State} {q : Requester}
    (ho : (s.asking (Requester.other q)).isSome = true) (hg : q ∉ s.cfg.lockGrant) :
    s.mayTake q = false := by
  have hnone : (s.asking (Requester.other q)).isNone = false := by
    rw [Option.isNone_eq_false_iff]
    exact ho
  have hcontains : s.cfg.lockGrant.contains q = false := by simpa using hg
  rw [State.mayTake, hnone, hcontains, Bool.or_false, Bool.and_false]

/-- Settles O26: the parts test the lock; a step of the owner, or of a requester that is not granted
the lock, waits. -/
theorem lockIsTakenHeldAndFreed : Obligations.LockIsTakenHeldAndFreed := by
  intro s q
  refine ⟨fun hl => if_pos hl, fun hl => ⟨if_neg hl, fun cmd => if_neg hl, ?_, ?_⟩, ?_⟩
  · intro k tick c st hc hst hmod hdvd
    exact exec_poll_waits hl hc hst (decide_eq_true ⟨hmod, Int.emod_eq_zero_of_dvd hdvd⟩)
  · intro hp
    exact exec_rel_atEnd (State.atEnd_iff.mpr ⟨hl, hp⟩)
  · intro r rest i hw ha hn hd hm hi
    have hstep : waits s s.turn.1 i = true → step s = .next s.turn.2 := fun hwait => by
      rw [stepRunsTheDecodedOperation s r rest i hw hn hd hm hi, if_pos hwait]
    rw [ha] at hstep hm
    refine ⟨fun hheld => hstep ?_, fun hx ho hg => hstep ?_⟩
    · exact waits_of_held hheld i
    · exact waits_of_not_mayTake hm hx (State.mayTake_of_not_granted ho hg)

/-! ### DRAIN and TXCMD in their phase, STRIP and LINKRD in any -/

/-- Settles O24: in its phase the part runs. -/
theorem drainEmptiesTheReceiveQueue : Obligations.DrainEmptiesTheReceiveQueue := by
  intro s hl hp
  rw [exec_drain, if_pos (State.inPhase_iff.mpr ⟨hl, hp⟩)]
  rfl

/-- A well-formed configuration's terminator has two characters (R10). -/
theorem length_append_term {c : Config} (hw : c.wf = true) (t : Text) :
    (t ++ c.term).length = t.length + 2 := by
  rw [List.length_append, Config.wf_term hw]

/-- Settles O25: the command and the two characters of the terminator, four symbols each. -/
theorem txcmdSendsTheCommandThenTheTerminator :
    Obligations.TxcmdSendsTheCommandThenTheTerminator := by
  intro s cmd hw hl hp
  have hlen := length_append_term hw cmd
  constructor
  · rw [exec_txcmd, if_pos (State.inPhase_iff.mpr ⟨hl, hp⟩), State.transmit, hlen]
    rfl
  · rw [← hlen]
    exact encodeText_length s.cfg (cmd ++ s.cfg.term)

/-- STRIP of a response (R153), with the fallback of R154. -/
theorem stripText_append_term {c : Config} (hw : c.wf = true) (body : Text) :
    stripText c (body ++ c.term) =
      if c.prefixLen < body.length then body.drop c.prefixLen else body := by
  have hlen := length_append_term hw body
  have hshort : ¬ (body ++ c.term).length < Config.termLen := by
    rw [hlen, Config.termLen]
    omega
  have hbody : (body ++ c.term).take ((body ++ c.term).length - Config.termLen) = body := by
    rw [hlen, Config.termLen, Nat.add_sub_cancel, List.take_left]
  rw [stripText, if_neg hshort]
  simp only [hbody]

/-- Settles O30: STRIP answers `stripText`, of any text. -/
theorem stripRemovesTerminatorAndPrefix : Obligations.StripRemovesTerminatorAndPrefix := by
  intro s hw
  refine ⟨fun body => ?_, fun raw => ⟨_, rfl⟩⟩
  rw [← stripText_append_term hw]
  rfl

/-- Settles O31: LINKRD runs in any state. -/
theorem linkrdReadsTheLinkFlag : Obligations.LinkrdReadsTheLinkFlag := fun _ => rfl

/-! ### RXRESP -/

/-- RXRESP in its phase answers what the receive phase answers (R145). -/
theorem exec_rxresp_inPhase {s : State} (hl : s.t.lock ≠ .free) (hp : s.t.phase = .rx) :
    exec .rxresp s = .next (s.receive.2.2.withOut (.exchange s.receive.1 s.receive.2.1)) := by
  rw [exec_rxresp, if_pos (State.inPhase_iff.mpr ⟨hl, hp⟩)]

/-- Settles O28: the two ends of the receive loop. -/
theorem rxrespEndsAtTheTerminatorOrTheRetryBound :
    Obligations.RxrespEndsAtTheTerminatorOrTheRetryBound := by
  intro s hl hp
  obtain ⟨f, hend⟩ := s.receive_spec
  refine ⟨_, exec_rxresp_inPhase hl hp, ?_, f.cfg, f.txs, f.time, f.stores, f.status, f.lock,
    f.link, f.txbuf, f.txi, f.txg⟩
  rcases hend with ⟨hst, htext, hterm, hphase, htries⟩ | ⟨hst, htext, hphase, hdrop, htries⟩
  · have hlen : s.receive.2.1.length ≤ s.cfg.retryMax / 4 := by
      rw [htext]
      exact s.receive_rxtext_length
    exact .inl ⟨_, by rw [hst, State.withOut_out], htext.symm, hterm, hlen, hphase, htries⟩
  · exact .inr ⟨by rw [hst, htext, State.withOut_out], hdrop.rxtext, hdrop.rxacc, hdrop.rxs,
      hphase, htries⟩

/-- Settles O29: the loop, observed from an empty text and decoder. -/
theorem rxrespIsTheFunctionOfItsObservations :
    Obligations.RxrespIsTheFunctionOfItsObservations := by
  intro s hl hp hc
  obtain ⟨k, htries, hrx, hrxq, harr, harrN⟩ :=
    State.rxLoop_observe (s := s.startRx) hc (s.cfg.retryMax + 1)
  have hk : s.receive.2.2.t.tries = k := htries.trans (Nat.zero_add k)
  refine ⟨_, _, _, exec_rxresp_inPhase hl hp, rfl, ?_⟩
  rw [State.withOut_t, hk]
  refine ⟨hrx, hrxq, ?_, harr, harrN⟩
  have hprefix := observe_prefix s.arrivalAt k 0 s.rxq
  simp only [Nat.zero_add] at hprefix
  exact hrxq ▸ hprefix

/-! ### A whole exchange -/

/-- Settles O34: what an exchange ends in, and its frame. -/
theorem xchgEndsWithItsStatusInTheLinkFlag : Obligations.XchgEndsWithItsStatusInTheLinkFlag := by
  intro s q cmd hl
  obtain ⟨hend, hlock, hphase, htxs, hstores, htime, hcfg, -⟩ := s.exchange_spec q cmd
  refine ⟨_, exec_xchg_free hl q cmd, ?_, hlock, hphase, htxs, hstores, htime, hcfg⟩
  rcases hend with ⟨hst, hlink, hstatus, htries⟩ | ⟨hst, htext, hlink, hstatus, hdrop, htries⟩
  · exact .inl ⟨_, by rw [hst, State.withOut_out], hlink, hstatus, htries⟩
  · exact .inr ⟨by rw [hst, htext, State.withOut_out], hlink, hstatus, hdrop.rxtext, hdrop.rxacc,
      hdrop.rxs, htries⟩

/-- Settles O35: with the lock FREE the exchange does not depend on who owns the lock; with the lock
taken both wait. -/
theorem xchgIsTheSameForBothRequesters : Obligations.XchgIsTheSameForBothRequesters := by
  intro s cmd
  by_cases hl : s.t.lock = .free
  · rw [exec_xchg_free hl, exec_xchg_free hl, State.exchange_requester s .pollq .reqq]
  · have hwait : ∀ q, exec (.xchg q cmd) s = .next s := fun q => if_neg hl
    rw [hwait, hwait]

/-! ### What the loop makes of a script of arrivals -/

/-- The state in which the loop has come to `rest` in the script of arrivals, with this decoder state
and text after `n` iterations. -/
def State.received (s : State) (rest : List (List Line)) (acc : Chr) (rxs : Nat) (text : Text)
    (n : Nat) : State :=
  (s.withEnv { s.env with arrivals := rest }).withT
    { s.t with rxacc := acc, rxs := rxs, rxtext := text, tries := n }

section
variable (s : State) (rest : List (List Line)) (acc : Chr) (rxs : Nat) (text : Text) (n : Nat)
@[simp] theorem State.received_t : (s.received rest acc rxs text n).t =
    { s.t with rxacc := acc, rxs := rxs, rxtext := text, tries := n } := rfl
@[simp] theorem State.received_received (rest' : List (List Line)) (acc' : Chr) (rxs' : Nat)
    (text' : Text) (n' : Nat) :
    (s.received rest acc rxs text n).received rest' acc' rxs' text' n' =
      s.received rest' acc' rxs' text' n' := rfl
end

/-- A pass of the loop with the terminator decoded is the last one (R147). -/
theorem State.rxLoop_terminated {s : State} (n : Nat) (h : endsWith s.t.rxtext s.cfg.term = true) :
    State.rxLoop (n + 1) s = (.ok, s.t.rxtext, s.withPhase .strip) := by
  rw [State.rxLoop, if_pos h]

/-- A pass with a silent peer and nothing queued only counts the iteration (R146). -/
theorem State.rxLoop_silent {s : State} {rest : List (List Line)} (n : Nat)
    (ha : s.env.arrivals = [] :: rest) (hq : s.rxq = [])
    (ht : endsWith s.t.rxtext s.cfg.term = false) :
    State.rxLoop (n + 1) s =
      State.rxLoop n (s.received rest s.t.rxacc s.t.rxs s.t.rxtext (s.t.tries + 1)) := by
  rw [State.rxLoop_next n ht, State.iterate_idle ha hq]
  rfl

/-- `k` such passes. -/
theorem State.rxLoop_idle {s : State} {rest : List (List Line)} (n k : Nat)
    (ha : s.env.arrivals = List.replicate k [] ++ rest) (hq : s.rxq = [])
    (ht : endsWith s.t.rxtext s.cfg.term = false) :
    State.rxLoop (n + k) s =
      State.rxLoop n (s.received rest s.t.rxacc s.t.rxs s.t.rxtext (s.t.tries + k)) := by
  induction k generalizing s with
  | zero =>
    obtain rfl : s.env.arrivals = rest := ha
    rfl
  | succ k ih =>
    have hi := ih (s := s.received (List.replicate k [] ++ rest) s.t.rxacc s.t.rxs s.t.rxtext
      (s.t.tries + 1)) rfl hq ht
    rw [List.replicate_succ, List.cons_append] at ha
    rw [← Nat.add_assoc, State.rxLoop_silent (n + k) ha hq ht, hi]
    simp only [State.received_received, State.received_t, Nat.add_assoc, Nat.add_comm 1]

/-- A pass at which one symbol arrives at an empty queue: the decoder takes it in (R146). -/
theorem State.rxLoop_symbol {s : State} {b : Line} {rest : List (List Line)} {acc : Chr}
    {rxs tries : Nat} (n : Nat) (hc : s.cfg.rxqCap = none) (hb : b < 2 ^ s.cfg.lineW)
    (hq : s.rxq = []) (ht : endsWith s.t.rxtext s.cfg.term = false) :
    State.rxLoop (n + 1) (s.received ([b] :: rest) acc rxs s.t.rxtext tries) =
      State.rxLoop n (s.received rest (decbStep s.cfg acc rxs b).1 (decbStep s.cfg acc rxs b).2.1
        (s.t.rxtext ++ (decbStep s.cfg acc rxs b).2.2.toList) (tries + 1)) := by
  have hpass := State.rxLoop_next (s := s.received ([b] :: rest) acc rxs s.t.rxtext tries) n ht
  have htaken := State.iterate_symbol (s := s.received ([b] :: rest) acc rxs s.t.rxtext tries)
    hc hb rfl hq
  exact hpass.trans (congrArg (State.rxLoop n) htaken)

/-- The four passes at which the symbols of a character arrive one by one give the character back,
whatever the accumulator held (R134, R135). -/
theorem State.rxLoop_chr {s : State} {ch : Chr} {rest : List (List Line)} (n : Nat)
    (hw : s.cfg.wf = true) (hc : s.cfg.rxqCap = none)
    (ha : s.env.arrivals = (encodeChr s.cfg ch).map (fun b => [b]) ++ rest) (hq : s.rxq = [])
    (hs : s.t.rxs = 0) (ht : endsWith s.t.rxtext s.cfg.term = false) :
    State.rxLoop (n + 4) s =
      State.rxLoop n (s.received rest ch 0 (s.t.rxtext ++ [ch]) (s.t.tries + 4)) := by
  obtain ⟨hne, hlo, hhi⟩ := Config.wf_payload hw
  have hlt : ∀ p, pairOnLine s.cfg ch p < 2 ^ s.cfg.lineW := fun p => lineSymbol_lt hlo hhi _ _
  have hstart : s = s.received ((encodeChr s.cfg ch).map (fun b => [b]) ++ rest)
      s.t.rxacc 0 s.t.rxtext s.t.tries := by
    rw [← ha, ← hs]
    rfl
  calc State.rxLoop (n + 4) s
      = State.rxLoop (n + 4) _ := congrArg (State.rxLoop (n + 4)) hstart
    _ = State.rxLoop n (s.received rest ch 0 (s.t.rxtext ++ [ch]) (s.t.tries + 4)) := by
      simp only [encodeChr, List.map_cons, List.cons_append, List.map_nil, List.nil_append,
        State.rxLoop_symbol _ hc (hlt _) hq ht, decbStep_0, decbStep_2, decbStep_4, decbStep_6,
        Option.toList_none, Option.toList_some, List.append_nil, putPairs_forget,
        decodeChr_encodeChr hne, Nat.add_assoc, Nat.reduceAdd]

/-- The passes at which the frames of a text arrive, one symbol each, decode the text, if no
terminator is found at the head of one (R147). -/
theorem State.rxLoop_text {s : State} {rest : List (List Line)} (t : Text) (n : Nat)
    (hw : s.cfg.wf = true) (hc : s.cfg.rxqCap = none)
    (ha : s.env.arrivals = (encodeText s.cfg t).map (fun b => [b]) ++ rest) (hq : s.rxq = [])
    (hs : s.t.rxs = 0)
    (ht : ∀ k < t.length, endsWith (s.t.rxtext ++ t.take k) s.cfg.term = false) :
    ∃ acc, State.rxLoop (n + 4 * t.length) s =
      State.rxLoop n (s.received rest acc 0 (s.t.rxtext ++ t) (s.t.tries + 4 * t.length)) := by
  induction t generalizing s with
  | nil =>
    obtain rfl : s.env.arrivals = rest := ha
    refine ⟨s.t.rxacc, ?_⟩
    rw [List.append_nil, ← hs]
    rfl
  | cons ch t ih =>
    have hhead : endsWith s.t.rxtext s.cfg.term = false := by
      simpa using ht 0 (Nat.succ_pos _)
    have hframes : s.env.arrivals = (encodeChr s.cfg ch).map (fun b => [b]) ++
        ((encodeText s.cfg t).map (fun b => [b]) ++ rest) := by
      rw [ha, encodeText_cons, List.map_append, List.append_assoc]
    have htail : ∀ k < t.length,
        endsWith (s.t.rxtext ++ [ch] ++ t.take k) s.cfg.term = false := fun k hk => by
      simpa using ht (k + 1) (Nat.succ_lt_succ hk)
    obtain ⟨acc, h⟩ := ih (s := s.received ((encodeText s.cfg t).map (fun b => [b]) ++ rest) ch 0
      (s.t.rxtext ++ [ch]) (s.t.tries + 4)) hw hc rfl hq rfl htail
    refine ⟨acc, ?_⟩
    rw [List.length_cons, Nat.mul_succ, ← Nat.add_assoc,
      State.rxLoop_chr (n + 4 * t.length) hw hc hframes hq hs hhead, h]
    simp only [State.received_received, State.received_t, List.append_assoc, List.singleton_append,
      Nat.add_assoc, Nat.add_comm 4]

/-! ### A peer that answers, and one that is silent -/

theorem endsWith_append (t u : Text) : endsWith (t ++ u) u = true := by
  simp [endsWith]

/-- An empty text does not end in a terminator. -/
theorem endsWith_nil {c : Config} (hw : c.wf = true) : endsWith [] c.term = false := by
  simp [endsWith, Config.wf_term hw]

/-- What RXRESP answers is what XCHG ends with (R139). -/
theorem State.exchange_of_receive {s x : State} {q : Requester} {cmd raw : Text} {st : Status}
    (h : (s.sent q cmd).receive = (st, raw, x)) : s.exchange q cmd = x.endExchange st raw := by
  rw [State.exchange, h]

/-- RXRESP of a text in which the terminator first occurs at its end, sent after some idle iterations
one symbol per iteration and within the retry bound (R145, R147, R150). -/
theorem State.receive_text {s : State} {raw : Text} {idle : Nat} {rest : List (List Line)}
    (hw : s.cfg.wf = true) (hc : s.cfg.rxqCap = none) (hq : s.rxq = [])
    (hfirst : ∀ k < raw.length, endsWith (raw.take k) s.cfg.term = false)
    (hterm : endsWith raw s.cfg.term = true)
    (ha : s.env.arrivals =
      List.replicate idle [] ++ ((encodeText s.cfg raw).map (fun b => [b]) ++ rest))
    (hbound : idle + 4 * raw.length ≤ s.cfg.retryMax) :
    ∃ acc, s.receive =
      (.ok, raw, (s.startRx.received rest acc 0 raw (idle + 4 * raw.length)).withPhase .strip) := by
  obtain ⟨m, hm⟩ := Nat.exists_eq_add_of_le hbound
  have hfuel : s.cfg.retryMax + 1 = (m + 1) + 4 * raw.length + idle := by omega
  obtain ⟨acc, htext⟩ := State.rxLoop_text
    (s := s.startRx.received ((encodeText s.cfg raw).map (fun b => [b]) ++ rest) 0 0 [] idle)
    raw (m + 1) hw hc rfl hq rfl hfirst
  refine ⟨acc, ?_⟩
  have hidle := State.rxLoop_idle (s := s.startRx) (m + 1 + 4 * raw.length) idle ha hq
    (endsWith_nil hw)
  simp only [State.startRx, State.withT_t, Nat.zero_add] at hidle
  rw [State.receive, hfuel]
  exact hidle.trans (htext.trans (State.rxLoop_terminated m hterm))

/-- RXRESP with a peer that is silent in all its iterations (R149, R158 case 1). -/
theorem State.receive_silence {s : State} {rest : List (List Line)} (hw : s.cfg.wf = true)
    (hq : s.rxq = []) (ha : s.env.arrivals = List.replicate (s.cfg.retryMax + 1) [] ++ rest) :
    s.receive = (.timeout, [],
      (s.startRx.received rest 0 0 [] (s.cfg.retryMax + 1)).dropDecoded.withPhase .idle) := by
  have hidle := State.rxLoop_idle (s := s.startRx) 0 (s.cfg.retryMax + 1) ha hq (endsWith_nil hw)
  simp only [State.startRx, State.withT_t, Nat.zero_add] at hidle
  exact hidle

/-- Settles O36: the queue is empty when the receive phase starts, so the loop decodes what the peer
sends. -/
theorem xchgDeliversTheResponse : Obligations.XchgDeliversTheResponse := by
  intro s q cmd body idle rest hw hc hl hfirst ha hbound
  have hlen := length_append_term hw body
  rw [List.append_assoc] at ha
  obtain ⟨acc, hrx⟩ := State.receive_text (s := s.sent q cmd) (raw := body ++ s.cfg.term)
    hw hc rfl hfirst (endsWith_append body s.cfg.term) ha (by rw [hlen]; exact hbound)
  have hx := State.exchange_of_receive hrx
  refine ⟨_, exec_xchg_free hl q cmd, ?_⟩
  rw [hx, ← hlen, ← stripText_append_term hw body]
  exact ⟨rfl, rfl, rfl, rfl, rfl⟩

/-- Settles O37: every iteration is idle. -/
theorem silentPeerTimesOut : Obligations.SilentPeerTimesOut := by
  intro s q cmd rest hw hl ha
  have hx := State.exchange_of_receive (State.receive_silence (s := s.sent q cmd) hw rfl ha)
  refine ⟨_, exec_xchg_free hl q cmd, ?_⟩
  rw [hx]
  exact ⟨rfl, rfl, rfl, rfl, rfl⟩

end Sys2Proof.Machine

/-! 41_field_decoder: a chunk of hex digits (R171, R172), the value of one field (R173 to R175), and
DECODE of a whole response (R177 to R180). -/

namespace Sys2Proof.Machine

/-! ### A chunk of hex digits -/

/-- The number whose base-16 digits are `ds`, most significant first (20_memory R65). -/
def hexValue (ds : List Nat) : Nat :=
  ((List.range ds.length).map fun i => ds.getD i 0 * 16 ^ (ds.length - 1 - i)).sum

theorem hexValue_cons (d : Nat) (ds : List Nat) :
    hexValue (d :: ds) = d * 16 ^ ds.length + hexValue ds := by
  have hpos : ∀ i, ds.length - 1 - i = ds.length - (i + 1) := fun i => by omega
  simp [hexValue, List.range_succ_eq_map, Function.comp_def, hpos]

/-- The loop of HEXW shifts what it has read left by the digits it still reads. -/
theorem hexDigits_eq_some {t : Text} {ds : List Nat} (hlen : ds.length = t.length)
    (hds : ∀ i < t.length, (t[i]?).bind hexDigit = ds[i]?) (v : Nat) :
    hexDigits t v = some (v * 16 ^ ds.length + hexValue ds) := by
  induction t generalizing ds v with
  | nil =>
    obtain rfl := List.eq_nil_of_length_eq_zero hlen
    simp [hexDigits, hexValue]
  | cons c t ih =>
    obtain ⟨d, ds, rfl⟩ := List.exists_cons_of_length_eq_add_one hlen
    have hhead : hexDigit c = some d := hds 0 (Nat.succ_pos _)
    have htail := ih (Nat.succ.inj hlen) (fun i hi => hds (i + 1) (Nat.succ_lt_succ hi))
      (v * 16 + d)
    simp only [hexDigits, hhead, htail, hexValue_cons, List.length_cons, Option.some.injEq]
    ring

/-- A character that is no digit makes the chunk GARBLED, wherever it stands (R171). -/
theorem hexDigits_eq_none {t : Text} {c : Chr} (hc : c ∈ t) (hd : hexDigit c = none) (v : Nat) :
    hexDigits t v = none := by
  induction t generalizing v with
  | nil => cases hc
  | cons e t ih =>
    rcases List.mem_cons.mp hc with rfl | hmem
    · simp only [hexDigits, hd]
    · cases he : hexDigit e with
      | none => simp only [hexDigits, he]
      | some d => simpa only [hexDigits, he] using ih hmem (v * 16 + d)

theorem chunk_getElem? (t : Text) (off : Nat) {w i : Nat} (hi : i < w) :
    ((t.drop off).take w)[i]? = t[off + i]? := by
  rw [List.getElem?_take_of_lt hi, List.getElem?_drop]

theorem chunk_length {t : Text} {off w : Nat} (h : off + w ≤ t.length) :
    ((t.drop off).take w).length = w := by
  rw [List.length_take, List.length_drop]
  omega

theorem hexWord_eq_some {t : Text} {off w : Nat} {ds : List Nat} (h : off + w ≤ t.length)
    (hlen : ds.length = w) (hds : ∀ i < w, (t[off + i]?).bind hexDigit = ds[i]?) :
    hexWord t off w = some (hexValue ds) := by
  have hchunk := chunk_length h
  have hdigits := hexDigits_eq_some (hlen.trans hchunk.symm) (fun i hi => by
    rw [hchunk] at hi
    rw [chunk_getElem? t off hi, hds i hi]) 0
  rwa [Nat.zero_mul, Nat.zero_add] at hdigits

theorem hexWord_eq_none {t : Text} {off w i : Nat} (h : off + w ≤ t.length) (hi : i < w)
    (hd : (t[off + i]?).bind hexDigit = none) : hexWord t off w = none := by
  have hlt : off + i < t.length := by omega
  have hget := List.getElem?_eq_getElem hlt
  have hmem : t[off + i] ∈ (t.drop off).take w :=
    List.mem_of_getElem? ((chunk_getElem? t off hi).trans hget)
  rw [hget] at hd
  exact hexDigits_eq_none hmem hd 0

/-- HEXW on its operand domain (R171). -/
theorem exec_hexw_inDomain {t : Text} {off w : Nat} (h : off + w ≤ t.length) (h1 : 1 ≤ w)
    (h8 : w ≤ 8) (s : State) :
    exec (.hexw t off w) s = .next (s.withOut (.word (hexWord t off w))) := by
  have hdom : hexwDomain t off w = true := decide_eq_true ⟨h, h1, h8⟩
  show execHexw t off w s = _
  rw [execHexw, if_pos hdom]

/-- The values of R172, the letters counted from 10. -/
theorem hexDigit_eq (c : Chr) : hexDigit c =
    if 0x30 ≤ c.toNat ∧ c.toNat ≤ 0x39 then some (c.toNat - 0x30)
    else if 0x41 ≤ c.toNat ∧ c.toNat ≤ 0x46 then some (c.toNat - 0x37)
    else if 0x61 ≤ c.toNat ∧ c.toNat ≤ 0x66 then some (c.toNat - 0x57)
    else none := by
  have hupper (h : 0x41 ≤ c.toNat) : c.toNat - 0x41 + 10 = c.toNat - 0x37 := by omega
  have hlower (h : 0x61 ≤ c.toNat) : c.toNat - 0x61 + 10 = c.toNat - 0x57 := by omega
  simp only [hexDigit]
  split_ifs with _ hu hl
  · rfl
  · rw [hupper hu.1]
  · rw [hlower hl.1]
  · rfl

/-- Settles O38: the loop adds up the digits' place values, and stops at a character that is none. -/
theorem hexwReadsDigitsMostSignificantFirst :
    Obligations.HexwReadsDigitsMostSignificantFirst := by
  refine ⟨hexDigit_eq, fun s t off w => ⟨fun h h1 h8 => ?_, _, rfl⟩⟩
  rw [exec_hexw_inDomain h h1 h8]
  constructor
  · intro ds hlen hds
    rw [hexWord_eq_some h hlen hds, hexValue, hlen]
  · rintro ⟨i, hi, hd⟩
    rw [hexWord_eq_none h hi hd]

/-! ### The value of one field -/

/-- Settles O39: FDEC hands back the word. -/
theorem fdecIsTheWord : Obligations.FdecIsTheWord := fun _ _ => rfl

/-- Settles O40, by the bits of the span and of its complement. -/
theorem fbinTestsTheBitsOfTheWord : Obligations.FbinTestsTheBitsOfTheWord :=
  fun _ word lo n inv => ⟨_, rfl, binaryValue_lt word lo n inv,
    fun _ hj => testBit_binaryValue word lo n inv hj⟩

/-- Settles O41: the sum over the bits of the span is the count of those that are 1. -/
theorem fparCountsTheOnesOfTheSpan : Obligations.FparCountsTheOnesOfTheSpan :=
  fun _ word lo n => ⟨_, rfl, parityValue_le word lo n, parityValue_eq word lo n⟩

/-! ### DECODE of a whole response -/

/-- The index of the word that field `f` is read from: a Decimal field's own (R177). -/
def sourceWord (f : Nat) : Descr → Nat
  | .decimal .. => f
  | .binary k .. => k
  | .parityCount k .. => k

/-- The value a descriptor makes of its word (R173 to R175). -/
def valueOfWord (word : Nat) : Descr → Nat
  | .decimal .. => decimalValue word
  | .binary _ lo n inv _ => binaryValue word lo n inv
  | .parityCount _ lo n _ => parityValue word lo n

theorem fieldValue_of_tracked (words : List (Option Nat)) (f : Nat) {d : Descr}
    (h : d.ign = false) :
    fieldValue words f d = some (valueOfWord (wordAt words (sourceWord f d)) d) := by
  cases d with
  | decimal off w g skip => exact if_neg (Bool.eq_false_iff.mp h)
  | binary k lo n inv g => exact if_neg (Bool.eq_false_iff.mp h)
  | parityCount k lo n g => exact if_neg (Bool.eq_false_iff.mp h)

/-- The word of an un-ignored field is not skipped (30_encoding R114 `ignore_closed`). -/
theorem wordSkipped_sourceWord {cfg : Config} (hw : cfg.wf = true) {c : StoreConfig}
    (hc : c ∈ cfg.stores) {f : Nat} {d : Descr} (hd : c.layout[f]? = some d) (h : d.ign = false) :
    wordSkipped c.layout (sourceWord f d) = false := by
  have hclosed := Config.wf_descr hw hc (k := .ignoreClosed) (by decide) (List.mem_of_getElem? hd)
  cases d with
  | decimal off w g skip =>
    obtain rfl : g = false := h
    simpa [descrOk, sourceWord, wordSkipped, hd] using hclosed
  | binary k lo n inv g =>
    obtain rfl : g = false := h
    simpa [descrOk, sourceWord] using hclosed
  | parityCount k lo n g =>
    obtain rfl : g = false := h
    simpa [descrOk, sourceWord] using hclosed

/-- If no chunk is GARBLED, pass 1 leaves the word of every Decimal descriptor that is not skipped. -/
theorem hexWord_of_layoutWords {t : Text} {layout : List Descr} {words : List (Option Nat)}
    (h : layoutWords t layout = some words) {k off w : Nat} {ign skip : Bool}
    (hk : layout[k]? = some (.decimal off w ign skip)) (hs : wordSkipped layout k = false) :
    hexWord t off w = some (wordAt words k) := by
  obtain rfl : skip = false := by simpa [wordSkipped, hk] using hs
  have hword : words[k]? = some (hexWord t off w) := by rw [layoutWords_getElem? h, hk]; rfl
  cases hx : hexWord t off w with
  | none =>
    have hgarbled := layoutWords_eq_none_iff.mpr ⟨off, w, ign, List.mem_of_getElem? hk, hx⟩
    rw [h] at hgarbled
    cases hgarbled
  | some v => simp [wordAt, List.getD, hword, hx]

/-- A decode that is not GARBLED gives an un-ignored field what its descriptor makes of its word. -/
theorem decodeResponse_tracked {cfg : Config} (hw : cfg.wf = true) {c : StoreConfig}
    (hc : c ∈ cfg.stores) {t : Text} {m : List (Option Nat)} (hm : decodeResponse c t = some m)
    {f off w : Nat} {d : Descr} {ign skip : Bool} (hd : c.layout[f]? = some d) (hi : d.ign = false)
    (hword : c.layout[sourceWord f d]? = some (.decimal off w ign skip)) :
    ∃ v, hexWord t off w = some v ∧ m[f]? = some (some (valueOfWord v d)) := by
  obtain ⟨words, hwords, -, hget⟩ := decodeResponse_getElem? hm
  refine ⟨wordAt words (sourceWord f d),
    hexWord_of_layoutWords hwords hword (wordSkipped_sourceWord hw hc hd hi), ?_⟩
  rw [hget, hd, Option.map_some, fieldValue_of_tracked words f hi]

theorem decodeResponse_ignored {c : StoreConfig} {t : Text} {m : List (Option Nat)}
    (hm : decodeResponse c t = some m) {f : Nat} {d : Descr} (hd : c.layout[f]? = some d)
    (hi : d.ign = true) : m[f]? = some none := by
  obtain ⟨words, -, -, hget⟩ := decodeResponse_getElem? hm
  rw [hget, hd, Option.map_some, fieldValue_eq_none hi]

/-- DECODE is GARBLED exactly when a parsed chunk is (R178, R180). -/
theorem decodeResponse_eq_none_iff {c : StoreConfig} {t : Text} :
    decodeResponse c t = none ↔
      ∃ off w ign, Descr.decimal off w ign false ∈ c.layout ∧ hexWord t off w = none := by
  rw [decodeResponse, Option.map_eq_none_iff, layoutWords_eq_none_iff]

theorem exec_decode_store {s : State} {k : Nat} {c : StoreConfig}
    (hc : s.cfg.stores[k]? = some c) (t : Text) :
    exec (.decode k t) s = .next (s.withOut (.fields
      (if t.length = c.respLen then decodeResponse c t else Config.decodeOutside k t))) := by
  show execDecode k t s = _
  rw [execDecode, hc]

/-- DECODE of a text of the store's length (R177). -/
theorem exec_decode_response {s : State} {k : Nat} {c : StoreConfig} {t : Text}
    (hc : s.cfg.stores[k]? = some c) (hlen : t.length = c.respLen) :
    exec (.decode k t) s = .next (s.withOut (.fields (decodeResponse c t))) := by
  rw [exec_decode_store hc, if_pos hlen]

/-- Settles O42: pass 1 is GARBLED as a whole or leaves the word every un-ignored field is read
from. -/
theorem decodeGivesEveryTrackedFieldItsValue :
    Obligations.DecodeGivesEveryTrackedFieldItsValue := by
  intro s k c t hw hc
  have hmem := List.mem_of_getElem? hc
  refine ⟨fun hlen => ?_, _, exec_decode_store hc t⟩
  rw [exec_decode_response hc hlen]
  refine ⟨fun hgarbled => by rw [decodeResponse_eq_none_iff.mpr hgarbled], fun hparsed => ?_⟩
  have hsome : decodeResponse c t ≠ none := fun hnone => by
    obtain ⟨off, w, ign, hd, hx⟩ := decodeResponse_eq_none_iff.mp hnone
    exact Option.isSome_iff_ne_none.mp (hparsed off w ign hd) hx
  obtain ⟨m, hm⟩ := Option.ne_none_iff_exists'.mp hsome
  obtain ⟨_, -, hlength, -⟩ := decodeResponse_getElem? hm
  refine ⟨m, by rw [hm], hlength, fun f d hd => ?_⟩
  have htracked : ∀ {off w : Nat} {ign skip : Bool}, d.ign = false →
      c.layout[sourceWord f d]? = some (.decimal off w ign skip) →
      m[f]? = some ((hexWord t off w).map fun v => valueOfWord v d) := fun hi hword => by
    obtain ⟨v, hv, hf⟩ := decodeResponse_tracked hw hmem hm hd hi hword
    rw [hf, hv, Option.map_some]
  refine ⟨decodeResponse_ignored hm hd, ?_, ?_, ?_⟩
  · rintro off w skip rfl
    simpa [valueOfWord, decimalValue] using htracked rfl hd
  · rintro j lo n inv off w ign skip rfl hj
    exact htracked rfl hj
  · rintro j lo n off w ign skip rfl hj
    exact htracked rfl hj

/-- Settles O43: both fields are read from the word of one chunk. -/
theorem bitAndDecimalViewsAgree : Obligations.BitAndDecimalViewsAgree := by
  intro s k c t m f j lo n off w skip hw hc hlen hexec hf hj
  have hmem := List.mem_of_getElem? hc
  rw [exec_decode_response hc hlen] at hexec
  have hm : decodeResponse c t = some m :=
    Result.fields.inj (congrArg State.out (Host.Outcome.next.inj hexec))
  obtain ⟨v, hv, hdecimal⟩ := decodeResponse_tracked hw hmem hm hj rfl hj
  obtain ⟨u, hu, hbinary⟩ := decodeResponse_tracked hw hmem hm hf rfl hj
  obtain rfl : v = u := Option.some.inj (hv.symm.trans hu)
  exact ⟨v, hdecimal, hbinary⟩

end Sys2Proof.Machine

/-! 42_debouncer: the accessors and SETMOD (R216, R220, R222, R224), UPD (R202), and the ends of a POLL
(R205 to R214, R225). -/

namespace Sys2Proof.Machine

/-! ### Operands out of range -/

/-- A request with an operand that fails a check is refused; an agent the operation is routed to is told
that the operand is bad (30_encoding R121). -/
theorem step_of_failing_operand {s : State} {r : Request} {rest : List Request} {i : Instr}
    {chk : OperandCheck × Bool} (hw : s.cfg.wf = true) (hn : s.NextRequest r rest)
    (hd : decode s.cfg r = some i) (hmem : chk ∈ i.checks s.cfg) (hfail : chk.2 = false) :
    (∃ e, step s = .refused e) ∧
      (mayIssue s.turn.1 i = true → ∃ c, step s = .refused (.badOperand c)) := by
  have hnotWf : ¬ i.wf s.cfg = true := fun h => by
    have hpass := List.all_eq_true.mp h chk hmem
    rw [hfail] at hpass
    cases hpass
  obtain ⟨c, hc⟩ := Option.ne_none_iff_exists'.mp (mt Instr.failedCheck_eq_none.mp hnotWf)
  have hstep := step_of_nextRequest hw hn
  simp only [hd, hc] at hstep
  cases hm : mayIssue s.turn.1 i with
  | true =>
    have hbad : step s = .refused (.badOperand c) := by simpa [hm] using hstep
    exact ⟨⟨_, hbad⟩, fun _ => ⟨c, hbad⟩⟩
  | false =>
    have hwrong : step s = .refused .wrongRequester := by simpa [hm] using hstep
    exact ⟨⟨_, hwrong⟩, nofun⟩

theorem Config.storeIndexOk_out_of_range {c : Config} {k : Nat} (h : c.stores.length ≤ k) :
    (c.storeIndexOk k).2 = false :=
  decide_eq_false (Nat.not_lt.mpr h)

theorem Config.fieldIndexOk_out_of_range {c : Config} {k f : Nat}
    (h : ∀ sc, c.stores[k]? = some sc → sc.layout.length ≤ f) : (c.fieldIndexOk k f).2 = false := by
  unfold Config.fieldIndexOk
  cases hk : c.stores[k]? with
  | none => rfl
  | some sc => exact decide_eq_false (Nat.not_lt.mpr (h sc hk))

/-- Settles O6: the operand check of the index that is out of range fails, and POLLQ may issue each of
these operations. -/
theorem outOfRangeIndicesRefused : Obligations.OutOfRangeIndicesRefused := by
  intro s r rest i k f m v now tick text hw hn hd hrange
  rcases hrange with ⟨hi, hk⟩ | ⟨hi, hf⟩
  · have hmem : s.cfg.storeIndexOk k ∈ i.checks s.cfg := by
      rcases hi with rfl | rfl | rfl | rfl | rfl | rfl <;> exact List.mem_cons_self
    have hroute : mayIssue .pollq i = true := by
      rcases hi with rfl | rfl | rfl | rfl | rfl | rfl <;> rfl
    obtain ⟨hrefused, hbad⟩ :=
      step_of_failing_operand hw hn hd hmem (Config.storeIndexOk_out_of_range hk)
    exact ⟨hrefused, fun ha => hbad (ha ▸ hroute)⟩
  · have hmem : s.cfg.fieldIndexOk k f ∈ i.checks s.cfg := by
      rcases hi with rfl | rfl | rfl <;> exact List.mem_cons_of_mem _ List.mem_cons_self
    have hroute : mayIssue .pollq i = true := by rcases hi with rfl | rfl | rfl <;> rfl
    obtain ⟨hrefused, hbad⟩ :=
      step_of_failing_operand hw hn hd hmem (Config.fieldIndexOk_out_of_range hf)
    exact ⟨hrefused, fun ha => hbad (ha ▸ hroute)⟩

/-! ### UPD, the accessors and SETMOD on a record there is -/

section
variable {s : State} {k f : Nat} {c : StoreConfig} {r : FieldRec}

/-- UPD of a record there is (R202). -/
theorem exec_upd_field (hc : s.cfg.stores[k]? = some c) (hr : s.recordAt k f = some r)
    (new now : Nat) :
    exec (.upd k f new now) s = .next ((s.writeField k f (r.update s.cfg c.expiry new now).1).withOut
      (.bit (r.update s.cfg c.expiry new now).2)) := by
  simp only [exec, execUpd, State.fieldAt_eq_some.mpr ⟨hc, hr⟩]

/-- VALUE_OF of a record there is (R220). -/
theorem exec_valueOf_field (hc : s.cfg.stores[k]? = some c) (hr : s.recordAt k f = some r) :
    exec (.valueOf k f) s = .next ((s.writeField k f r.cleared).withOut (.value r.cur)) := by
  simp only [exec, execValueOf, State.fieldAt_eq_some.mpr ⟨hc, hr⟩]

/-- HAS_PENDING of a record there is (R222). -/
theorem exec_hasPending_field (hc : s.cfg.stores[k]? = some c) (hr : s.recordAt k f = some r) :
    exec (.hasPending k f) s = .next ((s.writeField k f r.cleared).withOut (.bit r.pend)) := by
  simp only [exec, execHasPending, State.fieldAt_eq_some.mpr ⟨hc, hr⟩]

end

/-- Settles O44: the record UPD writes is the marked one, or the one that stands there. -/
theorem updMarksOnChangeOrExpiry : Obligations.UpdMarksOnChangeOrExpiry := by
  intro s k f new now c r hc hr hi
  rw [exec_upd_field hc hr, FieldRec.update_eq]
  by_cases hmark : new ≠ r.cur ∨ (c.expiry : Int) < modularAge s.cfg r now
  · rw [if_pos ⟨hi, hmark⟩, if_pos hmark]
  · rw [if_neg fun h => hmark h.2, if_neg hmark, State.writeField_same hr]

/-- Settles O46. -/
theorem valueOfReadsTheValueAndClearsTheFlag : Obligations.ValueOfReadsTheValueAndClearsTheFlag :=
  fun _ _ _ _ _ hc hr => exec_valueOf_field hc hr

/-- Settles O47. -/
theorem hasPendingReadsTheFlagAndClearsIt : Obligations.HasPendingReadsTheFlagAndClearsIt :=
  fun _ _ _ _ _ hc hr => exec_hasPending_field hc hr

/-- Settles O49: modifying a store there is sets it. -/
theorem setmodWritesTheModulus : Obligations.SetmodWritesTheModulus := by
  intro s k m st hst
  have hset : s.stores.modify k (fun x => { x with mod := m }) =
      s.stores.set k { st with mod := m } := by
    rw [List.modify_eq_set_getElem?, hst]
    rfl
  simp only [exec, execSetmod, hst, hset]

/-! ### The gate and the ends of a POLL -/

/-- `due` (R206) over the integers. -/
theorem due_iff {m : Nat} {tick : Int} :
    due m tick = true ↔ m ≠ 0 ∧ ∃ n : Int, tick = n * m := by
  rw [due, decide_eq_true_iff, ← Int.dvd_iff_emod_eq_zero, dvd_iff_exists_eq_mul_left]

/-- A POLL that is not due (R206). -/
theorem exec_poll_notDue {s : State} {k : Nat} {tick : Int} {c : StoreConfig} {st : Store}
    (hc : s.cfg.stores[k]? = some c) (hst : s.stores[k]? = some st) (hd : due st.mod tick = false) :
    exec (.poll k tick) s = .next ((s.withStatus .notDue).withOut (.bit false)) := by
  simp only [exec, execPoll, hc, hst, hd, Bool.not_false, if_true, State.returnStatus]

/-- A due POLL with the lock FREE is one exchange of POLLQ and its end (R205, R207). -/
theorem exec_poll_due {s : State} {k : Nat} {tick : Int} {c : StoreConfig}
    (hc : s.cfg.stores[k]? = some c) (hd : s.pollDue k tick = true) (hl : s.t.lock = .free) :
    exec (.poll k tick) s = .next ((s.exchange .pollq c.cmd).2.2.finishPoll k c
      (s.exchange .pollq c.cmd).1 (s.exchange .pollq c.cmd).2.1) := by
  unfold State.pollDue at hd
  cases hst : s.stores[k]? with
  | none => rw [hst] at hd; cases hd
  | some st =>
    rw [hst] at hd
    simp only [exec, execPoll, hc, hst, show due st.mod tick = true from hd, hl, Bool.not_true,
      Bool.false_eq_true, if_false, if_true]

/-- An exchange ends in OK or in TIMEOUT, and the ghost status says which (R148, R149). -/
theorem State.exchange_status (s : State) (q : Requester) (cmd : Text) :
    (s.exchange q cmd).2.2.status = (s.exchange q cmd).1 ∧
      ((s.exchange q cmd).1 = .ok ∨ (s.exchange q cmd).1 = .timeout) := by
  obtain ⟨⟨hst, -, hstatus, -⟩ | ⟨hst, -, -, hstatus, -⟩, -⟩ := s.exchange_spec q cmd
  · exact ⟨hstatus.trans hst.symm, .inl hst⟩
  · exact ⟨hstatus.trans hst.symm, .inr hst⟩

/-- Settles O50: the gate fails. -/
theorem pollNotDueDoesNothing : Obligations.PollNotDueDoesNothing := by
  intro s k tick c st hc hst hnot
  exact exec_poll_notDue hc hst (Bool.eq_false_iff.mpr (mt due_iff.mp hnot))

/-- Settles O51: the four ends of a POLL after its exchange, which ends in OK or in TIMEOUT. -/
theorem duePollExchangesOnceAndChecksInOrder : Obligations.DuePollExchangesOnceAndChecksInOrder := by
  intro s k tick c hc hd hl
  have hxchg := exec_xchg_free hl .pollq c.cmd
  have hpoll := exec_poll_due hc hd hl
  obtain ⟨hstatus, hend⟩ := s.exchange_status .pollq c.cmd
  refine ⟨_, _, _, _, hxchg, rfl, hpoll, ?_⟩
  rcases (s.exchange .pollq c.cmd).2.2.finishPoll_cases k c (s.exchange .pollq c.cmd).1
      (s.exchange .pollq c.cmd).2.1 with
    ⟨hne, ht⟩ | ⟨hok, hlen, ht⟩ | ⟨hok, hlen, hdec, ht⟩ | ⟨new, hok, hlen, hdec, ht⟩
  · exact .inl ⟨hend.resolve_left hne, ht⟩
  · exact .inr (.inl ⟨hok, hlen, ht⟩)
  · exact .inr (.inr (.inl ⟨hok, hlen, hdec, ht⟩))
  · have hout : ∃ x, exec (.xchg .pollq c.cmd) s = .next x ∧
        x.out = .exchange .ok (s.exchange .pollq c.cmd).2.1 :=
      ⟨_, hxchg, congrArg (Result.exchange · _) hok⟩
    refine .inr (.inr (.inr ⟨hok, new, ⟨hc, hd, hl, hout, hlen, hdec, hpoll⟩, ?_⟩))
    rw [ht]
    exact ⟨State.readClock_t _, State.readClock_rxq _, State.readClock_txs _,
      (State.readClock_status _).trans (hstatus.trans hok)⟩

/-- Settles O54: only the accepted end writes a store or reads the time, and its status is OK. -/
theorem abandonedPollLeavesTheStores : Obligations.AbandonedPollLeavesTheStores := by
  intro s t k tick h hne
  obtain ⟨c, st, -, -, ⟨-, rfl⟩ | ⟨-, -, rfl⟩ | ⟨-, -, ht⟩⟩ := execPoll_cases h
  · exact ⟨rfl, rfl⟩
  · exact ⟨rfl, rfl⟩
  · obtain ⟨-, -, -, -, hstores, htime, -⟩ := s.exchange_spec .pollq c.cmd
    rw [ht] at hne ⊢
    rcases (s.exchange .pollq c.cmd).2.2.finishPoll_cases k c (s.exchange .pollq c.cmd).1
        (s.exchange .pollq c.cmd).2.1 with
      ⟨-, he⟩ | ⟨-, -, he⟩ | ⟨-, -, -, he⟩ | ⟨new, hok, -, -, he⟩
    · rw [he]; exact ⟨hstores, htime⟩
    · rw [he]; exact ⟨hstores, htime⟩
    · rw [he]; exact ⟨hstores, htime⟩
    · rw [he] at hne
      obtain ⟨hstatus, -⟩ := s.exchange_status .pollq c.cmd
      exact absurd ((State.readClock_status _).trans (hstatus.trans hok)) hne

/-! ### An accepted POLL -/

/-- `Now()` with an amount listed uses it up (log 5). -/
theorem State.readClock_listed {s : State} {d : Nat} {rest : List Nat}
    (h : s.env.clock = d :: rest) : s.readClock =
      (s.withEnv { s.env with clock := rest }).withTime ((s.time + d) % 2 ^ s.cfg.tsW) := by
  simp only [State.readClock, h]

/-- `Now()` with none listed takes the next free value (log 5). -/
theorem State.readClock_unlisted {s : State} (h : s.env.clock = []) : s.readClock =
    (s.withEnv { s.env with clockN := s.env.clockN + 1 }).withTime
      ((s.time + Config.timePasses s.env.clockN) % 2 ^ s.cfg.tsW) := by
  simp only [State.readClock, h]

/-- Settles O53: the exchange leaves the time and its account, and `Now()` is read once after it. -/
theorem acceptedPollReadsTheTimeOnce : Obligations.AcceptedPollReadsTheTimeOnce := by
  intro s t k tick c text new h
  obtain ⟨st, x, -, hx, ht⟩ := h.eq
  obtain ⟨-, -, -, -, -, htime, hcfg, -, henv, -⟩ := s.exchange_spec .pollq c.cmd
  rw [← hx] at htime hcfg henv
  have hread : t.time = x.readClock.time := (congrArg State.time ht :)
  have hbook : t.env = x.readClock.env := (congrArg State.env ht :)
  refine ⟨fun d rest hl => ?_, fun hl => ?_⟩
  · rw [hread, hbook, State.readClock_listed (henv.clock.trans hl), ← htime, ← hcfg]
    exact ⟨rfl, rfl, henv.clockN⟩
  · rw [hread, hbook, State.readClock_unlisted (henv.clock.trans hl), ← htime, ← hcfg,
      ← henv.clockN]
    exact ⟨rfl, henv.clock.trans hl, rfl⟩

/-- UPD marks a record that is not ignored and whose value differs or whose age exceeds the expiry
(R201, R202, R46). -/
theorem FieldRec.update_marks_iff (c : Config) (e : Nat) (r : FieldRec) (new now : Nat) :
    (r.update c e new now).2 = true ↔
      r.ign = false ∧ (new ≠ r.cur ∨ (e : Int) < modularAge c r now) := by
  rw [FieldRec.update_eq]
  split
  · exact iff_of_true rfl ‹_›
  · exact iff_of_false nofun ‹_›

/-- UPD of a record that is not ignored (R202). -/
theorem FieldRec.update_tracked {c : Config} {e : Nat} {r : FieldRec} (hi : r.ign = false)
    (new now : Nat) : (r.update c e new now).1 =
      if new ≠ r.cur ∨ (e : Int) < modularAge c r now then ⟨new, r.cur, now, r.ts, true, false⟩
      else r := by
  rw [FieldRec.update_eq]
  simp only [hi, true_and]
  split <;> rfl

/-- DECODE gives every field that is not ignored a value (R177). -/
theorem decodeResponse_hasValue {c : StoreConfig} {text : Text} {new : List (Option Nat)} {f : Nat}
    {d : Descr} (h : decodeResponse c text = some new) (hd : c.layout[f]? = some d)
    (hi : d.ign = false) : ∃ v, new[f]? = some (some v) := by
  obtain ⟨words, -, -, hvalues⟩ := decodeResponse_getElem? h
  have hsome : (fieldValue words f d).isSome = true := by rw [fieldValue_isSome, hi]; rfl
  obtain ⟨v, hv⟩ := Option.isSome_iff_exists.mp hsome
  exact ⟨v, by rw [hvalues f, hd, Option.map_some, hv]⟩

/-- The text of an accepted POLL decodes to the values it is accepted with (R209). -/
theorem PollAccepts.decodes {s t : State} {k : Nat} {tick : Int} {c : StoreConfig} {text : Text}
    {new : List (Option Nat)} (h : PollAccepts s k tick c text new t) :
    s.cfg.stores[k]? = some c ∧ decodeResponse c text = some new := by
  obtain ⟨hc, -, -, -, -, hdec, -⟩ := h
  exact ⟨hc, hdec⟩

/-- Settles O52: the update loop record by record; in a sound state a record is ignored exactly if its
descriptor is, and DECODE gives a value to every other. -/
theorem acceptedPollUpdatesEveryTrackedField : Obligations.AcceptedPollUpdatesEveryTrackedField := by
  intro s t k tick c text new hinv h
  obtain ⟨hrec, hother, hmod, changed, hout, hchanged⟩ := h.records
  obtain ⟨hc, hdec⟩ := h.decodes
  refine ⟨fun f r hr => ?_, hother, hmod, changed, hout, hchanged.trans ?_⟩
  · obtain ⟨d, hd, hsound⟩ := hinv.recordAt hc hr
    rw [hrec, hr, Option.map_some]
    refine ⟨fun hi => ?_, fun hi => ?_⟩
    · rw [decodeResponse_ignored hdec hd (hsound.ign.symm.trans hi), updatedBy_ignored]
    · obtain ⟨v, hv⟩ := decodeResponse_hasValue hdec hd (hsound.ign.symm.trans hi)
      exact ⟨v, hv, by rw [hv, updatedBy_value, FieldRec.update_tracked hi]⟩
  · simp only [FieldRec.update_marks_iff]
    constructor
    · rintro ⟨f, r, v, hr, hv, hi, hmark⟩
      exact ⟨f, r, v, hr, hi, hv, hmark⟩
    · rintro ⟨f, r, v, hr, hi, hv, hmark⟩
      exact ⟨f, r, v, hr, hv, hi, hmark⟩

/-- Settles O56: the age marks the record, whose value is written again. -/
theorem heartbeatLaw : Obligations.HeartbeatLaw := by
  intro s t k f tick c text new r h hr hi hv hage
  obtain ⟨hrec, -, -, changed, hout, hchanged⟩ := h.records
  have hmark : r.cur ≠ r.cur ∨ (c.expiry : Int) < modularAge s.cfg r t.time := .inr hage
  refine ⟨?_, ?_⟩
  · rw [hout, hchanged.mpr ⟨f, r, r.cur, hr, hv, (FieldRec.update_marks_iff ..).mpr ⟨hi, hmark⟩⟩]
  · rw [hrec, hr, hv, Option.map_some, updatedBy_value, FieldRec.update_tracked hi, if_pos hmark]

/-! ### The debounce law -/

/-- A record UPD does not mark is as before (R202). -/
theorem FieldRec.update_unmarked {c : Config} {e : Nat} {r : FieldRec} {new now : Nat}
    (h : (r.update c e new now).2 = false) : (r.update c e new now).1 = r := by
  rw [FieldRec.update_eq] at h ⊢
  split at h
  · cases h
  · rw [if_neg ‹_›]

/-- An update loop that marks nothing writes nothing (R211). -/
theorem updateFields_unchanged {c : Config} {e now : Nat} {rs : List FieldRec}
    {vs : List (Option Nat)} (h : (updateFields c e now rs vs).2 = false) :
    (updateFields c e now rs vs).1 = rs := by
  induction rs generalizing vs with
  | nil => cases vs <;> rfl
  | cons r rs ih =>
    match vs with
    | [] => rfl
    | none :: vs => exact congrArg (r :: ·) (ih h)
    | some v :: vs =>
      obtain ⟨hhead, htail⟩ := Bool.or_eq_false_iff.mp h
      exact congrArg₂ (· :: ·) (FieldRec.update_unmarked hhead) (ih htail)

/-- Writing the fields a store holds changes nothing. -/
theorem modify_same_fields {l : List Store} {k : Nat} {st : Store} (h : l[k]? = some st) :
    (l.modify k fun x => { x with fields := st.fields }) = l := by
  obtain ⟨hlt, hst⟩ := List.getElem?_eq_some_iff.mp h
  rw [List.modify_eq_set_getElem?, h, ← hst]
  exact List.set_getElem_self hlt

/-- An accepted POLL that returns 0 leaves every store as it was. -/
theorem PollAccepts.stores_of_unchanged {s t : State} {k : Nat} {tick : Int} {c : StoreConfig}
    {text : Text} {new : List (Option Nat)} (h : PollAccepts s k tick c text new t)
    (hout : t.out = .bit false) : t.stores = s.stores := by
  obtain ⟨st, x, hst, -, ht⟩ := h.eq
  have hbit : Result.bit (updateFields s.cfg c.expiry t.time st.fields new).2 = .bit false :=
    (congrArg State.out ht).symm.trans hout
  have hstores : t.stores = s.stores.modify k fun y =>
      { y with fields := (updateFields s.cfg c.expiry t.time st.fields new).1 } :=
    congrArg State.stores ht
  rw [hstores, updateFields_unchanged (Result.bit.inj hbit), modify_same_fields hst]

/-- A record UPD has passed holds the new value or is ignored (R202, R46). -/
theorem FieldRec.update_cur_or_ign (c : Config) (e : Nat) (r : FieldRec) (new now : Nat) :
    (r.update c e new now).1.cur = new ∨ (r.update c e new now).1.ign = true := by
  cases hi : r.ign with
  | true => exact .inr (by simp only [FieldRec.update, hi, if_true])
  | false =>
    refine .inl ?_
    rw [FieldRec.update_tracked hi]
    by_cases hmark : new ≠ r.cur ∨ (e : Int) < modularAge c r now
    · rw [if_pos hmark]
    · rw [if_neg hmark]
      exact (not_not.mp (not_or.mp hmark).1).symm

/-- After an accepted POLL a field with a decoded value holds it or is ignored. -/
theorem PollAccepts.holds_value {s t : State} {k f v : Nat} {tick : Int} {c : StoreConfig}
    {text : Text} {new : List (Option Nat)} {r : FieldRec} (h : PollAccepts s k tick c text new t)
    (hr : t.recordAt k f = some r) (hv : new[f]? = some (some v)) : r.cur = v ∨ r.ign = true := by
  obtain ⟨hrec, -⟩ := h.records
  rw [hrec, hv] at hr
  obtain ⟨r', -, rfl⟩ := Option.map_eq_some_iff.mp hr
  exact FieldRec.update_cur_or_ign ..

/-- Stores whose records agree but for `pend` hold records that agree but for `pend`. -/
theorem State.recordAt_of_cleared {s t : State} {k f : Nat} {r : FieldRec}
    (h : (s.stores[k]?).map (fun st => st.fields.map FieldRec.cleared)
      = (t.stores[k]?).map (fun st => st.fields.map FieldRec.cleared))
    (hr : s.recordAt k f = some r) : ∃ r', t.recordAt k f = some r' ∧ r'.cleared = r.cleared := by
  have hcleared : ∀ x : State, (x.recordAt k f).map FieldRec.cleared =
      ((x.stores[k]?).map fun st => st.fields.map FieldRec.cleared).bind (·[f]?) := fun x => by
    unfold State.recordAt
    cases x.stores[k]? <;> simp
  have hmap : (t.recordAt k f).map FieldRec.cleared = some r.cleared := by
    rw [hcleared, ← h, ← hcleared, hr, Option.map_some]
  exact Option.map_eq_some_iff.mp hmap

/-- Settles O55: the first POLL left in every tracked field the value the second decodes, so nothing
is marked. -/
theorem debounceLaw : Obligations.DebounceLaw := by
  intro s1 t1 s2 t2 k tick1 tick2 c text new1 new2 h1 h2 hbetween hfresh
  obtain rfl : new1 = new2 := Option.some.inj (h1.decodes.2.symm.trans h2.decodes.2)
  obtain ⟨-, -, -, changed, hout, hchanged⟩ := h2.records
  have hquiet : ¬ changed = true := fun h => by
    obtain ⟨f, r, v, hr, hv, hmarked⟩ := hchanged.mp h
    obtain ⟨hi, hmark⟩ := (FieldRec.update_marks_iff ..).mp hmarked
    obtain ⟨r', hr', hsame⟩ := State.recordAt_of_cleared hbetween hr
    have hcur : r'.cur = r.cur := (congrArg FieldRec.cur hsame :)
    have hign : r'.ign = r.ign := (congrArg FieldRec.ign hsame :)
    rcases hmark with hne | hage
    · rcases h1.holds_value hr' hv with hval | hig
      · exact hne (hval.symm.trans hcur)
      · rw [hign, hi] at hig
        cases hig
    · exact absurd hage (Int.not_lt.mpr (hfresh f r hr hi))
  have hzero : t2.out = .bit false := hout.trans (congrArg Result.bit (Bool.eq_false_iff.mpr hquiet))
  have hstores := h2.stores_of_unchanged hzero
  refine ⟨hzero, hstores, fun hpend f r hr => hpend f r ?_⟩
  rwa [State.recordAt, hstores] at hr

end Sys2Proof.Machine

/-! 60_exceptions: whom an operation is routed to (R257), what a well-formed request is answered (R245),
and what no step reads (R244). -/

namespace Sys2Proof.Machine

/-! ### Routing -/

/-- The request task issues its own exchanges and nothing else (R257). -/
theorem mayIssue_reqq {i : Instr} (h : ∀ cmd, i ≠ .xchg .reqq cmd) : mayIssue .reqq i = false := by
  cases i with
  | xchg q cmd =>
    cases q with
    | pollq => rfl
    | reqq => exact absurd rfl (h cmd)
  | _ => rfl

/-- An agent is refused what is not routed to it (R257, log 12). -/
theorem step_of_misrouted {s : State} {r : Request} {rest : List Request} {i : Instr}
    (hw : s.cfg.wf = true) (hn : s.NextRequest r rest) (hd : decode s.cfg r = some i)
    (hm : mayIssue s.turn.1 i = false) : step s = .refused .wrongRequester := by
  rw [step_of_nextRequest hw hn]
  simp only [hd, hm, Bool.not_false, if_true]

/-- Settles O7: every other operation is routed to another agent. -/
theorem requestTaskMayOnlyExchange : Obligations.RequestTaskMayOnlyExchange :=
  fun _ _ _ _ hw ha hn hd hi => step_of_misrouted hw hn hd (ha ▸ mayIssue_reqq hi)

/-! ### A well-formed operation has a next state -/

theorem Instr.wf_check {c : Config} {i : Instr} (hi : i.wf c = true) {chk : OperandCheck × Bool}
    (h : chk ∈ i.checks c) : chk.2 = true :=
  List.all_eq_true.mp hi chk h

/-- A store index in range names a store and its constants (R121, 42_debouncer R224). -/
theorem State.Inv.storeIndex {s : State} (h : s.Inv) {k : Nat}
    (hk : (s.cfg.storeIndexOk k).2 = true) :
    ∃ c st, s.cfg.stores[k]? = some c ∧ s.stores[k]? = some st := by
  have hc := List.getElem?_eq_getElem (of_decide_eq_true hk)
  obtain ⟨st, hst, -⟩ := h.storeAt hc
  exact ⟨_, st, hc, hst⟩

/-- SETMOD of a store there is (42_debouncer R216). -/
theorem exec_setmod_store {s : State} {k : Nat} {st : Store} (hst : s.stores[k]? = some st)
    (m : Nat) : exec (.setmod k m) s =
      .next ((s.withStores (s.stores.modify k fun x => { x with mod := m })).withOut .none) := by
  simp only [exec, execSetmod, hst]

/-- A POLL of a store there is: its gate fails, it waits for the lock, or it runs an exchange
(42_debouncer R205). -/
theorem exec_poll_completes {s : State} {k : Nat} {c : StoreConfig} {st : Store}
    (hc : s.cfg.stores[k]? = some c) (hst : s.stores[k]? = some st) (tick : Int) :
    ∃ t, exec (.poll k tick) s = .next t := by
  cases hd : due st.mod tick with
  | false => exact ⟨_, exec_poll_notDue hc hst hd⟩
  | true =>
    by_cases hl : s.t.lock = .free
    · exact ⟨_, exec_poll_due hc (by rw [State.pollDue, hst]; exact hd) hl⟩
    · exact ⟨_, exec_poll_waits hl hc hst hd⟩

/-- In a sound state only RESET during an exchange (70_reset R271) and the reserved descriptor
(30_encoding R121) are well formed and have no next state. -/
theorem State.Inv.exec_completes {s : State} (h : s.Inv) {i : Instr} (hi : i.wf s.cfg = true)
    (hr : i = .reset → s.t.lock = .free) (hx : ∀ x, i ≠ .lReserved x) :
    ∃ t, Machine.exec i s = .next t := by
  have hrecord : ∀ {k f : Nat}, s.cfg.storeIndexOk k ∈ i.checks s.cfg →
      s.cfg.fieldIndexOk k f ∈ i.checks s.cfg →
      ∃ c r, s.cfg.stores[k]? = some c ∧ s.recordAt k f = some r := fun hk hf => by
    obtain ⟨⟨c, r⟩, hp⟩ := h.fieldAt (Instr.wf_check hi hk) (Instr.wf_check hi hf)
    exact ⟨c, r, State.fieldAt_eq_some.mp hp⟩
  cases i with
  | reset => exact ⟨_, if_pos (hr rfl)⟩
  | lReserved x => exact absurd rfl (hx x)
  | xchg q cmd =>
    by_cases hl : s.t.lock = .free
    · exact ⟨_, exec_xchg_free hl q cmd⟩
    · exact ⟨_, if_neg hl⟩
  | acq q =>
    by_cases hl : s.t.lock = .free
    · exact ⟨_, if_pos hl⟩
    · exact ⟨_, if_neg hl⟩
  | poll k tick =>
    obtain ⟨c, st, hc, hst⟩ := h.storeIndex (Instr.wf_check hi List.mem_cons_self)
    exact exec_poll_completes hc hst tick
  | setmod k m =>
    obtain ⟨c, st, -, hst⟩ := h.storeIndex (Instr.wf_check hi List.mem_cons_self)
    exact ⟨_, exec_setmod_store hst m⟩
  | decode k t =>
    obtain ⟨c, st, hc, -⟩ := h.storeIndex (Instr.wf_check hi List.mem_cons_self)
    exact ⟨_, exec_decode_store hc t⟩
  | valueOf k f =>
    obtain ⟨c, r, hc, hr⟩ := hrecord List.mem_cons_self (List.mem_cons_of_mem _ List.mem_cons_self)
    exact ⟨_, exec_valueOf_field hc hr⟩
  | hasPending k f =>
    obtain ⟨c, r, hc, hr⟩ := hrecord List.mem_cons_self (List.mem_cons_of_mem _ List.mem_cons_self)
    exact ⟨_, exec_hasPending_field hc hr⟩
  | upd k f new now =>
    obtain ⟨c, r, hc, hr⟩ := hrecord List.mem_cons_self (List.mem_cons_of_mem _ List.mem_cons_self)
    exact ⟨_, exec_upd_field hc hr new now⟩
  | drain => exact ⟨_, exec_drain s⟩
  | txcmd cmd => exact ⟨_, exec_txcmd s cmd⟩
  | rxresp => exact ⟨_, exec_rxresp s⟩
  | rel => exact ⟨_, exec_rel s⟩
  | _ => exact ⟨_, rfl⟩

/-- Settles O8: the request waits, which leaves the state in which the turn is used, or it runs in a
sound state. -/
theorem wellFormedRequestsComplete : Obligations.WellFormedRequestsComplete := by
  intro s r rest i h hn hd hm hi hr hx
  rw [stepRunsTheDecodedOperation s r rest i h.cfg hn hd hm hi]
  split
  · exact ⟨_, rfl⟩
  · have hcfg : (s.turn.2.taken s.turn.1 rest).cfg = s.cfg := s.turn_cfg
    have hlock : (s.turn.2.taken s.turn.1 rest).t = s.t := s.turn_t
    exact (h.turn.taken s.turn.1 rest).exec_completes (by rw [hcfg]; exact hi)
      (by rw [hlock]; exact hr) hx

/-! ### What no step reads

`State.forget` is `State.reout` with the first result and the first status, so the laws of the receive
phase and of an exchange under `reout` are laws of `forget`. -/

section
variable (s : State)
@[simp] theorem State.forget_cfg : s.forget.cfg = s.cfg := rfl
@[simp] theorem State.forget_t : s.forget.t = s.t := rfl
@[simp] theorem State.forget_stores : s.forget.stores = s.stores := rfl
@[simp] theorem State.forget_env : s.forget.env = s.env := rfl
@[simp] theorem State.forget_fieldAt (k f : Nat) : s.forget.fieldAt k f = s.fieldAt k f := rfl
end

theorem State.turn_forget (s : State) : s.forget.turn = (s.turn.1, s.turn.2.forget) := by
  unfold State.turn
  rw [State.forget_env]
  cases s.env.sched <;> rfl

theorem State.readClock_forget (s : State) : s.forget.readClock = s.readClock.forget := by
  unfold State.readClock
  rw [State.forget_env]
  cases s.env.clock <;> rfl

theorem State.receive_forget (s : State) :
    s.forget.receive = (s.receive.1, s.receive.2.1, s.receive.2.2.forget) :=
  s.receive_reout .none .ok

theorem State.endExchange_forget (s : State) (st : Status) (raw : Text) :
    s.forget.endExchange st raw = ((s.endExchange st raw).1, (s.endExchange st raw).2.1,
      (s.endExchange st raw).2.2.withOut .none) :=
  s.endExchange_reout .none .ok st raw

theorem State.exchange_forget (s : State) (q : Requester) (cmd : Text) :
    s.forget.exchange q cmd = ((s.exchange q cmd).1, (s.exchange q cmd).2.1,
      (s.exchange q cmd).2.2.withOut .none) :=
  s.exchange_reout q cmd .none .ok

/-- The end of a POLL reads neither: each of its ends hands out a result of its own. -/
theorem State.finishPoll_forget (x : State) (k : Nat) (c : StoreConfig) (st : Status) (text : Text) :
    (x.forget.finishPoll k c st text).forget = (x.finishPoll k c st text).forget := by
  unfold State.finishPoll
  split
  · split
    · rfl
    · split
      · rfl
      · rw [State.readClock_forget]; rfl
  · rfl

/-- The end of a POLL in two states that differ in results and ghost status only. -/
theorem State.finishPoll_forget_congr {x y : State} (h : x.forget = y.forget) (k : Nat)
    (c : StoreConfig) (st : Status) (text : Text) :
    (x.finishPoll k c st text).forget = (y.finishPoll k c st text).forget := by
  rw [← State.finishPoll_forget, h, State.finishPoll_forget]

/-- What an exchange's end is handed to, in two such states. -/
theorem deliver_forget_congr {x y : State} (h : x.forget = y.forget) (i : Instr) (st : Status)
    (text : Text) : (deliver i (st, text, x)).forget = (deliver i (st, text, y)).forget := by
  cases i with
  | poll k tick =>
    have hcfg : x.cfg = y.cfg := (congrArg State.cfg h :)
    simp only [deliver, hcfg]
    cases y.cfg.stores[k]? with
    | none => exact h
    | some c => exact State.finishPoll_forget_congr h k c st text
  | _ => exact congrArg (fun z => (z.withOut (.exchange st text)).forget) h

theorem State.conclude_forget (s : State) (q : Requester) (i : Instr) (st : Status) (raw : Text) :
    (s.forget.conclude q i st raw).forget = (s.conclude q i st raw).forget := by
  have hsame : ((s.endExchange st raw).2.2.withOut .none).forget =
      (s.endExchange st raw).2.2.forget := rfl
  have hend := deliver_forget_congr hsame i (s.endExchange st raw).1 (s.endExchange st raw).2.1
  rw [State.conclude, State.endExchange_forget]
  exact congrArg (State.takeHead · q) hend

/-- A part of an exchange under way. -/
theorem State.advance_forget (s : State) (q : Requester) (i : Instr) :
    (s.forget.advance q i).forget = (s.advance q i).forget := by
  cases hp : s.t.phase with
  | drain => rw [State.advance_drain hp, State.advance_drain (s := s.forget) hp]; rfl
  | tx => rw [State.advance_tx hp, State.advance_tx (s := s.forget) hp]; rfl
  | rx =>
    rcases s.receive_spec.2 with ⟨hr, -⟩ | ⟨hr, -⟩
    · rw [State.advance_rx_ok hp hr,
        State.advance_rx_ok (s := s.forget) hp (by rw [State.receive_forget]; exact hr),
        State.receive_forget]
      rfl
    · rw [State.advance_rx_timeout hp hr,
        State.advance_rx_timeout (s := s.forget) hp (by rw [State.receive_forget]; exact hr),
        State.receive_forget]
      exact State.conclude_forget ..
  | strip =>
    rw [State.advance_strip hp, State.advance_strip (s := s.forget) hp]
    exact s.conclude_forget ..
  | idle =>
    simp only [State.advance, State.forget_t, hp]
    exact s.conclude_forget ..

/-- The sequencer moves alike in both states: whether an exchange is under way, and who may take the
lock, is read from the framer and the ports. -/
theorem State.sequencerMove_forget (s : State) (a : Agent) :
    (s.forget.sequencerMove a).map State.forget = (s.sequencerMove a).map State.forget := by
  cases a with
  | sequencer q =>
    have hu : s.forget.underWay = s.underWay := rfl
    have hm : s.forget.mayTake q = s.mayTake q := rfl
    have ha : s.forget.asking q = s.asking q := rfl
    simp only [State.sequencerMove, hu, hm, ha]
    cases s.underWay with
    | some x => exact congrArg some (s.advance_forget x.1 x.2)
    | none =>
      rw [State.forget_env]
      cases s.env.seqPort.isEmpty with
      | false => rfl
      | true => cases s.mayTake q && (s.asking q).isSome <;> rfl
  | _ => rfl

theorem mapNext_ite_congr {f : State → State} {p : Prop} [Decidable p]
    {x x' y y' : Host.Outcome State Fault Refusal} (hx : mapNext f x = mapNext f x')
    (hy : mapNext f y = mapNext f y') :
    mapNext f (if p then x else y) = mapNext f (if p then x' else y') := by
  split
  · exact hx
  · exact hy

/-- An operation reads neither the results handed out nor the ghost status. -/
theorem exec_forget (i : Instr) (s : State) :
    mapNext State.forget (exec i s.forget) = mapNext State.forget (exec i s) := by
  cases i with
  | xchg q cmd =>
    refine mapNext_ite_congr (p := s.t.lock = .free) ?_ rfl
    rw [State.exchange_forget]
    rfl
  | poll k tick =>
    simp only [exec, execPoll, State.forget_cfg, State.forget_stores]
    cases s.cfg.stores[k]? with
    | none => rfl
    | some c =>
      cases s.stores[k]? with
      | none => rfl
      | some st =>
        refine mapNext_ite_congr rfl (mapNext_ite_congr (p := s.t.lock = .free) ?_ rfl)
        have hsame : ((s.exchange .pollq c.cmd).2.2.withOut .none).forget =
            (s.exchange .pollq c.cmd).2.2.forget := rfl
        rw [State.exchange_forget]
        exact congrArg Host.Outcome.next (State.finishPoll_forget_congr hsame k c _ _)
  | acq q => exact mapNext_ite_congr (p := s.t.lock = .free) rfl rfl
  | drain => exact mapNext_ite_congr (p := s.inPhase .drain = true) rfl rfl
  | txcmd cmd => exact mapNext_ite_congr (p := s.inPhase .tx = true) rfl rfl
  | rel => exact mapNext_ite_congr (p := s.atEnd = true) rfl rfl
  | rxresp =>
    refine mapNext_ite_congr (p := s.inPhase .rx = true) ?_ rfl
    rw [State.receive_forget]
    rfl
  | setmod k m =>
    simp only [exec, execSetmod, State.forget_stores]
    cases s.stores[k]? <;> rfl
  | decode k t =>
    simp only [exec, execDecode, State.forget_cfg]
    cases s.cfg.stores[k]? <;> rfl
  | valueOf k f =>
    simp only [exec, execValueOf, State.forget_fieldAt]
    cases s.fieldAt k f <;> rfl
  | hasPending k f =>
    simp only [exec, execHasPending, State.forget_fieldAt]
    cases s.fieldAt k f <;> rfl
  | upd k f new now =>
    simp only [exec, execUpd, State.forget_fieldAt]
    cases s.fieldAt k f <;> rfl
  | _ => rfl

/-- Settles O15: the turn, the sequencer's move, the checks and the operation, in the order of
`step`. -/
theorem noStepReadsResultsOrGhostStatus : Obligations.NoStepReadsResultsOrGhostStatus := by
  intro s
  symm
  unfold step
  simp only [State.turn_forget, State.forget_cfg, State.forget_env]
  refine mapNext_ite_congr rfl (mapNext_ite_congr rfl ?_)
  have hmove := s.turn.2.sequencerMove_forget s.turn.1
  cases hm : s.turn.2.sequencerMove s.turn.1 with
  | some t =>
    rw [hm] at hmove
    obtain ⟨t', ht', hsame⟩ := Option.map_eq_some_iff.mp hmove
    rw [ht']
    exact congrArg Host.Outcome.next hsame
  | none =>
    rw [hm] at hmove
    rw [Option.map_eq_none_iff.mp hmove]
    cases s.turn.2.env.port s.turn.1 with
    | nil => rfl
    | cons r rest =>
      dsimp only
      cases decode s.cfg r with
      | none => rfl
      | some i =>
        refine mapNext_ite_congr rfl ?_
        cases i.failedCheck s.cfg with
        | some c => rfl
        | none =>
          exact mapNext_ite_congr (p := waits s.turn.2 s.turn.1 i = true) rfl
            (exec_forget i (s.turn.2.taken s.turn.1 rest))

end Sys2Proof.Machine

/-! 10_state R50, 70_reset R270: what RESET leaves in a store and in a field record. -/

namespace Sys2Proof.Machine

/-- With the lock FREE, RESET puts the whole block at its reset state (70_reset R270, R271). -/
theorem exec_reset_of_free {s : State} (h : s.t.lock = .free) : exec .reset s = .next s.resetBlock :=
  if_pos h

/-- RESET of the block resets each store the configuration lists (R50). -/
theorem State.resetBlock_stores_getElem? {s : State} {k : Nat} {c : StoreConfig}
    (hc : s.cfg.stores[k]? = some c) : s.resetBlock.stores[k]? = some (Store.reset c) := by
  change (s.cfg.stores.map Store.reset)[k]? = _
  rw [List.getElem?_map, hc, Option.map_some]

/-- A store after RESET holds one reset record per descriptor of its layout (R46, R50). -/
theorem Store.reset_fields_getElem? {c : StoreConfig} {f : Nat} {d : Descr}
    (hd : c.layout[f]? = some d) : (Store.reset c).fields[f]? = some (FieldRec.reset d) := by
  change (c.layout.map FieldRec.reset)[f]? = _
  rw [List.getElem?_map, hd, Option.map_some]

/-- Settles O9: the next state is the reset block, which resets the stores and their records one by
one. -/
theorem resetPutsEveryElementAtItsResetValue :
    Obligations.ResetPutsEveryElementAtItsResetValue := by
  intro s hfree
  refine ⟨s.resetBlock, exec_reset_of_free hfree, rfl, rfl, rfl, rfl, rfl, List.length_map _, ?_⟩
  intro k c hc
  refine ⟨Store.reset c, State.resetBlock_stores_getElem? hc, rfl, List.length_map _, ?_⟩
  exact fun f d hd => Store.reset_fields_getElem? hd

end Sys2Proof.Machine
